-- ==== Sys2Proof/Word.lean ====
section
/-! DEFINITION. The word types of the block: a byte on the wire, a 32-bit flash address, length or
capacity, and the two parts of an identification (`00_scope.md` R8, R10; `10_state.md` R24). All
quantities are unsigned. -/

namespace Sys2Proof

/-- One byte, bits numbered 7 down to 0, bit 0 the least significant (R10). -/
abbrev Byte := BitVec 8

/-- A flash address, a length, a count of bytes or a capacity: 32 bits, unsigned (R8 `ADDR_BITS`, R50). -/
abbrev Word := BitVec 32

/-- The 24-bit JEDEC ID of a descriptor (R24). -/
abbrev JedecId := BitVec 24

/-- The 16-bit extended ID of a descriptor (R24). -/
abbrev ExtId := BitVec 16

/-- The address width of a configuration: 3 or 4 address bytes on the wire (R20 `CFG.ADDR_WIDTH`). -/
inductive AddrWidth where
  | three
  | four
deriving DecidableEq, Repr

end Sys2Proof
end

