-- ==== Sys2Proof/Config.lean ====
section
/-! DEFINITION. The parameters of the block (`00_scope.md` R8, R9), as the record `Config` that every state
carries, so that a statement about every state is a statement about every configuration (log entry 1): the
numbers the source fixes, and the OPEN parameters; the default configuration; and the free values, opaque
constants no proof can look into (log entries 2, 3 and 24). -/

namespace Sys2Proof

/-! ### Numbers the source fixes (R8) -/

/-- The parameters of R8 whose value the source fixes. R8 makes them fields of the configuration like the OPEN
ones; a configuration with other values is not the source's block and is refused (`Machine.configRuns`, log
entry 15). Three of them are also shapes of the model's types: `ADDR_BITS` is the width of `Word`, `AAI_UNIT`
the number of data operands of the `AAI` frames, `ID_LEN` the number of bytes of an identification. -/
structure FixedNumbers where
  /-- `ADDR_BITS` -/
  addrBits : Nat
  /-- `ADDR4_THRESHOLD`: above this many bytes a device needs 4-byte addresses -/
  addr4Threshold : Nat
  /-- `READ_CHUNK`: the largest `ReadOnly` call of a `READ` -/
  readChunk : Nat
  /-- `AAI_UNIT`: bytes carried by one burst of the auto-increment path -/
  aaiUnit : Nat
  /-- `AAI_PROGRESS_STEP`: burst bytes between two progress reports of that path -/
  aaiProgressStep : Nat
  /-- `ID_LEN`: bytes of an identification -/
  idLen : Nat
  /-- `BUSY_BIT`: the busy bit of the status register -/
  busyBit : Nat
  /-- `BP_MASK_0_2` -/
  bpMask02 : Byte
  /-- `BP_MASK_3` -/
  bpMask3 : Byte
  /-- `BP_MASK_4` -/
  bpMask4 : Byte
  /-- `BANK_4B_BIT`: the bank register's 4-byte bit -/
  bank4bBit : Nat
  /-- `GRAN_4K` -/
  gran4k : Word
  /-- `GRAN_32K` -/
  gran32k : Word
  /-- `GRAN_64K` -/
  gran64k : Word
  /-- `GRAN_256K` -/
  gran256k : Word
  /-- `CS_LINES`: how many chip-select lines there are, numbered from 0 -/
  csLines : Nat
deriving DecidableEq, Repr

/-- The values the source gives them (R8). -/
def FixedNumbers.source : FixedNumbers where
  addrBits := 32
  addr4Threshold := 16777216
  readChunk := 4096
  aaiUnit := 2
  aaiProgressStep := 256
  idLen := 5
  busyBit := 0
  bpMask02 := 0x1C
  bpMask3 := 0x20
  bpMask4 := 0x40
  bank4bBit := 7
  gran4k := 4096
  gran32k := 32768
  gran64k := 65536
  gran256k := 262144
  csLines := 4

/-! ### OPEN parameters -/

/-- The class of a manufacturer for the address-mode switch (R8 `MFR_CLASS`, R171). -/
inductive MfrClass where
  | aWren
  | aPlain
  | b
  | none
deriving DecidableEq, Repr

/-- The class of a manufacturer for the exit-only step (R8 `EXIT_CLASS`, R180). -/
inductive ExitClass where
  | exhb
  | wrear
  | none
deriving DecidableEq, Repr

/-- The eighteen opcode bytes, each an OPEN parameter (R84, R95). -/
structure Opcodes where
  rdid : Byte
  wren : Byte
  wrdi : Byte
  rdsr : Byte
  wrsr : Byte
  en4b : Byte
  ex4b : Byte
  brwr : Byte
  exhb : Byte
  wrear : Byte
  se4k : Byte
  se4kPmc : Byte
  be32k : Byte
  be64k : Byte
  ce : Byte
  pp : Byte
  aai : Byte
  read : Byte
deriving DecidableEq, Repr

/-- The opcode bytes as a list, in the order of R84's table. -/
def Opcodes.all (o : Opcodes) : List Byte :=
  [o.rdid, o.wren, o.wrdi, o.rdsr, o.wrsr, o.en4b, o.ex4b, o.brwr, o.exhb] ++
  [o.wrear, o.se4k, o.se4kPmc, o.be32k, o.be64k, o.ce, o.pp, o.aai, o.read]

/-- One record of the identity table, a `FlashDescriptor` (R24). The ten flags are ten booleans: the
source gives them no bit positions. -/
structure Descriptor where
  /-- "model name" -/
  name : String
  jedecId : JedecId
  extId : ExtId
  /-- "capacity in bytes" -/
  capacity : Word
  sect4k : Bool
  sect4kPmc : Bool
  blk32k : Bool
  blk64k : Bool
  blk256k : Bool
  /-- "auto-increment-write" -/
  aai : Bool
  /-- "status-register-needs-full-unlock" -/
  srUnlock : Bool
  bp02 : Bool
  bp3 : Bool
  bp4 : Bool
deriving DecidableEq, Repr

/-- The parameters of R8. They are fixed before reset and never change while the block runs (R305).
The two class maps are lists of code and class; a code that is not listed has class `none`. -/
structure Config where
  /-- The numbers the source fixes -/
  fixed : FixedNumbers
  op : Opcodes
  /-- `CS_LINE`, in 0..3 -/
  csLine : Fin 4
  /-- `PAGE_SIZE`, at least 1 -/
  pageSize : Nat
  /-- `FILL_BYTE` -/
  fillByte : Byte
  /-- `POLL_LIMIT`; `none` is the source's unbounded poll -/
  pollLimit : Option Nat
  /-- `IDENTITY_TABLE` -/
  identityTable : List Descriptor
  /-- `MFR_CLASS` -/
  mfrClass : List (Byte × MfrClass)
  /-- `EXIT_CLASS` -/
  exitClass : List (Byte × ExitClass)
  /-- `WREAR_SKIP_ID` -/
  wrearSkipId : JedecId
deriving DecidableEq, Repr

/-! ### The default configuration (log entry 4: DESIGN CHOICE, unsafe) -/

/-- The default opcode bytes of R95, "from general knowledge, not in source". -/
def Opcodes.default : Opcodes where
  rdid := 0x9F
  wren := 0x06
  wrdi := 0x04
  rdsr := 0x05
  wrsr := 0x01
  en4b := 0xB7
  ex4b := 0xE9
  brwr := 0x17
  exhb := 0x98
  wrear := 0xC5
  se4k := 0x20
  se4kPmc := 0xD7
  be32k := 0x52
  be64k := 0xD8
  ce := 0xC7
  pp := 0x02
  aai := 0xAD
  read := 0x03

/-- A descriptor with no flag set, to write the fixture table from. -/
def Descriptor.plain (name : String) (jedecId : JedecId) (extId : ExtId) (capacity : Word) : Descriptor where
  name := name
  jedecId := jedecId
  extId := extId
  capacity := capacity
  sect4k := false
  sect4kPmc := false
  blk32k := false
  blk64k := false
  blk256k := false
  aai := false
  srUnlock := false
  bp02 := false
  bp3 := false
  bp4 := false

/-- The first five records of the fixture table of `95_test_vectors.md` section 2. -/
def Config.fixtureTable0 : List Descriptor :=
  [ { Descriptor.plain "FIX16M" 0xEF4018 0x0000 0x01000000 with sect4k := true, blk64k := true, bp02 := true },
    { Descriptor.plain "FIX32M_AW" 0x20BA19 0x1000 0x02000000 with blk64k := true },
    { Descriptor.plain "FIX32M_B" 0x010219 0x4D00 0x02000000 with blk256k := true, bp02 := true, bp3 := true, bp4 := true },
    { Descriptor.plain "FIXAAI" 0xBF254A 0xBF25 0x00400000 with
        sect4k := true, blk32k := true, blk64k := true, aai := true, srUnlock := true, bp02 := true },
    { Descriptor.plain "FIX32M_EON" 0x1C7019 0x1C70 0x02000000 with sect4k := true } ]

/-- The last five records of that table. -/
def Config.fixtureTable1 : List Descriptor :=
  [ { Descriptor.plain "FIXPMC" 0x9D0013 0x0000 0x00080000 with sect4kPmc := true, blk64k := true },
    { Descriptor.plain "FIX32M_SKIP" 0xC84019 0xC840 0x02000000 with sect4k := true, blk64k := true },
    { Descriptor.plain "FIX32M_W" 0xEF4019 0x0000 0x02000000 with
        sect4k := true, blk32k := true, blk64k := true, bp02 := true, bp3 := true },
    { Descriptor.plain "FIX32M_UNK" 0x8C4119 0x0000 0x02000000 with blk64k := true },
    { Descriptor.plain "FIX16M_ALT" 0xEF4018 0xAB01 0x01000000 with blk32k := true, bp3 := true } ]

/-- The configuration `State.reset` carries: R8's and R95's defaults and, for the parameters without a
default, the fixture of `95_test_vectors.md` section 2, which is the only configuration the spec writes out. -/
def Config.default : Config where
  fixed := FixedNumbers.source
  op := Opcodes.default
  csLine := 0
  pageSize := 256
  fillByte := 0x00
  pollLimit := none
  identityTable := Config.fixtureTable0 ++ Config.fixtureTable1
  mfrClass :=
    [(0x20, .aWren), (0xC2, .aPlain), (0x1C, .aPlain), (0xEF, .aPlain), (0xC8, .aPlain), (0x01, .b), (0x9D, .b)]
  exitClass := [(0x1C, .exhb), (0x20, .wrear), (0xEF, .wrear), (0xC8, .wrear)]
  wrearSkipId := 0xC84019

/-! ### Free values (log entries 2, 3 and 24) -/

/-- Whether the transport call numbered by the state's draw counter fails (R15, U15). -/
opaque Config.freeFail : Nat → Bool

/-- How much of a failing transport call reached the device, by the draw counter (R62, U8). -/
opaque Config.freeTook : Nat → Nat

/-- Byte `i` of what the environment answers to the call numbered by the draw counter (R15, U15). The
same constant gives the unspecified output vector of a failed `READ` (U9), and, by address, the bytes of the
region a failing frame aims at (U7). -/
opaque Config.freeByte : Nat → Nat → Byte

/-- The `size` field of a response that has no size, by the draw counter (R83, R131, U1). -/
opaque Config.freeSize : Nat → Word

/-- Choice number `j` about the device after the failing call numbered by the draw counter (U8). -/
opaque Config.freeBit : Nat → Nat → Bool

/-- How many further status reads show busy after a failing call, by the draw counter (U8). -/
opaque Config.freeCount : Nat → Nat

end Sys2Proof
end

