-- ==== Sys2Proof/Syntax.lean ====
section
/-! DEFINITION. The instructions: one constructor for each row of `spec/opcode_table.json`, and the two
forms in which they are written down, the host request record (`30_encoding.md` R80) and the SPI frame
(R85 to R92). -/

namespace Sys2Proof

/-- The block's instructions (R3): (a) the host requests of R81, which the block executes one at a time,
and (b) the SPI command frames of R84, which it emits. -/
inductive Instr where
  /-- Host request 0, identify the device (R120). -/
  | probe
  /-- Host request 1, the probed capacity (R131). -/
  | getsize
  /-- Host request 2, read `len` bytes from `addr` (R241). -/
  | read (addr len : Word)
  /-- Host request 3, erase `len` bytes from `addr` (R191). -/
  | erase (addr len : Word)
  /-- Host request 4, erase the whole array (R195). -/
  | chiperase
  /-- Host request 5, program `data` at `addr`; its `len` is the length of `data` (R210). -/
  | write (addr : Word) (data : List Byte)
  /-- Host operation codes 6 (`false`) and 7 (`true`), which name no operation (R100). -/
  | reserved67 (seven : Bool)
  /-- Frame: read the identification (R121). -/
  | rdid
  /-- Frame: write enable (R150). -/
  | wren
  /-- Frame: write disable (R151). -/
  | wrdi
  /-- Frame: read the status register (R152). -/
  | rdsr
  /-- Frame: write the status register (R153). -/
  | wrsr (d : Byte)
  /-- Frame: enter 4-byte addressing (R174). -/
  | en4b
  /-- Frame: exit 4-byte addressing (R175). -/
  | ex4b
  /-- Frame: write the bank register (R176). -/
  | brwr (d : Byte)
  /-- Frame: exit high bank (R177). -/
  | exhb
  /-- Frame: write the extended address register (R178). -/
  | wrear (d : Byte)
  /-- Frame: erase a 4 KiB sector (R193). -/
  | se4k (a : Word)
  /-- Frame: erase a 4 KiB sector, the PMC variant (R193). -/
  | se4kPmc (a : Word)
  /-- Frame: erase a 32 KiB block (R193). -/
  | be32k (a : Word)
  /-- Frame: erase a 64 KiB block, or 256 KiB on a descriptor with only `F_BLK_256K` (R193). -/
  | be64k (a : Word)
  /-- Frame: erase the chip (R196). -/
  | ce
  /-- Frame: program the bytes of `d` at `a` (R213). -/
  | pp (a : Word) (d : List Byte)
  /-- Frame: the first burst of an auto-increment sequence (R218). -/
  | aaiFirst (a : Word) (d0 d1 : Byte)
  /-- Frame: a later burst of the sequence (R219). -/
  | aaiNext (d0 d1 : Byte)
  /-- Frame: read `len` bytes from `a` (R242). -/
  | readFrame (a len : Word)
deriving DecidableEq, Repr

/-- A host request as the record of R80. -/
structure HostRecord where
  op : BitVec 3
  addr : Word
  len : Word
  data : List Byte
deriving DecidableEq, Repr

/-- A frame as the sender knows it: the bytes sent before the response, opcode first, and how many
bytes are then received while `FILL_BYTE` is sent (R85 to R92, R102). -/
structure FrameWord where
  tx : List Byte
  rx : Nat
deriving DecidableEq, Repr

/-- The written form of an instruction. -/
inductive Encoded where
  | host (r : HostRecord)
  | frame (f : FrameWord)
deriving DecidableEq, Repr

/-- Host request or SPI frame (the "level" column of the opcode table, R3). -/
def Instr.isHost : Instr → Bool
  | .probe | .getsize | .read .. | .erase .. | .chiperase | .write .. | .reserved67 _ => true
  | .rdid | .wren | .wrdi | .rdsr | .wrsr _ | .en4b | .ex4b | .brwr _ | .exhb | .wrear _ => false
  | .se4k _ | .se4kPmc _ | .be32k _ | .be64k _ | .ce | .pp .. | .aaiFirst .. | .aaiNext .. | .readFrame .. => false

/-- The frames with an address field, whose bytes depend on `CFG.ADDR_WIDTH` (formats A, AD, AAI-F, AR). -/
def Instr.addressed : Instr → Bool
  | .se4k _ | .se4kPmc _ | .be32k _ | .be64k _ | .pp .. | .aaiFirst .. | .readFrame .. => true
  | .probe | .getsize | .read .. | .erase .. | .chiperase | .write .. | .reserved67 _ => false
  | .rdid | .wren | .wrdi | .rdsr | .wrsr _ | .en4b | .ex4b | .brwr _ | .exhb | .wrear _ | .ce | .aaiNext .. => false

end Sys2Proof
end

