-- ==== Sys2Proof/WellFormed.lean ====
section
/-! DEFINITION. What a well-formed instruction and a well-formed configuration are: the limits the rules
put on the operands of the requests and frames, and the constraints of R9 and R25 on the parameters. -/

namespace Sys2Proof

/-- The data byte of `BRWR`: bit `BANK_4B_BIT` as asked for, the others 0 (R176). -/
def Config.bankByte (c : Config) (en : Bool) : Byte := if en then (1 : Byte) <<< c.fixed.bank4bBit else 0

/-- The operand limits of an instruction. `WRITE` carries a vector whose length is a 32-bit count (R80);
`BRWR` carries 0x80 or 0x00 and `WREAR` carries 0x00 (R86, R93); an erase frame's address is a multiple
of the region it erases (R193); `PP` carries 1 to `PAGE_SIZE` bytes that stay in one page (R89, R212);
the first `AAI` frame has an even address (R90). -/
def Instr.wf (c : Config) : Instr → Bool
  | .write _ data => decide (data.length < 2 ^ 32)
  | .brwr d => d == c.bankByte true || d == c.bankByte false
  | .wrear d => d == 0x00
  | .se4k a => a.toNat % c.fixed.gran4k.toNat == 0
  | .se4kPmc a => a.toNat % c.fixed.gran4k.toNat == 0
  | .be32k a => a.toNat % c.fixed.gran32k.toNat == 0
  | .be64k a => a.toNat % c.fixed.gran64k.toNat == 0
  | .pp a d => decide (1 ≤ d.length) && decide (a.toNat % c.pageSize + d.length ≤ c.pageSize)
  | .aaiFirst a _ _ => a.toNat % 2 == 0
  | .probe | .getsize | .read .. | .erase .. | .chiperase | .reserved67 _ => true
  | .rdid | .wren | .wrdi | .rdsr | .wrsr _ | .en4b | .ex4b | .exhb | .ce | .aaiNext .. | .readFrame .. => true

/-- The address of a frame fits the address field: no bit is dropped by R55. It holds of every frame that
carries data or erases; a zero-length `READ` at `CAPACITY = 2^24` is the one exception (R55). -/
def Instr.fits (w : AddrWidth) : Instr → Bool
  | .se4k a | .se4kPmc a | .be32k a | .be64k a | .pp a _ | .aaiFirst a _ _ | .readFrame a _ =>
    match w with
    | .three => decide (a.toNat < 2 ^ 24)
    | .four => true
  | .probe | .getsize | .read .. | .erase .. | .chiperase | .write .. | .reserved67 _ => true
  | .rdid | .wren | .wrdi | .rdsr | .wrsr _ | .en4b | .ex4b | .brwr _ | .exhb | .wrear _ | .ce | .aaiNext .. => true

/-- The eighteen opcode bytes are different from each other. The block does not need it (R94); reading a
frame back does. -/
def Opcodes.distinct (o : Opcodes) : Bool := decide o.all.Nodup

/-- R25(b): a descriptor has an erase flag, so that an erase opcode and a granularity exist. -/
def Descriptor.hasErase (d : Descriptor) : Bool :=
  d.sect4k || d.sect4kPmc || d.blk32k || d.blk64k || d.blk256k

/-- R25(a), (b), (c): unique keys, an erase flag each, capacity at least 1. "A table that breaks (a), (b)
or (c) is refused by the model as a configuration". -/
def Config.tableOk (t : List Descriptor) : Bool :=
  decide (t.map fun d => (d.jedecId, d.extId)).Nodup &&
  t.all fun d => d.hasErase && decide (1 ≤ d.capacity.toNat)

/-- How often a class is given to a code in a class map. -/
def Config.countClass {α : Type} [DecidableEq α] (m : List (Byte × α)) (k : α) : Nat :=
  (m.filter fun p => p.2 = k).length

/-- R9 for `MFR_CLASS`: each code once; exactly one `A_WREN`, several (at least two) `A_PLAIN`, exactly
two `B`. -/
def Config.mfrOk (c : Config) : Bool :=
  decide (c.mfrClass.map Prod.fst).Nodup &&
  Config.countClass c.mfrClass .aWren == 1 &&
  decide (2 ≤ Config.countClass c.mfrClass .aPlain) &&
  Config.countClass c.mfrClass .b == 2

/-- R9 for `EXIT_CLASS` and `WREAR_SKIP_ID`: each code once; exactly one `EXHB`, exactly three `WREAR`;
an exit class only for a Family A code; the skip ID's manufacturer byte has exit class `WREAR`. -/
def Config.exitOk (c : Config) : Bool :=
  decide (c.exitClass.map Prod.fst).Nodup &&
  Config.countClass c.exitClass .exhb == 1 &&
  Config.countClass c.exitClass .wrear == 3 &&
  (c.exitClass.all fun p => p.2 = .none ||
    c.mfrClass.any fun q => q.1 = p.1 && (q.2 = .aWren || q.2 = .aPlain)) &&
  (c.exitClass.any fun p => p.1 = c.wrearSkipId.extractLsb' 16 8 && p.2 = .wrear)

/-- A well-formed configuration: R8's ranges, R9 and R25(a) to (d). The step refuses only a configuration
that breaks R25(a) to (c), has `PAGE_SIZE` 0 or other fixed numbers than the source's (`Machine.configRuns`); the rest is the integrator's duty. -/
def Config.wf (c : Config) : Bool :=
  decide (c.fixed = FixedNumbers.source) && decide (1 ≤ c.pageSize) &&
  (match c.pollLimit with | none => true | some l => decide (1 ≤ l)) &&
  Config.tableOk c.identityTable &&
  (c.identityTable.all fun d => d.jedecId ≠ 0x000000 && d.jedecId ≠ 0xFFFFFF) &&
  c.mfrOk && c.exitOk

end Sys2Proof
end

