-- ==== Sys2Proof/Decode.lean ====
section
/-! DEFINITION. Reading and writing the two encodings: the host request record (`30_encoding.md` R80, R81,
R100) and the SPI frames (R85 to R93, with the address bytes of `20_memory.md` R55). Decoding is total and
rejects by name; the encoder stands after it. The block itself decodes host requests only (R94); frames are
decoded by the reference device and by the round-trip statements. -/

namespace Sys2Proof

/-- Why a written form is no instruction. -/
inductive DecodeError where
  /-- A `WRITE` record whose `data` is not a vector of `len` bytes (R80). -/
  | dataLength
  /-- A frame with no byte: there is no opcode (R85 to R92: byte 0 is always the opcode). -/
  | emptyFrame
  /-- A first byte that is none of the eighteen opcode parameters (R94, R101). -/
  | unknownOpcode
  /-- A known opcode whose frame has not the length its format gives (R85 to R92). -/
  | badShape
deriving DecidableEq, Repr

/-- The decoder's answer. -/
inductive Decoded where
  | ok (i : Instr)
  | reject (e : DecodeError)
deriving DecidableEq, Repr

/-! ### Byte order -/

/-- The number of address bytes (R20 `CFG.ADDR_WIDTH`). -/
def AddrWidth.bytes : AddrWidth → Nat
  | .three => 3
  | .four => 4

/-- `AddrBytes(a)`: the low `8 * W` bits of `a`, most significant byte first (R55). -/
def addrBytes (w : AddrWidth) (a : Word) : List Byte :=
  match w with
  | .three => [a.extractLsb' 16 8, a.extractLsb' 8 8, a.extractLsb' 0 8]
  | .four => [a.extractLsb' 24 8, a.extractLsb' 16 8, a.extractLsb' 8 8, a.extractLsb' 0 8]

/-- The address field at the head of a frame's body and what follows it; `none` when there are fewer than
`W` bytes. The inverse of `addrBytes` (R55). -/
def takeAddr (w : AddrWidth) (body : List Byte) : Option (Word × List Byte) :=
  match w, body with
  | .three, b2 :: b1 :: b0 :: rest => some ((0 : Byte) ++ b2 ++ b1 ++ b0, rest)
  | .four, b3 :: b2 :: b1 :: b0 :: rest => some (b3 ++ b2 ++ b1 ++ b0, rest)
  | _, _ => none

/-! ### Host requests -/

/-- The operation codes of R81. Codes 6 and 7 name no operation (R100). `addr` and `len` are read by
`READ`, `ERASE` and `WRITE` only, `data` by `WRITE` only (R80). -/
def decodeHost (r : HostRecord) : Decoded :=
  if r.op = 0 then .ok .probe
  else if r.op = 1 then .ok .getsize
  else if r.op = 2 then .ok (.read r.addr r.len)
  else if r.op = 3 then .ok (.erase r.addr r.len)
  else if r.op = 4 then .ok .chiperase
  else if r.op = 5 then
    if r.data.length = r.len.toNat then .ok (.write r.addr r.data) else .reject .dataLength
  else if r.op = 6 then .ok (.reserved67 false)
  else .ok (.reserved67 true)

/-! ### Frames, by format -/

/-- Format C0: the opcode alone (R85). -/
def decodeC0 (f : FrameWord) (body : List Byte) (i : Instr) : Decoded :=
  if body = [] ∧ f.rx = 0 then .ok i else .reject .badShape

/-- Format C1: the opcode and one data byte (R86). -/
def decodeC1 (f : FrameWord) (body : List Byte) (k : Byte → Instr) : Decoded :=
  match body with
  | [d] => if f.rx = 0 then .ok (k d) else .reject .badShape
  | _ => .reject .badShape

/-- Format R: the opcode, then `n` bytes received (R87). -/
def decodeR (f : FrameWord) (body : List Byte) (n : Nat) (i : Instr) : Decoded :=
  if body = [] ∧ f.rx = n then .ok i else .reject .badShape

/-- Format A: the opcode and the address (R88). -/
def decodeA (w : AddrWidth) (f : FrameWord) (body : List Byte) (k : Word → Instr) : Decoded :=
  match takeAddr w body with
  | some (a, []) => if f.rx = 0 then .ok (k a) else .reject .badShape
  | _ => .reject .badShape

/-- Format AD: the opcode, the address and at least one data byte (R89). -/
def decodeAD (w : AddrWidth) (f : FrameWord) (body : List Byte) (k : Word → List Byte → Instr) : Decoded :=
  match takeAddr w body with
  | some (a, d :: ds) => if f.rx = 0 then .ok (k a (d :: ds)) else .reject .badShape
  | _ => .reject .badShape

/-- Formats AAI-N and AAI-F: one opcode byte, told apart by position in the sequence and not by any bit
(R91). The two have different lengths, 3 bytes and `1 + W + 2`, and the length is what is read here. -/
def decodeAAI (w : AddrWidth) (f : FrameWord) (body : List Byte) : Decoded :=
  match body with
  | [d0, d1] => if f.rx = 0 then .ok (.aaiNext d0 d1) else .reject .badShape
  | _ =>
    match takeAddr w body with
    | some (a, [d0, d1]) => if f.rx = 0 then .ok (.aaiFirst a d0 d1) else .reject .badShape
    | _ => .reject .badShape

/-- Format AR: the opcode and the address, then `len` bytes received (R92). -/
def decodeAR (w : AddrWidth) (f : FrameWord) (body : List Byte) : Decoded :=
  match takeAddr w body with
  | some (a, []) => if f.rx < 2 ^ 32 then .ok (.readFrame a (BitVec.ofNat 32 f.rx)) else .reject .badShape
  | _ => .reject .badShape

/-- A frame read back, with the opcode parameters of `c` and an address field of `w` bytes (R84 to R92). -/
def decodeFrame (c : Config) (w : AddrWidth) (f : FrameWord) : Decoded :=
  match f.tx with
  | [] => .reject .emptyFrame
  | op :: body =>
    if op = c.op.rdid then decodeR f body c.fixed.idLen .rdid
    else if op = c.op.wren then decodeC0 f body .wren
    else if op = c.op.wrdi then decodeC0 f body .wrdi
    else if op = c.op.rdsr then decodeR f body 1 .rdsr
    else if op = c.op.wrsr then decodeC1 f body .wrsr
    else if op = c.op.en4b then decodeC0 f body .en4b
    else if op = c.op.ex4b then decodeC0 f body .ex4b
    else if op = c.op.brwr then decodeC1 f body .brwr
    else if op = c.op.exhb then decodeC0 f body .exhb
    else if op = c.op.wrear then decodeC1 f body .wrear
    else if op = c.op.se4k then decodeA w f body .se4k
    else if op = c.op.se4kPmc then decodeA w f body .se4kPmc
    else if op = c.op.be32k then decodeA w f body .be32k
    else if op = c.op.be64k then decodeA w f body .be64k
    else if op = c.op.ce then decodeC0 f body .ce
    else if op = c.op.pp then decodeAD w f body .pp
    else if op = c.op.aai then decodeAAI w f body
    else if op = c.op.read then decodeAR w f body
    else .reject .unknownOpcode

/-- Either encoding. -/
def decode (c : Config) (w : AddrWidth) : Encoded → Decoded
  | .host r => decodeHost r
  | .frame f => decodeFrame c w f

/-! ### The encoder -/

/-- A host record that carries an operation code and no operands. -/
def bareRecord (op : BitVec 3) : HostRecord := ⟨op, 0, 0, []⟩

/-- The written form of an instruction, with the opcode parameters of `c` and an address field of `w`
bytes (R81, R84 to R92). -/
def encode (c : Config) (w : AddrWidth) : Instr → Encoded
  | .probe => .host (bareRecord 0)
  | .getsize => .host (bareRecord 1)
  | .read addr len => .host ⟨2, addr, len, []⟩
  | .erase addr len => .host ⟨3, addr, len, []⟩
  | .chiperase => .host (bareRecord 4)
  | .write addr data => .host ⟨5, addr, BitVec.ofNat 32 data.length, data⟩
  | .reserved67 seven => .host (bareRecord (if seven then 7 else 6))
  | .rdid => .frame ⟨[c.op.rdid], c.fixed.idLen⟩
  | .wren => .frame ⟨[c.op.wren], 0⟩
  | .wrdi => .frame ⟨[c.op.wrdi], 0⟩
  | .rdsr => .frame ⟨[c.op.rdsr], 1⟩
  | .wrsr d => .frame ⟨[c.op.wrsr, d], 0⟩
  | .en4b => .frame ⟨[c.op.en4b], 0⟩
  | .ex4b => .frame ⟨[c.op.ex4b], 0⟩
  | .brwr d => .frame ⟨[c.op.brwr, d], 0⟩
  | .exhb => .frame ⟨[c.op.exhb], 0⟩
  | .wrear d => .frame ⟨[c.op.wrear, d], 0⟩
  | .se4k a => .frame ⟨c.op.se4k :: addrBytes w a, 0⟩
  | .se4kPmc a => .frame ⟨c.op.se4kPmc :: addrBytes w a, 0⟩
  | .be32k a => .frame ⟨c.op.be32k :: addrBytes w a, 0⟩
  | .be64k a => .frame ⟨c.op.be64k :: addrBytes w a, 0⟩
  | .ce => .frame ⟨[c.op.ce], 0⟩
  | .pp a d => .frame ⟨c.op.pp :: (addrBytes w a ++ d), 0⟩
  | .aaiFirst a d0 d1 => .frame ⟨c.op.aai :: (addrBytes w a ++ [d0, d1]), 0⟩
  | .aaiNext d0 d1 => .frame ⟨[c.op.aai, d0, d1], 0⟩
  | .readFrame a len => .frame ⟨c.op.read :: addrBytes w a, len.toNat⟩

/-- All bytes of a frame as they leave the block: `FILL_BYTE` is sent for each byte received (R54, R87,
R92). -/
def FrameWord.mosi (c : Config) (f : FrameWord) : List Byte :=
  f.tx ++ List.replicate f.rx c.fillByte

/-! ### The opcode table's words -/

/-- The shapes a frame with opcode byte `b` and operand bytes of zeros can have, longest first. -/
def zeroOperandFrames (b : Byte) : List FrameWord :=
  [⟨[b, 0, 0, 0, 0, 0], 0⟩, ⟨[b, 0, 0, 0, 0], 0⟩, ⟨[b, 0, 0, 0], 0⟩, ⟨[b, 0], 0⟩, ⟨[b], 5⟩, ⟨[b], 1⟩, ⟨[b], 0⟩]

/-- The first of the shapes that the decoder reads as an instruction. -/
def firstDecoded (c : Config) : List FrameWord → Option Instr
  | [] => none
  | f :: fs =>
    match decodeFrame c .three f with
    | .ok i => some i
    | .reject _ => firstDecoded c fs

/-- The instruction of a word of `spec/opcode_table.json`, operands zero, default opcode bytes, 3-byte
addresses. The table's host rows give a 3-bit `op` and its frame rows an opcode byte, and the two overlap
at 0 to 7 with nothing in the word to tell them apart: a word below 8 is read as the host request, since
host requests are all the block decodes (R94; log entry 5). -/
def decodeTableWord (nbits w : Nat) : Option Instr :=
  if 2 ^ nbits ≤ w then none
  else if w < 8 then
    match decodeHost (bareRecord (BitVec.ofNat 3 w)) with
    | .ok i => some i
    | .reject _ => none
  else if w < 256 then firstDecoded Config.default (zeroOperandFrames (BitVec.ofNat 8 w))
  else none

end Sys2Proof
end

