-- ==== Sys2Proof/Machine/State.lean ====
section
/-! DEFINITION. The state of the machine, as plain data: the block's registers (`10_state.md` R20 to R28),
the sequencer's position (R27), the request and response ports (`30_encoding.md` R80 to R83), the
observational outputs (`45_read_facade.md` R247, `40_probe_identity.md` R130), the transport with the
reference device behind it (`20_memory.md` R54, R73; `10_state.md` R31, R32), the parameters (R8), and the
model's own counter of free values. Also the ways a step can stop, and the state right after reset
(R34, R300). -/

namespace Sys2Proof.Machine

/-- The outcome of a request: `Ok` or an error kind (R265, R266). -/
inductive Status where
  | ok
  | transportFailure
  | noDevice
  | unrecognizedDevice
  | notProbed
  | unaligned
  | outOfRange
  | timeout
deriving DecidableEq, Repr

/-- The five identification bytes, in the order received (R28 `ID`, R121). -/
structure IdBytes where
  b0 : Byte
  b1 : Byte
  b2 : Byte
  b3 : Byte
  b4 : Byte
deriving DecidableEq, Repr

/-- `CFG`, the `FlashConfig` derived at the first successful probe (R20, R22, R23). -/
structure FlashConfig where
  /-- `CFG.DESC`: the index of the matching descriptor in `IDENTITY_TABLE` -/
  desc : Nat
  /-- `CFG.ERASE_OP` -/
  eraseOp : Byte
  /-- `CFG.ERASE_GRAN` -/
  eraseGran : Word
  /-- `CFG.ADDR_WIDTH` -/
  addrWidth : AddrWidth
  /-- `CFG.AAI` -/
  aai : Bool
deriving DecidableEq, Repr

/-- What the sequencer still has to do after the frame it is sending: the remaining lines of the request's
pseudocode (R27: "the pseudocode of each rule is the state machine"). A frame costs transport calls;
every other line is done at once, as the reaction to the call before it. -/
inductive Task where
  /-- Send a frame. -/
  | send (f : Instr)
  /-- `PROBE` after `RDID`: the lines from the assembly of the identification to the unlock (R120). -/
  | identify
  /-- `PROBE` after `RDSR`: test the masked bits and clear them (R128). -/
  | clearBp (mask : Byte)
  /-- `CFG <- cfg; PROBED <- 1` and the report, for the descriptor with index `i` (R129, R130). -/
  | commit (i : Nat)
  /-- `PollUntilReady` after an `RDSR`, with `k` busy answers counted before it (R155). -/
  | pollTest (k : Nat)
  /-- `SetAddressMode(en)` (R171). -/
  | setMode (en : Bool)
  /-- `ERASE` after `SetAddressMode(1)`: set up the sector loop and enter it (R191). -/
  | eraseBegin (addr len : Word)
  /-- `ERASE` after a sector: advance, report, loop (R191, R192). -/
  | eraseNext (total : Word)
  /-- `WritePages` after `SetAddressMode(1)`: set up the chunk loop and enter it (R211). -/
  | pageBegin (addr len : Word)
  /-- `WritePages` after a chunk of `c` bytes: advance, report, loop (R211). -/
  | pageNext (c : Word)
  /-- `WriteAAI` after `SetAddressMode(1)`: set up, and send the leading byte if there is one (R216). -/
  | aaiBegin (addr len : Word)
  /-- `WriteAAI` after the leading byte: advance by one (R216). -/
  | aaiLead
  /-- `WriteAAI` after the `WREN` of the burst phase: enter the burst loop (R216). -/
  | aaiLoop
  /-- `WriteAAI` after a burst: advance, report every 256 burst bytes, loop (R216). -/
  | aaiNext
  /-- `WriteAAI` after the burst phase: send the trailing byte if there is one (R216). -/
  | aaiTail
deriving DecidableEq, Repr

/-- The position of a running request (R27): the request, the frame being sent, how many transport calls of
that frame have been made, and what follows the frame. -/
structure Running where
  req : Instr
  frame : Instr
  beat : Nat
  rest : List Task
deriving DecidableEq, Repr

/-- The sequencer (R27). -/
inductive Seq where
  | idle
  | running (r : Running)
deriving DecidableEq, Repr

/-- The working registers of R28, with the local variables the pseudocode keeps beside them: `q`, the
burst bytes sent (`Q` of R216), `rx`, the bytes a register read has received (`r` of R12's `CmdRd`), and
`out`, the vector `READ` fills (R241, R32(b)). -/
structure Work where
  /-- `A` -/
  a : Word
  /-- `N` -/
  n : Word
  /-- `P` -/
  p : Word
  /-- `Q` of R216 -/
  q : Word
  /-- `SR` -/
  sr : Byte
  /-- `ID` -/
  id : IdBytes
  rx : List Byte
  out : List Byte
deriving DecidableEq, Repr

/-- A transport call (R54, R11): `ChipSelect(line, level)`, `WriteOnly(bytes)`, `ReadOnly(n)`. -/
inductive Call where
  | chipSelect (line : Nat) (level : Bool)
  | writeOnly (bytes : List Byte)
  | readOnly (n : Nat)
deriving DecidableEq, Repr

/-- The transport's answer: full completion with the bytes asked for (none for a chip select or a
`WriteOnly`, whose returned bytes are discarded), or an explicit failure (R54). -/
inductive Answer where
  | ok (bytes : List Byte)
  | fail
deriving DecidableEq, Repr

/-- The response record of R83. `out` is absent for every request but `READ`. -/
structure Response where
  status : Status
  size : Word
  out : Option (List Byte)
deriving DecidableEq, Repr

/-- What can be observed of a run, in order: the transport calls with their answers (R66), the progress
events (R247), the identification report (R130) and the responses (R83). -/
inductive Event where
  | call (c : Call) (a : Answer)
  | progress (percent : Nat)
  | report (name : String) (capacity : Word) (gran : Word)
  | response (r : Response)
deriving DecidableEq, Repr

/-- What the environment has in store for a transport call: let the device (or the draw) answer; answer
with these bytes, any missing ones drawn freely; fail after this much of the call reached the device. -/
inductive Scripted where
  | pass
  | reply (bytes : List Byte)
  | fail (took : Nat)
deriving DecidableEq, Repr

/-- The flash array's contents: address and byte, addresses rising, no entry equal to what an unlisted
address reads as (R50; `Memory.wf`). -/
abbrev Memory := List Host.Cell

/-- The reference device of R73, a test fixture and not part of the block, with the registers of R31. -/
structure Device where
  /-- `mem` (R73), the flash array (R31) -/
  mem : Memory
  /-- `CAP` (R73) -/
  cap : Nat
  /-- Bits 7:2 of `sr`; bit 1 is `wel` and bit 0 is `busyPolls > 0` (R73). -/
  srHigh : BitVec 6
  /-- The write-enable latch `wel`. -/
  wel : Bool
  /-- Addressing mode, 4-byte when true. -/
  mode4 : Bool
  /-- The bank register as `BRWR` last wrote it (R31). -/
  bank : Byte
  /-- The extended address register `ear`. -/
  ear : Byte
  /-- The high-bank latch that `EXHB` clears (R31). R31 gives its width as "not stated" and says of nothing that
  it sets it: one bit, and no frame sets it (DESIGN CHOICE, log entry 9). -/
  highBank : Bool
  /-- Inside an auto-increment sequence. -/
  aai : Bool
  aaiAddr : Word
  idBytes : IdBytes
  /-- How many further `RDSR` frames will still show busy. -/
  busyPolls : Nat
  /-- `BUSY_AFTER` -/
  busyAfter : Nat
  /-- The fixture's descriptor has only `F_BLK_256K`: `BE64K` erases 262144 bytes (R74). -/
  blk256 : Bool
  /-- The bytes received since chip select was asserted. -/
  frame : List Byte
  /-- The bytes given back since then. -/
  rxCount : Nat
deriving DecidableEq, Repr

/-- The environment below the block: the transport's chip-select level (R32(a)), what is in store for the
next calls, the reference device if one is attached, and the counter of free values. -/
structure Env where
  /-- The chip-select level, true when asserted; the block never reads it back (R32). -/
  cs : Bool
  /-- What the environment will answer to the next calls, the next one first (R15, U15). -/
  script : List Scripted
  /-- Whether the reference device answers the calls the script does not. -/
  attached : Bool
  dev : Device
  /-- The model's own counter: each use of a free value takes the next number (log entry 2). -/
  draws : Nat
deriving DecidableEq, Repr

/-- The state of the machine. -/
structure State where
  /-- The parameters of R8, fixed before reset and never changed (R305). -/
  config : Config
  /-- `PROBED` (R21) -/
  probed : Bool
  /-- `CFG` (R22), `none` until probe -/
  cfg : Option FlashConfig
  /-- The sequencer's position (R27) -/
  seq : Seq
  /-- The working registers (R28) -/
  work : Work
  /-- The response pending on the port (R83) -/
  resp : Option Response
  /-- The requests the host will present, the next one first (R80, R82) -/
  host : List HostRecord
  /-- The host asserts reset before the next step (R300, R302). -/
  resetPin : Bool
  /-- The transport and the device -/
  env : Env
  /-- Everything observed so far, the oldest first (R66) -/
  trace : List Event
deriving DecidableEq, Repr

/-- The ways the machine can stop with a fault. -/
inductive Fault where
  /-- A rule reads `CFG`, or the descriptor it refers to, while there is none. U13: "no value; a read would
  be a `fault`; no rule reads them". Raised by the requests and the addressed frames; never in a state a
  run reaches. Safe. -/
  | cfgAbsent
deriving DecidableEq, Repr

/-- The ways the machine can refuse to go on. -/
inductive Refusal where
  /-- The instruction has no meaning yet. Raised by no arm of `exec`. Safe. -/
  | notModelled (mnemonic : String)
  /-- The configuration breaks R25(a), (b) or (c), has `PAGE_SIZE` 0, or another value than the source's for a
  number the source fixes (R8). U12: "`refuse` the configuration".
  Raised by `step` alone. Safe. -/
  | badConfig
  /-- The port holds a record that is no request: a `WRITE` whose `data` is not `len` bytes (R80). Raised by
  `step` alone. Safe. -/
  | badRecord
  /-- A host request while one is running. U10: "`refuse`: ... a second request while running is not
  accepted". Raised by the host requests; `step` never asks for one then. Safe. -/
  | notIdle
  /-- A frame while no request is running: frames are steps of requests and of nothing else (R27; file 41:
  "the host cannot ask for them directly"). Raised by the frames; `step` never asks for one then. Safe. -/
  | notRunning
deriving DecidableEq, Repr

/-- Five zero bytes. -/
def IdBytes.zero : IdBytes := ⟨0, 0, 0, 0, 0⟩

/-- The working registers at reset: R28 gives them no value; zero (log entry 6). -/
def Work.zero : Work := ⟨0, 0, 0, 0, 0, IdBytes.zero, [], []⟩

/-- The reference device as `State.reset` holds it: nothing listed, every register zero, not attached to the
transport (U22, log entry 7). -/
def Device.blank : Device where
  mem := []
  cap := 0
  srHigh := 0
  wel := false
  mode4 := false
  bank := 0
  ear := 0
  highBank := false
  aai := false
  aaiAddr := 0
  idBytes := IdBytes.zero
  busyPolls := 0
  busyAfter := 0
  blk256 := false
  frame := []
  rxCount := 0

/-- The environment at reset: chip select deasserted (R34, R304), nothing in store, no device attached, so
that every answer is a draw (R15, U22). -/
def Env.reset : Env where
  cs := false
  script := []
  attached := false
  dev := Device.blank
  draws := 0

/-- The machine right after reset: `PROBED = 0`, `CFG` without a value, the sequencer `IDLE`, no response
pending (R34, R300), and no request presented. -/
def State.reset : State where
  config := Config.default
  probed := false
  cfg := none
  seq := .idle
  work := Work.zero
  resp := none
  host := []
  resetPin := false
  env := Env.reset
  trace := []

end Sys2Proof.Machine
end

