-- ==== Sys2Proof/Machine/Memory.lean ====
section
/-! DEFINITION. The flash array (`20_memory.md` R50): one linear space of bytes, held as a list of cells in
one canonical form. An address that is not listed reads as 0xFF, the erased byte (log entry 8). -/

namespace Sys2Proof.Machine

/-- What an unlisted address reads as: the erased byte (log entry 8). -/
def Memory.blank : Byte := 0xFF

/-- The byte at an address. -/
def Memory.read : Memory → Nat → Byte
  | [], _ => Memory.blank
  | (k, v) :: m, a => if k = a then v else Memory.read m a

/-- Write one byte, keeping the canonical form: writing the erased byte removes the entry. -/
def Memory.write : Memory → Nat → Byte → Memory
  | [], a, v => if v = Memory.blank then [] else [(a, v)]
  | (k, w) :: m, a, v =>
    if a < k then (if v = Memory.blank then (k, w) :: m else (a, v) :: (k, w) :: m)
    else if a = k then (if v = Memory.blank then m else (a, v) :: m)
    else (k, w) :: Memory.write m a v

/-- Reset the `n` bytes from `lo` to all-ones (GLOSSARY: "resets a fixed-size aligned region of flash to
all-ones"). -/
def Memory.erase (m : Memory) (lo n : Nat) : Memory :=
  m.filter fun cell => decide (cell.1 < lo) || decide (lo + n ≤ cell.1)

/-- Give the `n` bytes from `lo` new values. -/
def Memory.fill (m : Memory) (lo n : Nat) (g : Nat → Byte) : Memory :=
  m.filter (fun cell => decide (cell.1 < lo)) ++
  ((List.range' lo n).filter fun a => g a != Memory.blank).map (fun a => (a, g a)) ++
  m.filter fun cell => decide (lo + n ≤ cell.1)

/-- The canonical form of a list whose addresses are all at least `lo`. -/
def Memory.wfFrom : Nat → Memory → Bool
  | _, [] => true
  | lo, (k, v) :: m => decide (lo ≤ k) && v != Memory.blank && Memory.wfFrom (k + 1) m

/-- The canonical form: addresses strictly rising, no entry equal to what an unlisted address reads as. -/
def Memory.wf (m : Memory) : Bool := Memory.wfFrom 0 m

end Sys2Proof.Machine
end

