-- ==== Sys2Proof/Machine/Operands.lean ====
section
/-! DEFINITION. Operand assembly and arithmetic: the identification (R93, R122), the exact 33-bit sum of the
range and alignment checks (R262, R263), the chunk laws of `WRITE` and `READ` (R214, R244), the percent of a
progress event (R247), and the operands a running request keeps. -/

namespace Sys2Proof.Machine

/-- The five identification bytes out of what `RDID` received (R121). -/
def IdBytes.ofList (l : List Byte) : IdBytes :=
  ⟨l.getD 0 0, l.getD 1 0, l.getD 2 0, l.getD 3 0, l.getD 4 0⟩

/-- Byte number `i` of the identification, counted modulo five (R74: "then repeats from idbytes[0]"). -/
def IdBytes.get (d : IdBytes) (i : Nat) : Byte :=
  [d.b0, d.b1, d.b2, d.b3, d.b4].getD (i % 5) 0

/-- `jedec = ID[0] * 2^16 + ID[1] * 2^8 + ID[2]` (R122). -/
def IdBytes.jedec (d : IdBytes) : JedecId := d.b0 ++ d.b1 ++ d.b2

/-- `ext = ID[3] * 2^8 + ID[4]` (R122). -/
def IdBytes.ext (d : IdBytes) : ExtId := d.b3 ++ d.b4

/-- `MFR = JEDEC[23:16]` (R26). -/
def mfrOf (j : JedecId) : Byte := j.extractLsb' 16 8

/-- `zext_33(addr) + zext_33(len)`, exact: no wrap-around (R263). -/
def spanEnd (addr : Word) (len : Nat) : Nat := addr.toNat + len

/-- Whether `ERASE addr, len` is misaligned for the granularity `g` (R262). -/
def misaligned (g addr len : Word) : Bool :=
  addr.toNat % g.toNat != 0 || spanEnd addr len.toNat % g.toNat != 0

/-- `min(N, PAGE_SIZE - (A mod PAGE_SIZE))`, the length of the next chunk of a page program (R211, R214). -/
def pageChunk (pageSize : Nat) (a n : Word) : Word :=
  BitVec.ofNat 32 (min n.toNat (pageSize - a.toNat % pageSize))

/-- The `ReadOnly` calls of a `READ` of `len` bytes: `len / chunk` calls of exactly `chunk` bytes, then one call
of `len mod chunk` if that is not zero (R244, with `chunk` the parameter `READ_CHUNK`). -/
def readChunks (chunk len : Nat) : List Nat :=
  List.replicate (len / chunk) chunk ++ (if len % chunk = 0 then [] else [len % chunk])

/-- `floor(100 * done / total)` (R247). -/
def percent (done total : Nat) : Nat := 100 * done / total

/-- `data[p .. p+c-1]` (R10, R52). -/
def dataSlice (data : List Byte) (p c : Nat) : List Byte := (data.drop p).take c

/-- `data[p]` (R10). A request never reads past its data; what stands there past the end is not used. -/
def dataAt (data : List Byte) (p : Nat) : Byte := data.getD p 0

/-- The data vector of the request (R80: `WRITE` only). -/
def reqData : Instr → List Byte
  | .write _ data => data
  | .probe | .getsize | .read .. | .erase .. | .chiperase | .reserved67 _ => []
  | .rdid | .wren | .wrdi | .rdsr | .wrsr _ | .en4b | .ex4b | .brwr _ | .exhb | .wrear _ => []
  | .se4k _ | .se4kPmc _ | .be32k _ | .be64k _ | .ce | .pp .. | .aaiFirst .. | .aaiNext .. | .readFrame .. => []

end Sys2Proof.Machine
end

