-- ==== Sys2Proof/Machine/Device.lean ====
section
/-! DEFINITION. The reference device of `20_memory.md` R73 and R74, a test fixture behind the transport and
not part of the block. It collects the bytes of a frame between chip-select assert and deassert, reads the
frame with its own address width, answers the register and array reads while the frame is open and does the
rest at deassert. Its choices where R74 is silent are log entry 9. No rule of the block depends on it. -/

namespace Sys2Proof.Machine

/-- `W` is 4 when `mode4 = 1`, else 3 (R74). -/
def Device.width (d : Device) : AddrWidth := if d.mode4 then .four else .three

/-- "a frame address `a` of 3 bytes is extended to `ear * 2^24 + a`; all addresses are then taken `mod CAP`"
(R74). -/
def Device.phys (d : Device) (a : Word) : Nat :=
  (match d.width with
   | .three => d.ear.toNat * 2 ^ 24 + a.toNat
   | .four => a.toNat) % d.cap

/-- The status byte: bits 7:2 of `sr`, the latch, the busy bit (R73, R74). -/
def Device.status (d : Device) : Byte :=
  d.srHigh ++ BitVec.ofBool d.wel ++ BitVec.ofBool (decide (0 < d.busyPolls))

/-- Programming can only clear bits (R74). -/
def Device.program (d : Device) (t : Nat) (v : Byte) : Device :=
  { d with mem := Memory.write d.mem (t % d.cap) (Memory.read d.mem (t % d.cap) &&& v) }

/-- Where byte `i` of a `PP` frame goes, wrapping within the page:
`(a - (a mod PAGE_SIZE)) + ((a + i) mod PAGE_SIZE)` (R74). -/
def pageTarget (pageSize a i : Nat) : Nat := (a - a % pageSize) + (a + i) % pageSize

/-- Program the bytes of a `PP` frame from number `i` on (R74). -/
def Device.programPage (pageSize a : Nat) (i : Nat) : List Byte → Device → Device
  | [], d => d
  | v :: vs, d =>
    Device.programPage pageSize a (i + 1) vs (d.program (pageTarget pageSize a i) v)

/-- Start the internal cycle of a mutating frame: `wel <- 0; busy_polls <- BUSY_AFTER` (R74). -/
def Device.startCycle (d : Device) : Device := { d with wel := false, busyPolls := d.busyAfter }

/-- The start of the region of `g` bytes that holds `a` (R74). -/
def Device.regionStart (d : Device) (g : Nat) (a : Word) : Nat := d.phys a - d.phys a % g

/-- The bytes a `BE64K` frame erases (R74). -/
def Device.be64kSize (d : Device) : Nat := if d.blk256 then 262144 else 65536

/-- Erase the region of `g` bytes that holds `a` (R74). -/
def Device.eraseRegion (d : Device) (g : Nat) (a : Word) : Device :=
  if d.wel then
    ({ d with mem := Memory.erase d.mem (d.regionStart g a) g } : Device).startCycle
  else d

/-- The reaction to a complete frame while not busy, frame by frame (R74). R74 gives none to a first `AAI` frame
inside a sequence (`aai = 1`) and to a later one outside of it (`aai = 0`): both are ignored. R74's layout leaves
open whether the last line of `PP`, `wel <- 0; busy_polls <- BUSY_AFTER`, stands under its `if wel`: it is read so,
and a `PP` without the latch leaves the device as it was. All three are DESIGN CHOICE, log entry 9. -/
def Device.react (c : Config) (d : Device) : Instr → Device
  | .rdid | .rdsr | .readFrame .. => d
  | .wren => { d with wel := true }
  | .wrdi => { d with wel := false, aai := false }
  | .wrsr v => if d.wel then ({ d with srHigh := v.extractLsb' 2 6 } : Device).startCycle else d
  | .en4b => { d with mode4 := true }
  | .ex4b => { d with mode4 := false }
  | .brwr v => { d with bank := v, mode4 := v.getLsbD c.fixed.bank4bBit }
  | .exhb => { d with ear := 0, highBank := false }
  | .wrear v => if d.wel then { d with ear := v, wel := false } else d
  | .se4k a => d.eraseRegion 4096 a
  | .se4kPmc a => d.eraseRegion 4096 a
  | .be32k a => d.eraseRegion 32768 a
  | .be64k a => d.eraseRegion d.be64kSize a
  | .ce => if d.wel then ({ d with mem := [] } : Device).startCycle else d
  | .pp a v => if d.wel then (Device.programPage c.pageSize (d.phys a) 0 v d).startCycle else d
  | .aaiFirst a d0 d1 =>
    if d.wel ∧ d.aai = false then
      { (d.program (d.phys a) d0).program (d.phys a + 1) d1 with
        aai := true, aaiAddr := BitVec.ofNat 32 (d.phys a + 2), busyPolls := d.busyAfter }
    else d
  | .aaiNext d0 d1 =>
    if d.aai then
      { (d.program d.aaiAddr.toNat d0).program (d.aaiAddr.toNat + 1) d1 with
        aaiAddr := d.aaiAddr + 2, busyPolls := d.busyAfter }
    else d
  | .probe | .getsize | .read .. | .erase .. | .chiperase | .write .. | .reserved67 _ => d

/-- The bytes collected so far, read as a frame that receives `rx` bytes. -/
def Device.current (c : Config) (d : Device) (rx : Nat) : Decoded := decodeFrame c d.width ⟨d.frame, rx⟩

/-- The frame collected so far, as the fixture reads it. R74 reads the register reads by their first byte and
answers "for as many bytes as are clocked", so `RDID` and `RDSR` are read as such whatever the count. -/
def Device.reading (c : Config) (d : Device) : Decoded :=
  if d.current c c.fixed.idLen = .ok .rdid then .ok .rdid
  else if d.current c 1 = .ok .rdsr then .ok .rdsr
  else d.current c d.rxCount

/-- Chip-select deassert: the frame is complete. While `busy_polls > 0` every frame but `RDSR` is ignored,
and an `RDSR` frame counts one down (R74). -/
def Device.deselect (c : Config) (d : Device) : Device :=
  let closed : Device := { d with frame := [], rxCount := 0 }
  match d.reading c with
  | .reject _ => closed
  | .ok i =>
    if 0 < d.busyPolls then
      (if i = .rdsr then { closed with busyPolls := d.busyPolls - 1 } else closed)
    else closed.react c i

/-- What the fixture gives back for `n` bytes clocked; `none` where R74 gives it no answer. -/
def Device.answer (c : Config) (d : Device) (n : Nat) : Option (List Byte) :=
  match d.reading c with
  | .ok .rdsr => some (List.replicate n d.status)
  | .ok .rdid =>
    if 0 < d.busyPolls then none else some ((List.range n).map fun i => d.idBytes.get (d.rxCount + i))
  | .ok (.readFrame a _) =>
    if 0 < d.busyPolls then none
    else some ((List.range n).map fun i => Memory.read d.mem ((d.phys a + d.rxCount + i) % d.cap))
  | .ok _ => none
  | .reject _ => none

/-- What reaches the device of a transport call, of which it saw the first `took` units: bytes, or the edge
of chip select. -/
def Device.take (c : Config) (d : Device) (took : Nat) : Call → Device
  | .chipSelect _ true => if took = 0 then d else { d with frame := [], rxCount := 0 }
  | .chipSelect _ false => if took = 0 then d else d.deselect c
  | .writeOnly bytes => { d with frame := d.frame ++ bytes.take took }
  | .readOnly n => { d with rxCount := d.rxCount + min took n }

/-! ### A call that fails (R62, R192, R223; U7, U8; log entry 24) -/

/-- The array after a failing call of the frame `i`: the bytes the frame acts on have any value (U7: "the failing
frame's region is `any value`"), the others are as they were. The addresses are those of the device before the
call. -/
def Device.scramble (c : Config) (d : Device) (g : Nat → Byte) (m : Memory) (i : Instr) : Memory :=
  match i with
  | .se4k a | .se4kPmc a => Memory.fill m (d.regionStart 4096 a) 4096 g
  | .be32k a => Memory.fill m (d.regionStart 32768 a) 32768 g
  | .be64k a => Memory.fill m (d.regionStart d.be64kSize a) d.be64kSize g
  | .ce => Memory.fill m 0 d.cap g
  | .pp a v =>
    ((List.range v.length).map fun k => pageTarget c.pageSize (d.phys a) k % d.cap).foldl
      (fun m t => Memory.write m t (g t)) m
  | .aaiFirst a _ _ =>
    [d.phys a % d.cap, (d.phys a + 1) % d.cap].foldl (fun m t => Memory.write m t (g t)) m
  | .aaiNext _ _ =>
    [d.aaiAddr.toNat % d.cap, (d.aaiAddr.toNat + 1) % d.cap].foldl (fun m t => Memory.write m t (g t)) m
  | .rdid | .wren | .wrdi | .rdsr | .wrsr _ | .en4b | .ex4b | .brwr _ | .exhb | .wrear _ | .readFrame .. => m
  | .probe | .getsize | .read .. | .erase .. | .chiperase | .write .. | .reserved67 _ => m

/-- The frames that start an internal cycle of the device (R73 `BUSY_AFTER`, R74). -/
def startsCycle : Instr → Bool
  | .wrsr _ | .se4k _ | .se4kPmc _ | .be32k _ | .be64k _ | .ce | .pp .. | .aaiFirst .. | .aaiNext .. => true
  | .rdid | .wren | .wrdi | .rdsr | .en4b | .ex4b | .brwr _ | .exhb | .wrear _ | .readFrame .. => false
  | .probe | .getsize | .read .. | .erase .. | .chiperase | .write .. | .reserved67 _ => false

/-- The busy count that the whole frame `i` may leave: any, when it starts an internal cycle; one less, when it is a
status read (R74: `RDSR` counts one down); the old one else. -/
def Device.busyLeft (k : Nat) (d : Device) (i : Instr) : Nat :=
  if startsCycle i then Config.freeCount k else if i = .rdsr then d.busyPolls - 1 else d.busyPolls

/-- One of three values, freely: register number `j` of the device after the failing call of draw `k`. -/
def freely {α : Type} (k j : Nat) (whole old reached : α) : α :=
  if Config.freeBit k (2 * j) then whole else if Config.freeBit k (2 * j + 1) then old else reached

/-- The device after a failing call of the frame `i`: `d` before the call, `d'` after what of it reached the
device, `k` the draw. The array's region has any value; each register is, freely, the one the whole frame would
leave, the one before the call, or the one after what reached the device, so a status read may or may not have
counted the busy count down, and a cycle may be under way for any time (R62: the effect of a failing call is
unknown; U8: "any value within what the frames sent allow"). -/
def Device.spoil (c : Config) (k : Nat) (d d' : Device) (i : Instr) : Device :=
  let r := d.react c i
  { d' with
    mem := d.scramble c (Config.freeByte k) d'.mem i
    srHigh := freely k 0 r.srHigh d.srHigh d'.srHigh
    wel := freely k 1 r.wel d.wel d'.wel
    mode4 := freely k 2 r.mode4 d.mode4 d'.mode4
    bank := freely k 3 r.bank d.bank d'.bank
    ear := freely k 4 r.ear d.ear d'.ear
    highBank := freely k 5 r.highBank d.highBank d'.highBank
    aai := freely k 6 r.aai d.aai d'.aai
    aaiAddr := freely k 7 r.aaiAddr d.aaiAddr d'.aaiAddr
    busyPolls := freely k 8 (d.busyLeft k i) d.busyPolls d'.busyPolls }

end Sys2Proof.Machine
end

