-- ==== Sys2Proof/Machine/Flags.lean ====
section
/-! DEFINITION. The status bits the block tests (`10_state.md` R29; it has no condition codes of its own):
the busy bit of a status byte, the block-protection mask of a descriptor and the cleared value; and the
3-bit numbers of the outcomes (R266). -/

namespace Sys2Proof.Machine

/-- `SR[BUSY_BIT]`: the device is busy; the other seven bits are ignored (R155). -/
def busy (c : Config) (sr : Byte) : Bool := sr.getLsbD c.fixed.busyBit

/-- The mask of the block-protection bits the descriptor exposes (R128). -/
def bpMask (c : Config) (d : Descriptor) : Byte :=
  (if d.bp02 then c.fixed.bpMask02 else 0) ||| (if d.bp3 then c.fixed.bpMask3 else 0) |||
  (if d.bp4 then c.fixed.bpMask4 else 0)

/-- The descriptor exposes some block-protection bit (R120, R128). -/
def exposesBp (d : Descriptor) : Bool := d.bp02 || d.bp3 || d.bp4

/-- `SR & ~mask`: every bit outside the mask is written back as read (R128). -/
def bpCleared (sr mask : Byte) : Byte := sr &&& ~~~mask

/-- The 3-bit status codes of R266. -/
def Status.code : Status → BitVec 3
  | .ok => 0
  | .transportFailure => 1
  | .noDevice => 2
  | .unrecognizedDevice => 3
  | .notProbed => 4
  | .unaligned => 5
  | .outOfRange => 6
  | .timeout => 7

end Sys2Proof.Machine
end

