-- ==== Sys2Proof/Machine/Identity.lean ====
section
/-! DEFINITION. The identity table and what is derived from a descriptor: the lookup (`40_probe_identity.md`
R124), the configuration (R125, R126), the manufacturer classes (`00_scope.md` R8), the frames of
`SetAddressMode` (`42_address_mode.md` R171) and the erase frame of a configuration (`43_erase.md` R193). -/

namespace Sys2Proof.Machine

/-- `Lookup(jedec, ext)` from index `i` on: the index and record of the first descriptor, in table order,
with both parts equal (R124). -/
def lookupFrom (j : JedecId) (e : ExtId) : Nat → List Descriptor → Option (Nat × Descriptor)
  | _, [] => none
  | i, d :: ds => if d.jedecId = j ∧ d.extId = e then some (i, d) else lookupFrom j e (i + 1) ds

/-- `Lookup(jedec, ext)` (R124). -/
def lookup (c : Config) (j : JedecId) (e : ExtId) : Option (Nat × Descriptor) :=
  lookupFrom j e 0 c.identityTable

/-- No chip present: the JEDEC bytes are all zeros or all ones; the extended bytes take no part (R123). -/
def noChip (j : JedecId) : Bool := j == 0x000000 || j == 0xFFFFFF

/-- 4 exactly when the capacity is above 16 MiB (R125). -/
def deriveWidth (c : Config) (d : Descriptor) : AddrWidth :=
  if c.fixed.addr4Threshold < d.capacity.toNat then .four else .three

/-- The erase opcode of R126, the first line that applies. A descriptor without an erase flag is excluded by
R25(b), so the last line is `F_BLK_256K`. -/
def deriveEraseOp (c : Config) (d : Descriptor) : Byte :=
  if d.sect4k then c.op.se4k
  else if d.sect4kPmc then c.op.se4kPmc
  else if d.blk32k then c.op.be32k
  else c.op.be64k

/-- The erase granularity of R126, the first line that applies. -/
def deriveEraseGran (c : Config) (d : Descriptor) : Word :=
  if d.sect4k then c.fixed.gran4k
  else if d.sect4kPmc then c.fixed.gran4k
  else if d.blk32k then c.fixed.gran32k
  else if d.blk64k then c.fixed.gran64k
  else c.fixed.gran256k

/-- `Derive(i, d)` (R125, R126). -/
def derive (c : Config) (i : Nat) (d : Descriptor) : FlashConfig where
  desc := i
  eraseOp := deriveEraseOp c d
  eraseGran := deriveEraseGran c d
  addrWidth := deriveWidth c d
  aai := d.aai

/-- `MFR_CLASS(code)`; a code the map does not list has class `NONE` (R9). -/
def mfrClassOf (c : Config) (code : Byte) : MfrClass :=
  match c.mfrClass.find? (fun p => p.1 = code) with
  | some p => p.2
  | none => .none

/-- `EXIT_CLASS(code)`; a code the map does not list has class `NONE` (R9). -/
def exitClassOf (c : Config) (code : Byte) : ExitClass :=
  match c.exitClass.find? (fun p => p.1 = code) with
  | some p => p.2
  | none => .none

/-- The main step of `SetAddressMode(en)` (R172, R173, R176, R179). -/
def modeSwitch (c : Config) (k : MfrClass) (en : Bool) : List Instr :=
  match k with
  | .aWren => [.wren, if en then .en4b else .ex4b, .wrdi]
  | .aPlain => [if en then .en4b else .ex4b]
  | .b => [.brwr (c.bankByte en)]
  | .none => []

/-- The exit-only step: re-target the low 16 MiB bank, unless the JEDEC ID is the one that must skip it
(R177, R178, R180). -/
def exitStep (c : Config) (k : ExitClass) (j : JedecId) : List Instr :=
  match k with
  | .exhb => [.exhb]
  | .wrear => if j = c.wrearSkipId then [] else [.wren, .wrear 0x00, .wrdi]
  | .none => []

/-- The frames of `SetAddressMode(en)` for a width and a JEDEC ID (R171, R182). -/
def setModeFrames (c : Config) (w : AddrWidth) (j : JedecId) (en : Bool) : List Instr :=
  match w with
  | .three => []
  | .four =>
    modeSwitch c (mfrClassOf c (mfrOf j)) en ++
    (if en then [] else exitStep c (exitClassOf c (mfrOf j)) j)

/-- The frame whose first byte is `CFG.ERASE_OP` (R193, R94: one of the four erase opcodes). -/
def eraseFrame (c : Config) (f : FlashConfig) (a : Word) : Instr :=
  if f.eraseOp = c.op.se4k then .se4k a
  else if f.eraseOp = c.op.se4kPmc then .se4kPmc a
  else if f.eraseOp = c.op.be32k then .be32k a
  else .be64k a

end Sys2Proof.Machine
end

