-- ==== Sys2Proof/Machine/Ops.lean ====
section
/-! DEFINITION. The shared operations of the machine: the transport call (`20_memory.md` R54), the response
that ends a request, `raise E` (`60_exceptions.md` R268, the block's only trap entry) with the normal end
beside it (R275: there is no return-from-trap), the guarded read of `CFG` (R22, R26, R260), reset (R300 to
R302), and the request port (`30_encoding.md` R82). -/

namespace Sys2Proof.Machine

/-- What `exec` and `step` answer. -/
abbrev Result := Host.Outcome State Fault Refusal

/-! ### The transport -/

/-- How many bytes a call asks for. -/
def Call.rxLen : Call → Nat
  | .chipSelect .. => 0
  | .writeOnly _ => 0
  | .readOnly n => n

/-- How many units of a call there are for the device to see: the edge, or the bytes. -/
def Call.size : Call → Nat
  | .chipSelect .. => 1
  | .writeOnly bytes => bytes.length
  | .readOnly n => n

/-- What a call puts on the wire: `TxOnly(s) = Xfer(s)`, `RxOnly(n)` = `Xfer` of `n` bytes of `FILL_BYTE`
(R54). -/
def Call.mosi (c : Config) : Call → List Byte
  | .chipSelect .. => []
  | .writeOnly bytes => bytes
  | .readOnly n => List.replicate n c.fillByte

/-- `n` bytes of which the first are given and the rest are free values of draw `k` (R15, U15; R54: exactly
as many bytes as asked for). -/
def completeBytes (k n : Nat) (given : List Byte) : List Byte :=
  (List.range n).map fun i => (given[i]?).getD (Config.freeByte k i)

/-- `ChipSelect` "fails on any line outside 0..3" (R54; `CS_LINES` of R8). -/
def Call.badLine (c : Config) : Call → Bool
  | .chipSelect line _ => decide (c.fixed.csLines ≤ line)
  | .writeOnly _ => false
  | .readOnly _ => false

/-- The environment's answer to a call, and how much of the call reached the device. A call on a line that
does not exist fails; otherwise the script decides, then the attached device, then a free draw of failure
and of every byte (R54, R15). -/
def Env.answer (c : Config) (e : Env) (call : Call) : Answer × Nat :=
  let own : Answer × Nat :=
    if e.attached then
      (.ok (completeBytes e.draws call.rxLen ((e.dev.answer c call.rxLen).getD [])), call.size)
    else if Config.freeFail e.draws then (.fail, Config.freeTook e.draws)
    else (.ok (completeBytes e.draws call.rxLen []), call.size)
  if call.badLine c then (.fail, 0)
  else
    match e.script with
    | .fail took :: _ => (.fail, took)
    | .reply bytes :: _ => (.ok (completeBytes e.draws call.rxLen bytes), call.size)
    | .pass :: _ => own
    | [] => own

/-- The chip-select level after a call of which `took` units had effect (R32(a)). -/
def Env.csAfter (e : Env) (took : Nat) : Call → Bool
  | .chipSelect _ level => if took = 0 then e.cs else level
  | .writeOnly _ => e.cs
  | .readOnly _ => e.cs

/-- The environment after a call. -/
def Env.after (c : Config) (e : Env) (call : Call) : Env where
  cs := e.csAfter (e.answer c call).2 call
  script := e.script.tail
  attached := e.attached
  dev := if e.attached then e.dev.take c (e.answer c call).2 call else e.dev
  draws := e.draws + 1

/-- The answer to a call made in a state. -/
def State.answer (s : State) (call : Call) : Answer := (s.env.answer s.config call).1

/-- One more observation. -/
def State.emit (s : State) (e : Event) : State := { s with trace := s.trace ++ [e] }

/-- The environment after a call made in a state. A call that fails leaves the device uncertain in what the
frame being sent acts on (R62, R192, R223, U7, U8; log entry 24). -/
def State.envAfter (s : State) (call : Call) : Env :=
  let e := s.env.after s.config call
  match s.answer call with
  | .ok _ => e
  | .fail =>
    match s.seq with
    | .idle => e
    | .running r =>
      { e with dev := if e.attached then s.env.dev.spoil s.config s.env.draws e.dev r.frame else e.dev }

/-- The state after a transport call, whatever its answer: the environment has moved on and the call stands
in the history (R66). -/
def State.called (s : State) (call : Call) : State :=
  { s with env := s.envAfter call, trace := s.trace ++ [.call call (s.answer call)] }

/-- `Progress(done, total)` (R247). -/
def State.progress (s : State) (done total : Nat) : State := s.emit (.progress (percent done total))

/-! ### The end of a request -/

/-- The response is produced and the sequencer goes to `IDLE` (R16, R83, R240). A size that no rule gives is
a free value (R83, U1). -/
def State.respond (s : State) (st : Status) (size : Option Word) (out : Option (List Byte)) : State :=
  let r : Response := ⟨st, size.getD (Config.freeSize s.env.draws), out⟩
  { s with seq := .idle, resp := some r, env := { s.env with draws := s.env.draws + 1 },
           trace := s.trace ++ [.response r] }

/-- The output vector of a failed request: unspecified bytes for `READ`, absent for the others (R83, R245,
U9). -/
def failedOut (s : State) : Instr → Option (List Byte)
  | .read _ len => some (completeBytes s.env.draws len.toNat [])
  | .probe | .getsize | .erase .. | .chiperase | .write .. | .reserved67 _ => none
  | .rdid | .wren | .wrdi | .rdsr | .wrsr _ | .en4b | .ex4b | .brwr _ | .exhb | .wrear _ => none
  | .se4k _ | .se4kPmc _ | .be32k _ | .be64k _ | .ce | .pp .. | .aaiFirst .. | .aaiNext .. | .readFrame .. => none

/-- The output vector of a request that returned `Ok`: what `READ` filled, absent for the others (R83). -/
def okOut (s : State) : Instr → Option (List Byte)
  | .read .. => some s.work.out
  | .probe | .getsize | .erase .. | .chiperase | .write .. | .reserved67 _ => none
  | .rdid | .wren | .wrdi | .rdsr | .wrsr _ | .en4b | .ex4b | .brwr _ | .exhb | .wrear _ => none
  | .se4k _ | .se4kPmc _ | .be32k _ | .be64k _ | .ce | .pp .. | .aaiFirst .. | .aaiNext .. | .readFrame .. => none

/-- `raise E` (R268): no transport call is made, nothing is saved, `PROBED` and `CFG` stay, the response is
produced with `status = E` and the sequencer goes to `IDLE`. -/
def State.raise (s : State) (req : Instr) (e : Status) : State := s.respond e none (failedOut s req)

/-- `return Ok`: the normal end of a request, the counterpart of `raise`. -/
def State.returnOk (s : State) (req : Instr) : State := s.respond .ok none (okOut s req)

/-! ### Reading `CFG` -/

/-- `CFG` and the descriptor it refers to (R22, R26), when both exist. -/
def State.probedDevice (s : State) : Option (FlashConfig × Descriptor) :=
  match s.cfg with
  | none => none
  | some f =>
    match s.config.identityTable[f.desc]? with
    | none => none
    | some d => some (f, d)

/-- The first check of every request but `PROBE`: `NotProbed` (R260); then the request's own lines, which
read `CFG`. -/
def withProbed (req : Instr) (s : State) (k : FlashConfig → Descriptor → Result) : Result :=
  if s.probed then
    match s.probedDevice with
    | some p => k p.1 p.2
    | none => .fault .cfgAbsent
  else .next (s.raise req .notProbed)

/-- A request has been accepted: no response is pending (R83: "produced once per accepted request"). -/
def State.accepted (s : State) : State := { s with resp := none }

/-- A request is accepted only in `IDLE`; the response of the one before is gone then (R27, R82, R83). -/
def accept (s : State) (k : State → Result) : Result :=
  match s.seq with
  | .idle => k s.accepted
  | .running _ => .refused .notIdle

/-- The block raises `req_ready` only while the sequencer is `IDLE` (R82). -/
def State.reqReady (s : State) : Bool := s.seq = .idle

/-! ### Reset -/

/-- The reset event (R300 to R302): `PROBED = 0`, no `CFG`, `IDLE`, nothing pending; a running request is
abandoned without a response; no transport call is made, and the transport and the device stay as they
are. -/
def State.onReset (s : State) : State :=
  { s with probed := false, cfg := none, seq := .idle, work := Work.zero, resp := none, resetPin := false }

/-! ### The request port -/

/-- What there is to run next. -/
inductive Fetched where
  /-- Idle and no request presented: the block waits (R303). -/
  | wait
  /-- The next instruction, and the state it runs in. -/
  | run (i : Instr) (s : State)
  /-- The record presented is no request. -/
  | bad
deriving DecidableEq, Repr

/-- The next instruction: the frame the sequencer is sending, or, in `IDLE`, the request the host presents,
which leaves the port (R27, R82, R240). -/
def State.fetch (s : State) : Fetched :=
  match s.seq with
  | .running r => .run r.frame s
  | .idle =>
    match s.host with
    | [] => .wait
    | r :: rest =>
      match decodeHost r with
      | .ok i => .run i { s with host := rest }
      | .reject _ => .bad

/-- A configuration the model does not refuse: the numbers the source fixes, R25(a), (b), (c), and `PAGE_SIZE`
at least 1 (R8, U12; log entry 15). -/
def configRuns (c : Config) : Bool :=
  decide (c.fixed = FixedNumbers.source) && Config.tableOk c.identityTable && decide (1 ≤ c.pageSize)

/-- An instruction placed where the next step takes it from (log entry 5). A host request is presented on
the port of an idle block. A frame is made the frame of a running request; an addressed frame runs only in
a probed block, so one without a configuration gets that of the first descriptor of the table. -/
def State.place (s : State) (c : Config) (i : Instr) : State :=
  match encode c .three i with
  | .host r => { s with resetPin := false, seq := .idle, host := r :: s.host }
  | .frame _ =>
    if i.addressed then
      { s with
        resetPin := false
        probed := true
        cfg := s.cfg.orElse fun _ => s.config.identityTable.head?.map (derive s.config 0)
        seq := .running ⟨.read 0 0, i, 0, []⟩ }
    else { s with resetPin := false, seq := .running ⟨.probe, i, 0, []⟩ }

end Sys2Proof.Machine
end

