-- ==== Sys2Proof/Machine/Sequencer.lean ====
section
/-! DEFINITION. The sequencer (`10_state.md` R27): how each line of a request's pseudocode that is not a
transport call is done (R120, R155, R171, R191, R211, R216), how the remaining lines are run down to the next
frame, and how a frame is sent, one transport call a step (R27(d), R12). -/

namespace Sys2Proof.Machine

/-- What a line of the pseudocode leads to. -/
inductive Reaction where
  /-- The request ends with an error. -/
  | raise (e : Status) (s : State)
  /-- The line is done; go on with the next one. -/
  | fall (s : State)
  /-- Send a frame, then do these lines, then the next one. -/
  | send (s : State) (f : Instr) (ts : List Task)
  /-- The line reads what has no value. -/
  | fault (r : Fault)

/-- Send some frames, if any. -/
def sendAll (s : State) : List Instr → Reaction
  | [] => .fall s
  | f :: fs => .send s f (fs.map .send)

/-- The lines that follow a frame when the device is polled to completion and then `after` is done. -/
def polled (after : List Task) : List Task := .send .rdsr :: .pollTest 0 :: after

/-! ### `PROBE` -/

/-- `CFG <- cfg; PROBED <- 1`, together, and the identification report (R129, R130). -/
def State.commit (s : State) (i : Nat) (d : Descriptor) : State :=
  ({ s with cfg := some (derive s.config i d), probed := true } : State).emit
    (.report d.name d.capacity (deriveEraseGran s.config d))

/-- The lines of R120 after `RDID`: assembly, `NoDevice`, lookup, `UnrecognizedDevice`, the two unlock
branches and, when neither applies, the commit (R122 to R129). -/
def identify (s : State) : Reaction :=
  if noChip s.work.id.jedec then .raise .noDevice s
  else
    match lookup s.config s.work.id.jedec s.work.id.ext with
    | none => .raise .unrecognizedDevice s
    | some (i, d) =>
      if d.srUnlock then .send s .wren [.send (.wrsr 0x00), .commit i]
      else if exposesBp d then .send s .rdsr [.clearBp (bpMask s.config d), .commit i]
      else .fall (s.commit i d)

/-- `PROBE` after `RDSR` (R128). -/
def clearBp (s : State) (mask : Byte) : Reaction :=
  if s.work.sr &&& mask = 0 then .fall s
  else .send s .wren (.send (.wrsr (bpCleared s.work.sr mask)) :: polled [])

/-- The commit line (R129, R130). -/
def commitLine (s : State) (i : Nat) : Reaction :=
  match s.config.identityTable[i]? with
  | some d => .fall (s.commit i d)
  | none => .fault .cfgAbsent

/-! ### `PollUntilReady` -/

/-- Whether `POLL_LIMIT` is set and `k` has reached it (R155). -/
def pollExhausted (limit : Option Nat) (k : Nat) : Bool :=
  match limit with
  | some l => decide (l ≤ k)
  | none => false

/-- The lines of R155 after an `RDSR`: return when bit 0 is clear, else count, and end with `Timeout` at the
limit or poll again. -/
def pollTest (s : State) (k : Nat) : Reaction :=
  if busy s.config s.work.sr then
    if pollExhausted s.config.pollLimit (k + 1) then .raise .timeout s
    else .send s .rdsr [.pollTest (k + 1)]
  else .fall s

/-! ### Lines that read `CFG` -/

/-- Do a line with `CFG` and its descriptor. -/
def withCfg (s : State) (k : FlashConfig → Descriptor → Reaction) : Reaction :=
  match s.probedDevice with
  | some p => k p.1 p.2
  | none => .fault .cfgAbsent

/-- `SetAddressMode(en)` (R171). -/
def setModeLine (s : State) (en : Bool) : Reaction :=
  withCfg s fun f d => sendAll s (setModeFrames s.config f.addrWidth d.jedecId en)

/-! ### `ERASE` -/

/-- The head of the sector loop: `EraseSector(A)` while `N > 0` (R191, R193). -/
def eraseLoop (s : State) (f : FlashConfig) (total : Word) : Reaction :=
  if s.work.n = 0 then .fall s
  else .send s .wren (.send (eraseFrame s.config f s.work.a) :: polled [.eraseNext total])

/-- `A <- addr; N <- len / G; total <- N` and the loop (R191). -/
def eraseBegin (s : State) (addr len : Word) : Reaction :=
  withCfg s fun f _ =>
    eraseLoop { s with work := { s.work with a := addr, n := len / f.eraseGran } } f (len / f.eraseGran)

/-- `A <- A + G; N <- N - 1; Progress(total - N, total)` and the loop (R191). -/
def eraseNext (s : State) (total : Word) : Reaction :=
  withCfg s fun f _ =>
    let s1 : State := { s with work := { s.work with a := s.work.a + f.eraseGran, n := s.work.n - 1 } }
    eraseLoop (s1.progress (total - s1.work.n).toNat total.toNat) f total

/-! ### `WRITE`, pages -/

/-- `ProgramChunk(a, d)` and then `after` (R212). -/
def programChunk (s : State) (a : Word) (d : List Byte) (after : List Task) : Reaction :=
  .send s .wren (.send (.pp a d) :: polled after)

/-- The head of the chunk loop (R211). -/
def pageLoop (s : State) (data : List Byte) : Reaction :=
  let c := pageChunk s.config.pageSize s.work.a s.work.n
  if s.work.n = 0 then .fall s
  else programChunk s s.work.a (dataSlice data s.work.p.toNat c.toNat) [.pageNext c]

/-- `A <- addr; P <- 0; N <- len` and the loop (R211). -/
def pageBegin (s : State) (data : List Byte) (addr len : Word) : Reaction :=
  pageLoop { s with work := { s.work with a := addr, p := 0, n := len } } data

/-- `A <- A + c; P <- P + c; N <- N - c; Progress(P, len)` and the loop (R211). -/
def pageNext (s : State) (data : List Byte) (c : Word) : Reaction :=
  let s1 : State :=
    { s with work := { s.work with a := s.work.a + c, p := s.work.p + c, n := s.work.n - c } }
  pageLoop (s1.progress s1.work.p.toNat data.length) data

/-! ### `WRITE`, auto-increment -/

/-- `A <- addr; P <- 0; N <- len; Q <- 0`, and the leading byte when the address is odd (R216). -/
def aaiBegin (s : State) (data : List Byte) (addr len : Word) : Reaction :=
  let s1 : State := { s with work := { s.work with a := addr, p := 0, n := len, q := 0 } }
  if len ≠ 0 ∧ addr.toNat % 2 = 1 then programChunk s1 addr [dataAt data 0] [.aaiLead]
  else .fall s1

/-- `A <- A + 1; P <- 1; N <- N - 1` (R216). -/
def aaiLead (s : State) : Reaction :=
  .fall { s with work := { s.work with a := s.work.a + 1, p := 1, n := s.work.n - 1 } }

/-- The head of the burst loop: `pairs = N / 2` bursts, the first with the address (R216, R218, R219). -/
def aaiLoop (s : State) (data : List Byte) : Reaction :=
  let p := s.work.p.toNat
  let unit := s.config.fixed.aaiUnit
  if s.work.q.toNat < unit * (s.work.n.toNat / unit) then
    .send s
      (if s.work.q = 0 then .aaiFirst s.work.a (dataAt data p) (dataAt data (p + 1))
       else .aaiNext (dataAt data p) (dataAt data (p + 1)))
      (polled [.aaiNext])
  else .fall s

/-- `A <- A + 2; P <- P + 2; Q <- Q + 2; if Q mod 256 = 0: Progress(P, len)` and the loop (R216). -/
def aaiNext (s : State) (data : List Byte) : Reaction :=
  let unit : Word := BitVec.ofNat 32 s.config.fixed.aaiUnit
  let s1 : State :=
    { s with work := { s.work with a := s.work.a + unit, p := s.work.p + unit, q := s.work.q + unit } }
  aaiLoop
    (if s1.work.q.toNat % s.config.fixed.aaiProgressStep = 0 then s1.progress s1.work.p.toNat data.length else s1)
    data

/-- The trailing byte, when the count left after the leading byte is odd (R216, C3). -/
def aaiTail (s : State) (data : List Byte) : Reaction :=
  if s.work.n.toNat % 2 = 1 then programChunk s s.work.a [dataAt data s.work.p.toNat] []
  else .fall s

/-! ### Running the pseudocode -/

/-- One line of the pseudocode of the request `req`. -/
def react (req : Instr) (s : State) : Task → Reaction
  | .send f => .send s f []
  | .identify => identify s
  | .clearBp mask => clearBp s mask
  | .commit i => commitLine s i
  | .pollTest k => pollTest s k
  | .setMode en => setModeLine s en
  | .eraseBegin addr len => eraseBegin s addr len
  | .eraseNext total => eraseNext s total
  | .pageBegin addr len => pageBegin s (reqData req) addr len
  | .pageNext c => pageNext s (reqData req) c
  | .aaiBegin addr len => aaiBegin s (reqData req) addr len
  | .aaiLead => aaiLead s
  | .aaiLoop => aaiLoop s (reqData req)
  | .aaiNext => aaiNext s (reqData req)
  | .aaiTail => aaiTail s (reqData req)

/-- The sequencer stands before the first call of frame `f`. -/
def State.sending (s : State) (req f : Instr) (rest : List Task) : State :=
  { s with seq := .running ⟨req, f, 0, rest⟩ }

/-- Do the lines of the pseudocode up to the next frame, or to the end of the request (R27(d), (e)). -/
def settle (req : Instr) : List Task → State → Result
  | [], s => .next (s.returnOk req)
  | t :: ts, s =>
    match react req s t with
    | .raise e s' => .next (s'.raise req e)
    | .fall s' => settle req ts s'
    | .send s' f us => .next (s'.sending req f (us ++ ts))
    | .fault r => .fault r

/-! ### Sending a frame -/

/-- Call number `beat` of a frame with the sent bytes `tx` and the receive calls `rxs`:
`CS(1); TxOnly(tx); RxOnly(n) for each n; CS(0)` (R12, R85 to R92). -/
def frameCall (line : Nat) (tx : List Byte) (rxs : List Nat) (beat : Nat) : Call :=
  match beat with
  | 0 => .chipSelect line true
  | 1 => .writeOnly tx
  | k + 2 =>
    match rxs[k]? with
    | some n => .readOnly n
    | none => .chipSelect line false

/-- The beat of the closing `CS(0)`. -/
def lastBeat (rxs : List Nat) : Nat := rxs.length + 2

/-- One transport call of the frame being sent and the block's reaction to its answer (R27(d)). A failure
ends the request (R268, R270). The closing `CS(0)` ends the frame: `done`, then the lines that follow.
Before it, `got` takes what the call brought. -/
def playFrame (tx : List Byte) (rxs : List Nat) (got : Call → List Byte → State → State)
    (done : State → State) (s : State) : Result :=
  match s.seq with
  | .idle => .refused .notRunning
  | .running r =>
    let call := frameCall s.config.csLine.val tx rxs r.beat
    let s1 := s.called call
    if r.beat < lastBeat rxs then
      .next (match s.answer call with
        | .fail => s1.raise r.req .transportFailure
        | .ok bytes => { got call bytes s1 with seq := .running { r with beat := r.beat + 1 } })
    else
      match s.answer call with
      | .fail => .next (s1.raise r.req .transportFailure)
      | .ok _ => settle r.req r.rest (done s1)

/-- Nothing to take from a call. -/
def keepNothing (_ : Call) (_ : List Byte) (s : State) : State := s

/-- `r <- RxOnly(n)` (R12). -/
def keepRx (call : Call) (bytes : List Byte) (s : State) : State :=
  match call with
  | .readOnly _ => { s with work := { s.work with rx := bytes } }
  | .chipSelect .. => s
  | .writeOnly _ => s

/-- `Cmd0(op)` (R12, format C0 of R85). -/
def cmd0 (op : Byte) (s : State) : Result := playFrame [op] [] keepNothing id s

/-- `Cmd1(op, d)` (R12, format C1 of R86). -/
def cmd1 (op d : Byte) (s : State) : Result := playFrame [op, d] [] keepNothing id s

/-- `CmdRd(op, n)` (R12, format R of R87); `done` assigns the bytes received. -/
def cmdRd (op : Byte) (n : Nat) (done : State → State) (s : State) : Result :=
  playFrame [op] [n] keepRx done s

/-- A frame whose bytes depend on `CFG.ADDR_WIDTH` (R102). -/
def withWidth (s : State) (k : AddrWidth → Result) : Result :=
  match s.cfg with
  | some f => k f.addrWidth
  | none => .fault .cfgAbsent

/-- `CmdA(op, a)` (R12, format A of R88). -/
def cmdA (op : Byte) (a : Word) (s : State) : Result :=
  withWidth s fun w => playFrame (op :: addrBytes w a) [] keepNothing id s

/-- `CmdAD(op, a, data)` (R12, formats AD of R89 and AAI-F of R90). -/
def cmdAD (op : Byte) (a : Word) (data : List Byte) (s : State) : Result :=
  withWidth s fun w => playFrame (op :: (addrBytes w a ++ data)) [] keepNothing id s

/-! ### The phase of an addressed request -/

/-- The phases of R170(a). -/
inductive Phase where
  | enter
  | body
  | exit
deriving DecidableEq, Repr

/-- The lines with which the body of an addressed request begins. -/
def Task.beginsBody : Task → Bool
  | .eraseBegin .. | .pageBegin .. | .aaiBegin .. => true
  | .send f => match f with
    | .readFrame .. => true
    | .probe | .getsize | .read .. | .erase .. | .chiperase | .write .. | .reserved67 _ => false
    | .rdid | .wren | .wrdi | .rdsr | .wrsr _ | .en4b | .ex4b | .brwr _ | .exhb | .wrear _ => false
    | .se4k _ | .se4kPmc _ | .be32k _ | .be64k _ | .ce | .pp .. | .aaiFirst .. | .aaiNext .. => false
  | .identify | .clearBp _ | .commit _ | .pollTest _ | .setMode _ | .eraseNext _ | .pageNext _ => false
  | .aaiLead | .aaiLoop | .aaiNext | .aaiTail => false

/-- The phase of an addressed request: before its body, in it, or past the call of `SetAddressMode(0)`
(R170(a), R184). -/
def Running.phase (r : Running) : Phase :=
  if r.rest.any Task.beginsBody then .enter
  else if r.rest.contains (.setMode false) then .body
  else .exit

end Sys2Proof.Machine
end

