-- ==== Sys2Proof/Machine/AddrMode.lean ====
section
/-! DEFINITION. `42_address_mode.md`: the frames `EN4B`, `EX4B`, `BRWR`, `EXHB`, `WREAR`. The sequence
`SetAddressMode` that sends them is in `Identity.lean` (its frames) and `Sequencer.lean` (its line). -/

namespace Sys2Proof.Machine

/-- Frame `EN4B` (R174). -/
def execEn4b (s : State) : Result := cmd0 s.config.op.en4b s

/-- Frame `EX4B` (R175). -/
def execEx4b (s : State) : Result := cmd0 s.config.op.ex4b s

/-- Frame `BRWR` (R176). -/
def execBrwr (d : Byte) (s : State) : Result := cmd1 s.config.op.brwr d s

/-- Frame `EXHB` (R177). -/
def execExhb (s : State) : Result := cmd0 s.config.op.exhb s

/-- Frame `WREAR` (R178). -/
def execWrear (d : Byte) (s : State) : Result := cmd1 s.config.op.wrear d s

end Sys2Proof.Machine
end

