-- ==== Sys2Proof/Machine/Erase.lean ====
section
/-! DEFINITION. `43_erase.md`: the host requests `ERASE` and `CHIPERASE` and the frames `SE4K`, `SE4K_PMC`,
`BE32K`, `BE64K`, `CE`. The sector loop is in `Sequencer.lean`. -/

namespace Sys2Proof.Machine

/-- `ERASE addr, len` (R191): `NotProbed`, then `Unaligned`, then `OutOfRange` (R261), then the bracketed
sector loop. -/
def execErase (addr len : Word) (s : State) : Result :=
  accept s fun s =>
    withProbed (.erase addr len) s fun f d =>
      if misaligned f.eraseGran addr len then .next (s.raise (.erase addr len) .unaligned)
      else if d.capacity.toNat < addr.toNat ∨ d.capacity.toNat < spanEnd addr len.toNat then
        .next (s.raise (.erase addr len) .outOfRange)
      else settle (.erase addr len) [.setMode true, .eraseBegin addr len, .setMode false] s

/-- `CHIPERASE` (R195): no alignment or range check, no address mode, no progress. -/
def execChiperase (s : State) : Result :=
  accept s fun s =>
    if s.probed then settle .chiperase (.send .wren :: .send .ce :: polled []) s
    else .next (s.raise .chiperase .notProbed)

/-- Frame `SE4K` (R193). -/
def execSe4k (a : Word) (s : State) : Result := cmdA s.config.op.se4k a s

/-- Frame `SE4K_PMC` (R193). -/
def execSe4kPmc (a : Word) (s : State) : Result := cmdA s.config.op.se4kPmc a s

/-- Frame `BE32K` (R193). -/
def execBe32k (a : Word) (s : State) : Result := cmdA s.config.op.be32k a s

/-- Frame `BE64K` (R193). -/
def execBe64k (a : Word) (s : State) : Result := cmdA s.config.op.be64k a s

/-- Frame `CE` (R196). -/
def execCe (s : State) : Result := cmd0 s.config.op.ce s

end Sys2Proof.Machine
end

