-- ==== Sys2Proof/Machine/Probe.lean ====
section
/-! DEFINITION. `40_probe_identity.md`: the host requests `PROBE` and `GETSIZE`, the frame `RDID`, and the
reserved operation codes of `30_encoding.md` R100. -/

namespace Sys2Proof.Machine

/-- `PROBE` (R120). A probed block returns `Ok` at once, without a transport call (R132). -/
def execProbe (s : State) : Result :=
  accept s fun s =>
    if s.probed then .next (s.returnOk .probe)
    else settle .probe [.send .rdid, .identify] s

/-- `GETSIZE` (R131): no transport call; the capacity of the probed descriptor. -/
def execGetsize (s : State) : Result :=
  accept s fun s =>
    withProbed .getsize s fun _ d => .next (s.respond .ok (some d.capacity) none)

/-- Operation codes 6 and 7: refused by the block, not accepted. It "holds `req_ready` and ignores them"
(R100): no response, no transport call, no change (log entry 10). -/
def execReserved67 (_seven : Bool) (s : State) : Result := .next s

/-- Frame `RDID` (R121): five bytes into `ID`. -/
def execRdid (s : State) : Result :=
  cmdRd s.config.op.rdid s.config.fixed.idLen
    (fun s => { s with work := { s.work with id := IdBytes.ofList s.work.rx } }) s

end Sys2Proof.Machine
end

