-- ==== Sys2Proof/Machine/Program.lean ====
section
/-! DEFINITION. `44_program.md`: the host request `WRITE` and the frames `PP`, `AAI` (first) and `AAI`
(next). The chunk loop and the burst loop are in `Sequencer.lean`. -/

namespace Sys2Proof.Machine

/-- The lines of `WritePages` (R211). -/
def writePages (addr len : Word) : List Task := [.setMode true, .pageBegin addr len, .setMode false]

/-- The lines of `WriteAAI` (R216): the leading byte, `WREN` once, the bursts, `WRDI` and a poll, the
trailing byte. -/
def writeAAI (addr len : Word) : List Task :=
  [.setMode true, .aaiBegin addr len, .send .wren, .aaiLoop, .send .wrdi] ++
  polled [.aaiTail, .setMode false]

/-- `WRITE addr, data` (R210): `NotProbed`, then `OutOfRange`, then the strategy `CFG.AAI` selects. There is
no alignment error. -/
def execWrite (addr : Word) (data : List Byte) (s : State) : Result :=
  accept s fun s =>
    withProbed (.write addr data) s fun f d =>
      if d.capacity.toNat < spanEnd addr data.length then .next (s.raise (.write addr data) .outOfRange)
      else
        settle (.write addr data)
          (if f.aai then writeAAI addr (BitVec.ofNat 32 data.length)
           else writePages addr (BitVec.ofNat 32 data.length)) s

/-- Frame `PP` (R213). -/
def execPp (a : Word) (d : List Byte) (s : State) : Result := cmdAD s.config.op.pp a d s

/-- Frame `AAI`, first of a sequence (R218). -/
def execAaiFirst (a : Word) (d0 d1 : Byte) (s : State) : Result := cmdAD s.config.op.aai a [d0, d1] s

/-- Frame `AAI`, later in a sequence (R219): no address. -/
def execAaiNext (d0 d1 : Byte) (s : State) : Result :=
  playFrame [s.config.op.aai, d0, d1] [] keepNothing id s

end Sys2Proof.Machine
end

