-- ==== Sys2Proof/Machine/Read.lean ====
section
/-! DEFINITION. `45_read_facade.md`: the host request `READ` and the frame `READ`. -/

namespace Sys2Proof.Machine

/-- `READ addr, len` (R241): `NotProbed`, then `OutOfRange`, then one bracketed `READ` frame. There is no
poll. -/
def execRead (addr len : Word) (s : State) : Result :=
  accept s fun s =>
    withProbed (.read addr len) s fun _ d =>
      if d.capacity.toNat < spanEnd addr len.toNat then .next (s.raise (.read addr len) .outOfRange)
      else settle (.read addr len) [.setMode true, .send (.readFrame addr len), .setMode false] s

/-- What a call of the `READ` frame brings: after the address, `A` at the address, `P <- 0; N <- len` and an empty
output vector; after each `RxOnly`, the bytes go to the output vector, `A` and `P` advance by their number (R28) and
the progress is reported (R241, R244, R247; log entry 14). -/
def keepOut (addr len : Word) (call : Call) (bytes : List Byte) (s : State) : State :=
  match call with
  | .chipSelect .. => s
  | .writeOnly _ => { s with work := { s.work with a := addr, p := 0, n := len, out := [] } }
  | .readOnly n =>
    let c : Word := BitVec.ofNat 32 n
    let s1 : State :=
      { s with work := { s.work with
          out := s.work.out ++ bytes, a := s.work.a + c, p := s.work.p + c, n := s.work.n - c } }
    s1.progress s1.work.p.toNat len.toNat

/-- Frame `READ` (R242, format AR of R92): the address once, then `len` bytes in calls of at most 4096, with
chip select asserted across all of them (R244). -/
def execReadFrame (a len : Word) (s : State) : Result :=
  withWidth s fun w =>
    playFrame (s.config.op.read :: addrBytes w a) (readChunks s.config.fixed.readChunk len.toNat) (keepOut a len) id s

end Sys2Proof.Machine
end

