-- ==== Sys2Proof/Machine/StatusFrames.lean ====
section
/-! DEFINITION. `41_status_controller.md`: the frames `WREN`, `WRDI`, `RDSR`, `WRSR`. -/

namespace Sys2Proof.Machine

/-- Frame `WREN` (R150). -/
def execWren (s : State) : Result := cmd0 s.config.op.wren s

/-- Frame `WRDI` (R151). -/
def execWrdi (s : State) : Result := cmd0 s.config.op.wrdi s

/-- Frame `RDSR` (R152): one status byte into `SR`. -/
def execRdsr (s : State) : Result :=
  cmdRd s.config.op.rdsr 1 (fun s => { s with work := { s.work with sr := s.work.rx.headD 0 } }) s

/-- Frame `WRSR` (R153). -/
def execWrsr (d : Byte) (s : State) : Result := cmd1 s.config.op.wrsr d s

end Sys2Proof.Machine
end

