-- ==== Sys2Proof/Machine/Dispatch.lean ====
section
/-! DEFINITION. One arm per instruction, each one call of its meaning. -/

namespace Sys2Proof.Machine

-- the facade's dispatch of the six host requests (R240), and the eighteen frames (R84)
def exec (i : Instr) (s : State) : Host.Outcome State Fault Refusal :=
  match i with
  | .probe => Sys2Proof.Machine.execProbe s
  | .getsize => Sys2Proof.Machine.execGetsize s
  | .read addr len => Sys2Proof.Machine.execRead addr len s
  | .erase addr len => Sys2Proof.Machine.execErase addr len s
  | .chiperase => Sys2Proof.Machine.execChiperase s
  | .write addr data => Sys2Proof.Machine.execWrite addr data s
  | .reserved67 seven => Sys2Proof.Machine.execReserved67 seven s
  | .rdid => Sys2Proof.Machine.execRdid s
  | .wren => Sys2Proof.Machine.execWren s
  | .wrdi => Sys2Proof.Machine.execWrdi s
  | .rdsr => Sys2Proof.Machine.execRdsr s
  | .wrsr d => Sys2Proof.Machine.execWrsr d s
  | .en4b => Sys2Proof.Machine.execEn4b s
  | .ex4b => Sys2Proof.Machine.execEx4b s
  | .brwr d => Sys2Proof.Machine.execBrwr d s
  | .exhb => Sys2Proof.Machine.execExhb s
  | .wrear d => Sys2Proof.Machine.execWrear d s
  | .se4k a => Sys2Proof.Machine.execSe4k a s
  | .se4kPmc a => Sys2Proof.Machine.execSe4kPmc a s
  | .be32k a => Sys2Proof.Machine.execBe32k a s
  | .be64k a => Sys2Proof.Machine.execBe64k a s
  | .ce => Sys2Proof.Machine.execCe s
  | .pp a d => Sys2Proof.Machine.execPp a d s
  | .aaiFirst a d0 d1 => Sys2Proof.Machine.execAaiFirst a d0 d1 s
  | .aaiNext d0 d1 => Sys2Proof.Machine.execAaiNext d0 d1 s
  | .readFrame a len => Sys2Proof.Machine.execReadFrame a len s

end Sys2Proof.Machine
end

