-- ==== Sys2Proof/Machine/Step.lean ====
section
/-! DEFINITION. One step of the machine (`10_state.md` R27): the reset event if the host asserts it (R302), a
wait if there is nothing to do (R303), the acceptance of a request, or one transport call of the running
request with the block's reaction to its answer. -/

namespace Sys2Proof.Machine

def step (s : State) : Host.Outcome State Fault Refusal :=
  if s.resetPin then .next s.onReset
  else if configRuns s.config then
    match s.fetch with
    | .wait => .next s
    | .run i s' => exec i s'
    | .bad => .refused .badRecord
  else .refused .badConfig

/-- The instruction of a word of the opcode table, placed where the next step takes it from. -/
def State.withFetchWord (s : State) (nbits w : Nat) : State :=
  match decodeTableWord nbits w with
  | some i => s.place Config.default i
  | none => s

end Sys2Proof.Machine
end

