-- ==== Sys2Proof/Safety.lean ====
section
/-! DEFINITION. The words the claims are made in: the invariant of the machine (`10_state.md` R21 to R23, R27;
`20_memory.md` R50), the transport calls a run makes, and the frames a request sends when nothing fails and
every poll finds the device ready (R171, R191, R211, R216, R241). -/

namespace Sys2Proof.Machine

/-! ### The invariant -/

/-- `CFG` has a value exactly when `PROBED = 1`, and then it is what `Derive` gives for the descriptor it
refers to (R22, R23). -/
def State.cfgOk (s : State) : Bool :=
  match s.cfg with
  | none => !s.probed
  | some f =>
    match s.config.identityTable[f.desc]? with
    | none => false
    | some d => s.probed && decide (f = derive s.config f.desc d)

/-- A frame the sequencer may be sending: it is a frame, and an addressed one runs in a probed block only. -/
def frameOk (probed : Bool) (f : Instr) : Bool := !f.isHost && (!f.addressed || probed)

/-- Lines that may follow, by whether the block is probed: the lines of `PROBE` while it is not, with the
commit at the very end (R129), the lines of the other requests while it is (R260). -/
def restOk (tableLen : Nat) (probed : Bool) : List Task → Bool
  | [] => true
  | .send f :: ts => frameOk probed f && restOk tableLen probed ts
  | .identify :: ts => !probed && ts.isEmpty
  | .commit i :: ts => !probed && decide (i < tableLen) && ts.isEmpty
  | .clearBp _ :: ts => !probed && restOk tableLen probed ts
  | .pollTest _ :: ts => restOk tableLen probed ts
  | .setMode _ :: ts => probed && restOk tableLen probed ts
  | .eraseBegin _ _ :: ts => probed && restOk tableLen probed ts
  | .eraseNext _ :: ts => probed && restOk tableLen probed ts
  | .pageBegin _ _ :: ts => probed && restOk tableLen probed ts
  | .pageNext _ :: ts => probed && restOk tableLen probed ts
  | .aaiBegin _ _ :: ts => probed && restOk tableLen probed ts
  | .aaiLead :: ts => probed && restOk tableLen probed ts
  | .aaiLoop :: ts => probed && restOk tableLen probed ts
  | .aaiNext :: ts => probed && restOk tableLen probed ts
  | .aaiTail :: ts => probed && restOk tableLen probed ts

/-- The sequencer's position is one a request can be in: a host request runs, `PROBE` exactly while the block
is not probed (R132, R260), and its frame and the lines that follow fit. -/
def State.seqOk (s : State) : Bool :=
  match s.seq with
  | .idle => true
  | .running r =>
    r.req.isHost && (decide (r.req = .probe) == !s.probed) && frameOk s.probed r.frame &&
    restOk s.config.identityTable.length s.probed r.rest

/-- The invariant every step keeps. -/
def State.inv (s : State) : Bool := s.cfgOk && s.seqOk && Memory.wf s.env.dev.mem

/-! ### Runs -/

/-- The transport calls among some events, in order (R66). -/
def callsOf : List Event → List Call
  | [] => []
  | .call c _ :: es => c :: callsOf es
  | .progress _ :: es => callsOf es
  | .report _ _ _ :: es => callsOf es
  | .response _ :: es => callsOf es

/-- The width an instruction is written with in a state. -/
def State.width (s : State) : AddrWidth :=
  match s.cfg with
  | some f => f.addrWidth
  | none => .three

/-- How the `n` bytes a frame receives are taken: a `READ` in calls of at most `READ_CHUNK` (R244), a register
read in one call (R87); the other frames receive nothing. -/
def rxCalls (c : Config) (i : Instr) (n : Nat) : List Nat :=
  match i with
  | .readFrame .. => readChunks c.fixed.readChunk n
  | .rdid | .rdsr => [n]
  | .wren | .wrdi | .wrsr _ | .en4b | .ex4b | .brwr _ | .exhb | .wrear _ => []
  | .se4k _ | .se4kPmc _ | .be32k _ | .be64k _ | .ce | .pp .. | .aaiFirst .. | .aaiNext .. => []
  | .probe | .getsize | .read .. | .erase .. | .chiperase | .write .. | .reserved67 _ => []

/-- The transport calls of a frame, from its encoding (R12, R85 to R92, R244). -/
def frameCalls (c : Config) (w : AddrWidth) (i : Instr) : List Call :=
  match encode c w i with
  | .host _ => []
  | .frame f =>
    [.chipSelect c.csLine.val true, .writeOnly f.tx] ++ (rxCalls c i f.rx).map .readOnly ++
    [.chipSelect c.csLine.val false]

/-- The transport calls of some frames, one after the other. -/
def framesCalls (c : Config) (w : AddrWidth) (fs : List Instr) : List Call := fs.flatMap (frameCalls c w)

/-- The percentages reported among some events, in order (R247). -/
def progressOf : List Event → List Nat
  | [] => []
  | .progress p :: es => p :: progressOf es
  | .call _ _ :: es => progressOf es
  | .report _ _ _ :: es => progressOf es
  | .response _ :: es => progressOf es

/-- `n` steps, stopping at the first fault or refusal. -/
def run : Nat → State → Result
  | 0, s => .next s
  | n + 1, s =>
    match step s with
    | .next t => run n t
    | .fault r => .fault r
    | .refused r => .refused r

/-- The answers to the next calls, one for each. -/
def State.hears (s : State) (answers : List Scripted) : Prop := s.env.script.take answers.length = answers

/-- The next `n` calls succeed, and each status byte read is 0: every poll finds the device ready. -/
def State.quiet (s : State) (n : Nat) : Prop := s.hears (List.replicate n (.reply [0]))

/-- The answers to a frame that receives nothing: its three calls succeed (R85). -/
def silent : List Scripted := [.reply [], .reply [], .reply []]

/-- The answers to a register read that brings these bytes: its four calls succeed (R87). -/
def reading (bytes : List Byte) : List Scripted := [.reply [], .reply [], .reply bytes, .reply []]

/-- Nothing of the block's own registers and ports differs (R14). -/
def State.sameBlock (s t : State) : Prop :=
  t.config = s.config ∧ t.probed = s.probed ∧ t.cfg = s.cfg ∧ t.work = s.work ∧ t.resp = s.resp ∧
  t.host = s.host ∧ t.resetPin = s.resetPin

/-- What a request other than the first successful `PROBE` leaves alone: the parameters (R305), `PROBED` and `CFG`
(R21, R22), and the reset input. -/
def State.sameSetup (s t : State) : Prop :=
  t.config = s.config ∧ t.probed = s.probed ∧ t.cfg = s.cfg ∧ t.resetPin = s.resetPin

/-- The machine steps on the frame `i` of a request, about to make its first call. -/
def State.atFrame (s : State) (req i : Instr) (rest : List Task) : Prop :=
  s.resetPin = false ∧ configRuns s.config = true ∧ s.seq = .running ⟨req, i, 0, rest⟩ ∧ i.isHost = false ∧
  (i.addressed = true → s.cfg.isSome = true)

/-- The phases of R170(a) in the order they come. -/
def Phase.rank : Phase → Nat
  | .enter => 0
  | .body => 1
  | .exit => 2

/-- The machine is about to take the host's next request, `i`. -/
def State.presents (s : State) (i : Instr) : Prop :=
  s.resetPin = false ∧ configRuns s.config = true ∧ s.seq = .idle ∧
  ∃ r more, s.host = r :: more ∧ decodeHost r = .ok i

/-! ### The frames of a request -/

/-- The frames of the sector loop (R191, R193). -/
def eraseFrames (c : Config) (f : FlashConfig) (addr len : Word) : List Instr :=
  (List.range (len.toNat / f.eraseGran.toNat)).flatMap fun k =>
    [.wren, eraseFrame c f (addr + BitVec.ofNat 32 (k * f.eraseGran.toNat)), .rdsr]

/-- The frames of the chunk loop for the data from `addr` on, with fuel for the number of chunks (R211,
R214). -/
def pageFrames (pageSize : Nat) : Nat → Word → List Byte → List Instr
  | 0, _, _ => []
  | _ + 1, _, [] => []
  | fuel + 1, a, v :: vs =>
    let c := min (vs.length + 1) (pageSize - a.toNat % pageSize)
    [.wren, .pp a ((v :: vs).take c), .rdsr] ++
    pageFrames pageSize fuel (a + BitVec.ofNat 32 c) ((v :: vs).drop c)

/-- One single-byte program (R217). -/
def byteFrames (a : Word) (v : Byte) : List Instr := [.wren, .pp a [v], .rdsr]

/-- The bursts, and then the end of the burst phase and the trailing byte if one is left (R216). -/
def burstFrames (first : Bool) (a : Word) : List Byte → List Instr
  | d0 :: d1 :: ds =>
    [if first then .aaiFirst a d0 d1 else .aaiNext d0 d1, .rdsr] ++ burstFrames false (a + 2) ds
  | [v] => [.wrdi, .rdsr] ++ byteFrames a v
  | [] => [.wrdi, .rdsr]

/-- The frames of `WriteAAI` between the two calls of `SetAddressMode` (R216). -/
def aaiFrames (addr : Word) (data : List Byte) : List Instr :=
  match data with
  | v :: vs =>
    if addr.toNat % 2 = 1 then byteFrames addr v ++ [.wren] ++ burstFrames true (addr + 1) vs
    else .wren :: burstFrames true addr (v :: vs)
  | [] => .wren :: burstFrames true addr []

/-- The bracket of an addressed request around its body (R184). -/
def bracketed (c : Config) (f : FlashConfig) (d : Descriptor) (body : List Instr) : List Instr :=
  setModeFrames c f.addrWidth d.jedecId true ++ body ++ setModeFrames c f.addrWidth d.jedecId false

/-- The bytes that some frames program, in the order sent (R221). -/
def dataOf : List Instr → List Byte
  | [] => []
  | .pp _ d :: is => d ++ dataOf is
  | .aaiFirst _ d0 d1 :: is => d0 :: d1 :: dataOf is
  | .aaiNext d0 d1 :: is => d0 :: d1 :: dataOf is
  | _ :: is => dataOf is

/-- The page programs among some frames: address and data of each `PP` (R213). -/
def programsOf : List Instr → List (Word × List Byte)
  | [] => []
  | .pp a d :: is => (a, d) :: programsOf is
  | _ :: is => programsOf is

/-- A frame of an auto-increment sequence (R218, R219). -/
def isBurst : Instr → Bool
  | .aaiFirst .. | .aaiNext .. => true
  | _ => false

/-- The sums of the first one, two, … of some counts. -/
def runningTotals (from0 : Nat) : List Nat → List Nat
  | [] => []
  | n :: ns => (from0 + n) :: runningTotals (from0 + n) ns

/-- Data cut into pieces of these lengths. -/
def pieces : List Nat → List Byte → List (List Byte)
  | [], _ => []
  | n :: ns, data => data.take n :: pieces ns (data.drop n)

/-- The accepted request `req` stands before the first of these frames, or, when there is none, has returned
`Ok`. -/
def State.begun (t : State) (req : Instr) : List Instr → Prop
  | [] => t.seq = .idle ∧ t.resp.map Response.status = some .ok
  | f :: _ => ∃ rest, t.seq = .running ⟨req, f, 0, rest⟩

/-- `x` is in the region of `g` bytes that holds `a` (R74). -/
def Device.inRegion (d : Device) (g : Nat) (a : Word) (x : Nat) : Bool :=
  decide (d.regionStart g a ≤ x) && decide (x < d.regionStart g a + g)

/-- Whether the reference device, on the complete frame `i`, stores to the address `x` of its array (R74). -/
def Device.stores (c : Config) (d : Device) (i : Instr) (x : Nat) : Bool :=
  match i with
  | .se4k a => d.inRegion 4096 a x
  | .se4kPmc a => d.inRegion 4096 a x
  | .be32k a => d.inRegion 32768 a x
  | .be64k a => d.inRegion d.be64kSize a x
  | .ce => true
  | .pp a v => (List.range v.length).any fun k => x == pageTarget c.pageSize (d.phys a) k % d.cap
  | .aaiFirst a _ _ => x == d.phys a % d.cap || x == (d.phys a + 1) % d.cap
  | .aaiNext _ _ => x == d.aaiAddr.toNat % d.cap || x == (d.aaiAddr.toNat + 1) % d.cap
  | .rdid | .wren | .wrdi | .rdsr | .wrsr _ | .en4b | .ex4b | .brwr _ | .exhb | .wrear _ | .readFrame .. => false
  | .probe | .getsize | .read .. | .erase .. | .chiperase | .write .. | .reserved67 _ => false

end Sys2Proof.Machine
end

