-- ==== Sys2Proof/Certificates/Slice0/Obligations.lean ====
section
/-! DEFINITION. The statements for the provers. Each says which rule of the spec it formalises, or which
sections it rests on. All of them hold for every configuration the state may carry and for every answer of the
transport, unless the answers are named. -/

open Sys2Proof Sys2Proof.Machine

/-! ### Reset and the step -/

/-- R300, R301, R302: after reset `PROBED = 0`, no `CFG`, `IDLE`, nothing pending, and the reset event gives the same in
every state, whatever was running: no response, no transport call, the transport and the device as they were;
afterwards the block only waits (R303), and the parameters stay (R305). That reset is sampled at the start of a step,
so that the next step is the reset event, and that the requests the host has still to present stay presented, are
the model's choices, log entry 19. -/
def Obligations.ResetAbandonsAndForgetsEverything : Prop :=
  (State.reset.probed = false ∧ State.reset.cfg = none ∧ State.reset.seq = .idle ∧ State.reset.resp = none) ∧
  ∀ s : State, s.resetPin = true →
    ∃ t, step s = .next t ∧ t.probed = false ∧ t.cfg = none ∧ t.seq = .idle ∧ t.resp = none ∧
      t.trace = s.trace ∧ t.env = s.env ∧ t.host = s.host ∧ t.config = s.config ∧
      (configRuns t.config = true → t.host = [] → step t = .next t)

/-- The invariant of `StepKeepsTheInvariant` holds at reset, with a configuration the step runs (log entry 4 chooses it). -/
def Obligations.ResetMeetsTheInvariant : Prop :=
  State.reset.inv = true ∧ configRuns State.reset.config = true ∧ State.reset.config.wf = true

/-- R27, R82, R302: a step is the reset event, a wait, or `exec` of the frame being sent or of the request that
the presented record encodes, which leaves the port. Five points are the model's choices: that a record of the
reserved codes 6 and 7 leaves the port too (log entry 10; R100 has them ignored); the refusal of a record
whose data has the wrong length (log entry 11); the refusal of a configuration with `PAGE_SIZE` 0 or other fixed
numbers than the source's (entry 15; R25(a) to (c) are the spec's own refusal); that reset is sampled at the start
of a step (entry 19); and the zeroed working registers inside `onReset` (entry 6). -/
def Obligations.StepRunsTheNextInstruction : Prop :=
  (∀ s : State, s.resetPin = true → step s = .next s.onReset) ∧
  (∀ s : State, s.resetPin = false → configRuns s.config = false → step s = .refused .badConfig) ∧
  (∀ s : State, s.resetPin = false → configRuns s.config = true →
    (∀ r, s.seq = .running r → step s = exec r.frame s) ∧
    (s.seq = .idle → s.host = [] → step s = .next s) ∧
    (s.seq = .idle → ∀ q more, s.host = q :: more →
      (∀ i, decodeHost q = .ok i → step s = exec i { s with host := more }) ∧
      (∀ e, decodeHost q = .reject e → step s = .refused .badRecord) ∧
      (∀ w i, i.wf s.config = true → encode s.config w i = .host q → step s = exec i { s with host := more })))

/-! ### Encodings -/

/-- Words written out from R85 to R92 with the default opcode bytes of R95 read as the frames they stand for. -/
def Obligations.WordsFromTheSpecDecode : Prop :=
  decodeFrame Config.default .three ⟨[0x06], 0⟩ = .ok .wren ∧
  decodeFrame Config.default .three ⟨[0x9F], 5⟩ = .ok .rdid ∧
  decodeFrame Config.default .three ⟨[0x05], 1⟩ = .ok .rdsr ∧
  decodeFrame Config.default .three ⟨[0x01, 0x00], 0⟩ = .ok (.wrsr 0x00) ∧
  decodeFrame Config.default .four ⟨[0x17, 0x80], 0⟩ = .ok (.brwr 0x80) ∧
  decodeFrame Config.default .four ⟨[0xD8, 0x01, 0xFF, 0x00, 0x00], 0⟩ = .ok (.be64k 0x01FF0000) ∧
  decodeFrame Config.default .three ⟨[0x02, 0x00, 0x10, 0xFE, 0x11, 0x22], 0⟩ = .ok (.pp 0x10FE [0x11, 0x22]) ∧
  decodeFrame Config.default .three ⟨[0xAD, 0x00, 0x00, 0x02, 0xA2, 0xA3], 0⟩ = .ok (.aaiFirst 2 0xA2 0xA3) ∧
  decodeFrame Config.default .three ⟨[0xAD, 0xA4, 0xA5], 0⟩ = .ok (.aaiNext 0xA4 0xA5) ∧
  decodeFrame Config.default .three ⟨[0x03, 0x00, 0x10, 0x00], 2⟩ = .ok (.readFrame 0x1000 2)

/-- R81, R100, with R80's "ignored by the others": the eight operation codes, whatever the other fields hold. That
a `WRITE` record whose data is not `len` bytes is rejected is R80 as log entry 11 reads it (the model's choice). -/
def Obligations.OperationCodesDecode : Prop :=
  ∀ (addr len : Word) (data : List Byte),
    decodeHost ⟨0, addr, len, data⟩ = .ok .probe ∧
    decodeHost ⟨1, addr, len, data⟩ = .ok .getsize ∧
    decodeHost ⟨2, addr, len, data⟩ = .ok (.read addr len) ∧
    decodeHost ⟨3, addr, len, data⟩ = .ok (.erase addr len) ∧
    decodeHost ⟨4, addr, len, data⟩ = .ok .chiperase ∧
    (data.length = len.toNat → decodeHost ⟨5, addr, len, data⟩ = .ok (.write addr data)) ∧
    (data.length ≠ len.toNat → decodeHost ⟨5, addr, len, data⟩ = .reject .dataLength) ∧
    decodeHost ⟨6, addr, len, data⟩ = .ok (.reserved67 false) ∧
    decodeHost ⟨7, addr, len, data⟩ = .ok (.reserved67 true)

/-- R80, R81, R84 to R92: with different opcode bytes, every well-formed instruction whose address fits the
address field is read back from its written form. -/
def Obligations.DecodeOfEncodeIsTheInstruction : Prop :=
  ∀ (c : Config) (w : AddrWidth) (i : Instr),
    c.op.distinct = true → i.wf c = true → i.fits w = true → decode c w (encode c w i) = .ok i

/-- R85 to R92: a frame that is read as an instruction is that instruction's written form, so no two frames have
the same reading; and a first byte that is no opcode parameter has none. -/
def Obligations.FrameHasOneReading : Prop :=
  (∀ (c : Config) (w : AddrWidth) (f : FrameWord) (i : Instr),
    decodeFrame c w f = .ok i → encode c w i = .frame f ∧ i.isHost = false) ∧
  (∀ (c : Config) (w : AddrWidth) (f : FrameWord) (b : Byte),
    f.tx.head? = some b → b ∉ c.op.all → decodeFrame c w f = .reject .unknownOpcode)

/-- R55: most significant byte first; width 3 drops bits 31:24 and nothing else. -/
def Obligations.AddressBytesAreMostSignificantFirst : Prop :=
  ∀ (a : Word) (rest : List Byte),
    (addrBytes .four a).length = 4 ∧ (addrBytes .three a).length = 3 ∧
    takeAddr .four (addrBytes .four a ++ rest) = some (a, rest) ∧
    takeAddr .three (addrBytes .three a ++ rest) = some (a &&& 0x00FFFFFF, rest) ∧
    (∀ b3 b2 b1 b0 : Byte, addrBytes .four (b3 ++ b2 ++ b1 ++ b0) = [b3, b2, b1, b0] ∧
      addrBytes .three (b3 ++ b2 ++ b1 ++ b0) = [b2, b1, b0])

/-! ### The whole machine -/

/-- R21 to R23, R27, and the canonical form of the flash array: every step keeps the invariant. -/
def Obligations.StepKeepsTheInvariant : Prop :=
  ∀ s t : State, s.inv = true → step s = .next t → t.inv = true

/-- U13: no rule reads a `CFG` that has no value. In the invariant a step always answers a next state, unless the
configuration or the record presented is refused. -/
def Obligations.InvariantStatesNeverFault : Prop :=
  ∀ s : State, s.inv = true →
    (s.resetPin = true ∨ configRuns s.config = true ∧
      (s.seq = .idle → ∀ q more, s.host = q :: more → ∃ i, decodeHost q = .ok i)) →
    ∃ t, step s = .next t

/-- R305. -/
def Obligations.ParametersNeverChange : Prop :=
  ∀ s t : State, step s = .next t → t.config = s.config

/-- R22: `CFG` has a value exactly when `PROBED = 1`; once it has, it stays until reset; it is written at the
step at which `PROBED` becomes 1. -/
def Obligations.ConfigIsValidExactlyWhenProbed : Prop :=
  ∀ s t : State, s.inv = true → step s = .next t →
    (s.cfg.isSome = s.probed ∧ t.cfg.isSome = t.probed) ∧
    (s.probed = true → s.resetPin = false → t.cfg = s.cfg) ∧
    (t.cfg ≠ s.cfg → t.probed ≠ s.probed)

/-- R21: `PROBED` becomes 1 only at the end of a `PROBE` that returns `Ok`, and returns to 0 only by reset. -/
def Obligations.ProbedIsSetByProbeAndClearedByReset : Prop :=
  ∀ s t : State, s.inv = true → step s = .next t →
    (s.probed = true → t.probed = false → s.resetPin = true) ∧
    (s.probed = false → t.probed = true →
      ∃ r z, s.seq = .running r ∧ r.req = .probe ∧ t.seq = .idle ∧ t.resp = some ⟨.ok, z, none⟩)

/-- R27(d), R66: a step of a running request makes exactly one transport call, whose answer the history records,
and the other steps make none; nothing is ever taken out of the history. What a failing call leaves of an attached
device (`State.envAfter`) is the model's choice, log entry 24 (U7, U8). -/
def Obligations.OneTransportCallPerRunningStep : Prop :=
  ∀ s t : State, s.inv = true → step s = .next t →
    ∃ more, t.trace = s.trace ++ more ∧
      (s.resetPin = true ∨ s.seq = .idle →
        callsOf more = [] ∧ t.env.cs = s.env.cs ∧ t.env.script = s.env.script ∧ t.env.dev = s.env.dev) ∧
      (∀ r, s.resetPin = false → s.seq = .running r →
        ∃ call after, more = .call call (s.answer call) :: after ∧ callsOf after = [] ∧
          t.env.cs = (s.envAfter call).cs ∧ t.env.script = s.env.script.tail ∧
          t.env.dev = (s.envAfter call).dev)

/-- R27(b), (c), R82, U10: while a request runs the port is left alone and a second request is refused; in `IDLE` at
most the next one leaves the port. -/
def Obligations.RunningBlockAcceptsNothing : Prop :=
  (∀ s t : State, s.inv = true → step s = .next t →
    (∀ r, s.seq = .running r → t.host = s.host) ∧ (t.host = s.host ∨ s.seq = .idle ∧ t.host = s.host.tail)) ∧
  (∀ (s : State) (r : Running) (addr len : Word) (data : List Byte), s.seq = .running r →
    exec .probe s = .refused .notIdle ∧ exec .getsize s = .refused .notIdle ∧
    exec (.read addr len) s = .refused .notIdle ∧ exec (.erase addr len) s = .refused .notIdle ∧
    exec .chiperase s = .refused .notIdle ∧ exec (.write addr data) s = .refused .notIdle)

/-- R94, R54: every byte string the block sends begins with one of the eighteen opcode parameters, and every
chip select is on `CS_LINE`. -/
def Obligations.SentFramesBeginWithAnOpcode : Prop :=
  ∀ s t : State, s.inv = true → step s = .next t →
    ∃ more, t.trace = s.trace ++ more ∧
      (∀ bytes, .writeOnly bytes ∈ callsOf more → ∃ op ∈ s.config.op.all, bytes.head? = some op) ∧
      (∀ line level, .chipSelect line level ∈ callsOf more → line = s.config.csLine.val)

/-- R193, R94: the erase frame of a probed block begins with `CFG.ERASE_OP`, carries the address and receives
nothing; that byte is one of the four erase opcodes. -/
def Obligations.EraseFrameCarriesTheConfiguredOpcode : Prop :=
  ∀ (s : State) (f : FlashConfig) (w : AddrWidth) (a : Word), s.inv = true → s.cfg = some f →
    encode s.config w (eraseFrame s.config f a) = .frame ⟨f.eraseOp :: addrBytes w a, 0⟩ ∧
    f.eraseOp ∈ [s.config.op.se4k, s.config.op.se4kPmc, s.config.op.be32k, s.config.op.be64k]

/-- R170: the phases of an addressed request are entered in order and never again. -/
def Obligations.PhasesOnlyGoForward : Prop :=
  ∀ (s t : State) (r r' : Running), s.resetPin = false → step s = .next t →
    s.seq = .running r → t.seq = .running r' → r.phase.rank ≤ r'.phase.rank

/-- R31, R32: the block keeps no shadow of the device and does not read chip select back. Two states that differ
below the block and hear the same answers take the same step. -/
def Obligations.BlockSeesOnlyAnswers : Prop :=
  ∀ (s t : State) (e : Env), e.draws = s.env.draws →
    (∀ call, ({ s with env := e } : State).answer call = s.answer call) → step s = .next t →
    ∃ t', step { s with env := e } = .next t' ∧ t.sameBlock t' ∧ t'.seq = t.seq ∧ t'.trace = t.trace

/-! ### Frames -/

/-- R12, R54, R85 to R92: at every call of every frame the block makes exactly the call the format gives and goes
on; a failure ends the request with `TransportFailure`. -/
def Obligations.EveryFrameMakesItsNextCall : Prop :=
  ∀ (s : State) (req i : Instr) (beat : Nat) (rest : List Task) (call : Call),
    s.inv = true → s.seq = .running ⟨req, i, beat, rest⟩ →
    (frameCalls s.config s.width i)[beat]? = some call →
    ∃ t more, exec i s = .next t ∧ t.trace = s.trace ++ .call call (s.answer call) :: more ∧ callsOf more = [] ∧
      t.config = s.config ∧ t.host = s.host ∧ t.resetPin = s.resetPin ∧
      (s.answer call = .fail → t.seq = .idle ∧ ∃ z o, t.resp = some ⟨.transportFailure, z, o⟩) ∧
      (∀ bytes, s.answer call = .ok bytes → beat + 1 < (frameCalls s.config s.width i).length →
        t.seq = .running ⟨req, i, beat + 1, rest⟩)

/-- R150 to R153, R174 to R178, R193, R196, R213, R218, R219, R121, R242: a call inside a frame changes no register of
the block, but for the bytes a register read is receiving and, in a `READ` frame, `A`, `P`, `N` and the output
vector (R28; that `A` follows a `READ` is log entry 14). -/
def Obligations.CallsInsideAFrameKeepTheRegisters : Prop :=
  ∀ (s t : State) (req i : Instr) (beat : Nat) (rest : List Task) (call : Call),
    s.seq = .running ⟨req, i, beat, rest⟩ → (frameCalls s.config s.width i)[beat]? = some call →
    beat + 1 < (frameCalls s.config s.width i).length → exec i s = .next t →
    t.config = s.config ∧ t.probed = s.probed ∧ t.cfg = s.cfg ∧ t.host = s.host ∧ t.resetPin = s.resetPin ∧
    t.work.q = s.work.q ∧ t.work.sr = s.work.sr ∧ t.work.id = s.work.id ∧
    (i ≠ .rdid → i ≠ .rdsr → (∀ a len, i ≠ .readFrame a len) → t.work = s.work) ∧
    (i = .rdid ∨ i = .rdsr → t.work = { s.work with rx := t.work.rx } ∧
      ((∀ n, call ≠ .readOnly n) → t.work = s.work)) ∧
    ((∃ a len, i = .readFrame a len) → t.work =
      { s.work with a := t.work.a, n := t.work.n, p := t.work.p, out := t.work.out })

/-- R152, R121: the last call of a frame completes it. Only `RDSR` then writes `SR`, with the byte received, and
only `RDID` writes `ID`, with the five bytes received; the received bytes and the output vector stay. -/
def Obligations.LastCallOfAFrameCompletesIt : Prop :=
  ∀ (s : State) (req i : Instr) (beat : Nat) (rest : List Task) (call : Call) (bytes : List Byte),
    s.inv = true → s.seq = .running ⟨req, i, beat, rest⟩ →
    (frameCalls s.config s.width i)[beat]? = some call →
    beat + 1 = (frameCalls s.config s.width i).length → s.answer call = .ok bytes →
    call = .chipSelect s.config.csLine.val false ∧
    ∃ t, exec i s = .next t ∧ (∀ r, t.seq = .running r → r.beat = 0) ∧
      t.work.sr = (if i = .rdsr then s.work.rx.headD 0 else s.work.sr) ∧
      t.work.id = (if i = .rdid then IdBytes.ofList s.work.rx else s.work.id) ∧
      t.work.rx = s.work.rx ∧ t.work.out = s.work.out

/-- R270: any call that reports failure ends the request with `TransportFailure`; the call is not made again, no
other call is made; `PROBED` and `CFG` stay (R268(c)). That the working registers keep their last values in the
`IDLE` state after it, the output vector of a failed `READ` among them, is the model's choice, log entries 6 and
3. -/
def Obligations.FailedCallEndsTheRequest : Prop :=
  ∀ (s : State) (r : Running) (call : Call), s.inv = true → s.resetPin = false → configRuns s.config = true →
    s.seq = .running r → (frameCalls s.config s.width r.frame)[r.beat]? = some call → s.answer call = .fail →
    ∃ t resp, step s = .next t ∧ resp.status = .transportFailure ∧ t.resp = some resp ∧ t.seq = .idle ∧
      t.trace = s.trace ++ [.call call .fail, .response resp] ∧ s.sameSetup t ∧ t.work = s.work ∧ t.host = s.host

/-- R268: a request that ends with an error makes no transport call after the failing one, changes neither
`PROBED` nor `CFG`, answers with the error, and leaves the block `IDLE`; the device has seen the calls made and
nothing else. What a failing call leaves of an attached device (`State.envAfter`) is the model's choice, log entry
24 (U7, U8). -/
def Obligations.ErrorsAbortAtOnce : Prop :=
  ∀ (s t : State) (before : List Event) (r : Response), s.inv = true → s.resetPin = false → step s = .next t →
    t.trace = s.trace ++ before ++ [.response r] → r.status ≠ .ok →
    t.seq = .idle ∧ t.resp = some r ∧ s.sameSetup t ∧ (callsOf before).length ≤ 1 ∧
    (callsOf before = [] → t.env.dev = s.env.dev ∧ t.env.cs = s.env.cs) ∧
    (∀ call, callsOf before = [call] → t.env.dev = (s.envAfter call).dev)

/-- R12, R85, R86, R88 to R91: the sixteen frames that receive nothing take three calls, those of their format; no
register of the block changes, and the request goes on with its next line. -/
def Obligations.CommandFramesRunWhole : Prop :=
  ∀ (s : State) (req i : Instr) (rest : List Task),
    s.atFrame req i rest → i ≠ .rdid → i ≠ .rdsr → (∀ a len, i ≠ .readFrame a len) → s.hears silent →
    ∃ s', run 3 s = settle req rest s' ∧ s.sameBlock s' ∧ s'.env.script = s.env.script.drop 3 ∧
      callsOf s'.trace = callsOf s.trace ++ frameCalls s.config s.width i ∧
      progressOf s'.trace = progressOf s.trace

/-- R87, R152, R121, R122: the register reads take four calls and bring one byte to `SR`, or five to `ID`, of which
the first three are the JEDEC ID, most significant first. -/
def Obligations.RegisterReadsRunWhole : Prop :=
  (∀ (s : State) (req : Instr) (rest : List Task) (b : Byte), s.atFrame req .rdsr rest → s.hears (reading [b]) →
    ∃ s', run 4 s = settle req rest s' ∧
      ({ s with work := { s.work with sr := b, rx := [b] } } : State).sameBlock s' ∧
      s'.env.script = s.env.script.drop 4 ∧
      callsOf s'.trace = callsOf s.trace ++ frameCalls s.config s.width .rdsr) ∧
  (∀ (s : State) (req : Instr) (rest : List Task) (b0 b1 b2 b3 b4 : Byte), s.atFrame req .rdid rest →
    s.hears (reading [b0, b1, b2, b3, b4]) →
    ∃ s', run 4 s = settle req rest s' ∧
      ({ s with work := { s.work with id := ⟨b0, b1, b2, b3, b4⟩, rx := [b0, b1, b2, b3, b4] } } : State).sameBlock
        s' ∧
      s'.work.id.jedec.toNat = b0.toNat * 65536 + b1.toNat * 256 + b2.toNat ∧
      s'.work.id.ext.toNat = b3.toNat * 256 + b4.toNat ∧
      s'.env.script = s.env.script.drop 4 ∧
      callsOf s'.trace = callsOf s.trace ++ frameCalls s.config s.width .rdid)

/-! ### `PollUntilReady` -/

/-- R155: at the end of an `RDSR` frame of a poll only bit 0 of the byte received decides. Clear: the request goes
on. Set: another `RDSR`, or `Timeout` when the limit is reached. -/
def Obligations.PollLooksAtBitZeroOnly : Prop :=
  ∀ (s : State) (req : Instr) (k : Nat) (rest : List Task) (b : Byte) (more : List Byte),
    s.config.fixed = FixedNumbers.source →
    s.seq = .running ⟨req, .rdsr, 3, .pollTest k :: rest⟩ → s.work.rx = b :: more →
    s.answer (.chipSelect s.config.csLine.val false) = .ok [] →
    ∃ s', ({ s with work := { s.work with sr := b } } : State).sameBlock s' ∧
      callsOf s'.trace = callsOf s.trace ++ [.chipSelect s.config.csLine.val false] ∧
      (b.toNat % 2 = 0 → exec .rdsr s = settle req rest s') ∧
      (b.toNat % 2 = 1 → (∀ l, s.config.pollLimit = some l → k + 1 < l) →
        exec .rdsr s = .next (s'.sending req .rdsr (.pollTest (k + 1) :: rest))) ∧
      (b.toNat % 2 = 1 → (∃ l, s.config.pollLimit = some l ∧ l ≤ k + 1) →
        exec .rdsr s = .next (s'.raise req .timeout))

/-- R155, U2: with no limit, a device that answers busy forever keeps the block polling forever: after any number
`n` of busy answers it has sent `n` `RDSR` frames, is still in the same poll, and has answered nothing. -/
def Obligations.PollNeverGivesUp : Prop :=
  ∀ (s : State) (req : Instr) (k : Nat) (rest : List Task) (bs : List Byte),
    s.atFrame req .rdsr (.pollTest k :: rest) → s.config.pollLimit = none → (∀ b ∈ bs, b.toNat % 2 = 1) →
    s.hears (bs.flatMap fun b => reading [b]) →
    ∃ t more, run (4 * bs.length) s = .next t ∧
      t.seq = .running ⟨req, .rdsr, 0, .pollTest (k + bs.length) :: rest⟩ ∧
      t.trace = s.trace ++ more ∧ (∀ r, .response r ∉ more) ∧
      callsOf more = framesCalls s.config s.width (List.replicate bs.length .rdsr) ∧ s.sameSetup t

/-- R156: with `POLL_LIMIT = L`, `L` busy answers in one `PollUntilReady` end the request with `Timeout`; fewer do
not. -/
def Obligations.PollLimitTimesOut : Prop :=
  ∀ (s : State) (req : Instr) (rest : List Task) (bs : List Byte) (l : Nat),
    s.atFrame req .rdsr (.pollTest 0 :: rest) → s.config.pollLimit = some l → 1 ≤ bs.length →
    (∀ b ∈ bs, b.toNat % 2 = 1) → s.hears (bs.flatMap fun b => reading [b]) →
    (bs.length = l → ∃ t z o, run (4 * bs.length) s = .next t ∧ t.seq = .idle ∧ t.resp = some ⟨.timeout, z, o⟩ ∧
      s.sameSetup t ∧
      callsOf t.trace = callsOf s.trace ++ framesCalls s.config s.width (List.replicate l .rdsr)) ∧
    (bs.length < l → ∃ t, run (4 * bs.length) s = .next t ∧
      t.seq = .running ⟨req, .rdsr, 0, .pollTest bs.length :: rest⟩ ∧ s.sameSetup t)

/-! ### `PROBE` and `GETSIZE` -/

/-- R132. -/
def Obligations.SecondProbeDoesNothing : Prop :=
  ∀ s : State, s.seq = .idle → s.probed = true →
    ∃ t z, exec .probe s = .next t ∧ t.trace = s.trace ++ [.response ⟨.ok, z, none⟩] ∧
      t.resp = some ⟨.ok, z, none⟩ ∧ t.seq = .idle ∧ s.sameSetup t ∧ t.work = s.work ∧ t.host = s.host ∧
      t.env = { s.env with draws := s.env.draws + 1 }

/-- R120, R133: a `PROBE` of a block that is not probed starts with the `RDID` frame and has changed nothing but the
response port: that the response still pending from the request before is dropped at acceptance is the model's
choice, log entry 11. -/
def Obligations.ProbeStartsWithRdid : Prop :=
  ∀ s : State, s.seq = .idle → s.probed = false →
    ∃ t rest, exec .probe s = .next t ∧ t.seq = .running ⟨.probe, .rdid, 0, rest⟩ ∧ t.resp = none ∧
      s.sameSetup t ∧ t.work = s.work ∧ t.host = s.host ∧ t.env = s.env ∧ t.trace = s.trace

/-- R123: all zeros or all ones in the three JEDEC bytes, whatever the other two, is `NoDevice`, before any
lookup; `PROBED` stays 0. Anything else is not `NoDevice`. That no response of an earlier request is pending any more
while the `PROBE` still runs is the model's choice, log entry 11. -/
def Obligations.BlankIdentificationIsNoDevice : Prop :=
  ∀ (s : State) (b0 b1 b2 b3 b4 : Byte), s.presents .probe → s.probed = false →
    s.hears (reading [b0, b1, b2, b3, b4]) →
    ∃ t, run 5 s = .next t ∧
      (b0 = 0 ∧ b1 = 0 ∧ b2 = 0 ∨ b0 = 0xFF ∧ b1 = 0xFF ∧ b2 = 0xFF →
        t.seq = .idle ∧ s.sameSetup t ∧ (∃ z, t.resp = some ⟨.noDevice, z, none⟩) ∧
        callsOf t.trace = callsOf s.trace ++ frameCalls s.config s.width .rdid) ∧
      (¬(b0 = 0 ∧ b1 = 0 ∧ b2 = 0) → ¬(b0 = 0xFF ∧ b1 = 0xFF ∧ b2 = 0xFF) →
        ∀ r, t.resp = some r → r.status ≠ .noDevice)

/-- R124: the lookup is exact on both parts and takes the first match in table order; an identification that is not
in the table ends the `PROBE` with `UnrecognizedDevice` after the one `RDID` frame, and nothing is written. -/
def Obligations.LookupIsExactAndAMissIsUnrecognized : Prop :=
  (∀ (c : Config) (j : JedecId) (e : ExtId),
    (∀ i d, lookup c j e = some (i, d) ↔
      c.identityTable[i]? = some d ∧ d.jedecId = j ∧ d.extId = e ∧
      ∀ k < i, ∀ d', c.identityTable[k]? = some d' → ¬(d'.jedecId = j ∧ d'.extId = e)) ∧
    (lookup c j e = none ↔ ∀ d ∈ c.identityTable, ¬(d.jedecId = j ∧ d.extId = e))) ∧
  (∀ (s : State) (b0 b1 b2 b3 b4 : Byte), s.presents .probe → s.probed = false →
    s.hears (reading [b0, b1, b2, b3, b4]) →
    noChip (b0 ++ b1 ++ b2) = false → lookup s.config (b0 ++ b1 ++ b2) (b3 ++ b4) = none →
    ∃ t z, run 5 s = .next t ∧ t.seq = .idle ∧ t.resp = some ⟨.unrecognizedDevice, z, none⟩ ∧ s.sameSetup t ∧
      callsOf t.trace = callsOf s.trace ++ frameCalls s.config s.width .rdid)

/-- R127, R129, R130: a descriptor that needs the full unlock gets `WREN` and `WRSR 0x00`, with no status read and no
poll; only then are `CFG` and `PROBED` written and the report emitted. -/
def Obligations.ProbeUnlocksWithoutAPoll : Prop :=
  ∀ (s : State) (b0 b1 b2 b3 b4 : Byte) (i : Nat) (d : Descriptor), s.presents .probe → s.probed = false →
    noChip (b0 ++ b1 ++ b2) = false → lookup s.config (b0 ++ b1 ++ b2) (b3 ++ b4) = some (i, d) →
    d.srUnlock = true → s.hears (reading [b0, b1, b2, b3, b4] ++ silent ++ silent) →
    (∃ t, run 10 s = .next t ∧ t.probed = false ∧ t.cfg = s.cfg) ∧
    ∃ t z before, run 11 s = .next t ∧ t.seq = .idle ∧ t.resp = some ⟨.ok, z, none⟩ ∧ t.probed = true ∧
      t.cfg = some (derive s.config i d) ∧
      t.trace = s.trace ++ before ++ [.report d.name d.capacity (deriveEraseGran s.config d), .response ⟨.ok, z, none⟩] ∧
      callsOf before = framesCalls s.config s.width [.rdid, .wren, .wrsr 0x00]

/-- R128, R129: a descriptor that needs no full unlock and exposes block-protection bits gets one `RDSR`; if a
masked bit is set, `WREN`, `WRSR` of the byte read with the mask cleared, and a poll; else nothing more. One that
exposes none gets no frame. The mask is made of 0x1C, 0x20 and 0x40. -/
def Obligations.ProbeClearsExposedProtection : Prop :=
  (∀ (c : Config) (d : Descriptor), c.fixed = FixedNumbers.source → bpMask c d =
    (if d.bp02 then 0x1C else 0) ||| (if d.bp3 then 0x20 else 0) ||| (if d.bp4 then 0x40 else 0)) ∧
  ∀ (s : State) (b0 b1 b2 b3 b4 sr b : Byte) (i : Nat) (d : Descriptor), s.presents .probe → s.probed = false →
    noChip (b0 ++ b1 ++ b2) = false → lookup s.config (b0 ++ b1 ++ b2) (b3 ++ b4) = some (i, d) →
    d.srUnlock = false →
    (d.bp02 = false → d.bp3 = false → d.bp4 = false → s.hears (reading [b0, b1, b2, b3, b4]) →
      ∃ t z, run 5 s = .next t ∧ t.seq = .idle ∧ t.resp = some ⟨.ok, z, none⟩ ∧ t.probed = true ∧
        t.cfg = some (derive s.config i d) ∧
        callsOf t.trace = callsOf s.trace ++ framesCalls s.config s.width [.rdid]) ∧
    ((d.bp02 = true ∨ d.bp3 = true ∨ d.bp4 = true) → sr &&& bpMask s.config d = 0 →
      s.hears (reading [b0, b1, b2, b3, b4] ++ reading [sr]) →
      ∃ t z, run 9 s = .next t ∧ t.seq = .idle ∧ t.resp = some ⟨.ok, z, none⟩ ∧ t.probed = true ∧
        t.cfg = some (derive s.config i d) ∧
        callsOf t.trace = callsOf s.trace ++ framesCalls s.config s.width [.rdid, .rdsr]) ∧
    ((d.bp02 = true ∨ d.bp3 = true ∨ d.bp4 = true) → sr &&& bpMask s.config d ≠ 0 → b.toNat % 2 = 0 →
      s.hears (reading [b0, b1, b2, b3, b4] ++ reading [sr] ++ silent ++ silent ++ reading [b]) →
      (∃ t, run 18 s = .next t ∧ t.probed = false ∧ t.cfg = s.cfg) ∧
      ∃ t z, run 19 s = .next t ∧ t.seq = .idle ∧ t.resp = some ⟨.ok, z, none⟩ ∧ t.probed = true ∧
        t.cfg = some (derive s.config i d) ∧
        callsOf t.trace = callsOf s.trace ++
          framesCalls s.config s.width [.rdid, .rdsr, .wren, .wrsr (sr &&& ~~~bpMask s.config d), .rdsr])

/-- R125, R126: in every state the invariant allows, `CFG` is what the descriptor's capacity and flags give, in
the order of R126. -/
def Obligations.ConfigFollowsTheDescriptor : Prop :=
  ∀ (s : State) (f : FlashConfig) (d : Descriptor), s.inv = true → s.config.fixed = FixedNumbers.source →
    s.probedDevice = some (f, d) → d.hasErase = true →
    (f.addrWidth = .four ↔ 16777216 < d.capacity.toNat) ∧ f.aai = d.aai ∧
    (d.sect4k = true → f.eraseOp = s.config.op.se4k ∧ f.eraseGran = 4096) ∧
    (d.sect4k = false → d.sect4kPmc = true → f.eraseOp = s.config.op.se4kPmc ∧ f.eraseGran = 4096) ∧
    (d.sect4k = false → d.sect4kPmc = false → d.blk32k = true →
      f.eraseOp = s.config.op.be32k ∧ f.eraseGran = 32768) ∧
    (d.sect4k = false → d.sect4kPmc = false → d.blk32k = false → d.blk64k = true →
      f.eraseOp = s.config.op.be64k ∧ f.eraseGran = 65536) ∧
    (d.sect4k = false → d.sect4kPmc = false → d.blk32k = false → d.blk64k = false →
      f.eraseOp = s.config.op.be64k ∧ f.eraseGran = 262144)

/-- R131: `GETSIZE` of a probed block answers the capacity and makes no transport call; of one that is not,
`NotProbed`. Nothing else changes. -/
def Obligations.GetsizeAnswersTheCapacity : Prop :=
  ∀ s : State, s.seq = .idle →
    (∀ f d, s.probed = true → s.probedDevice = some (f, d) →
      ∃ t, exec .getsize s = .next t ∧ t.resp = some ⟨.ok, d.capacity, none⟩ ∧ t.seq = .idle ∧
        t.trace = s.trace ++ [.response ⟨.ok, d.capacity, none⟩] ∧ s.sameSetup t ∧ t.work = s.work ∧
        t.host = s.host ∧ t.env = { s.env with draws := s.env.draws + 1 }) ∧
    (s.probed = false →
      ∃ t z, exec .getsize s = .next t ∧ t.resp = some ⟨.notProbed, z, none⟩ ∧ t.seq = .idle ∧
        t.trace = s.trace ++ [.response ⟨.notProbed, z, none⟩] ∧ s.sameSetup t ∧ t.work = s.work)

/-! ### The checks of the requests -/

/-- R260: every request but `PROBE`, accepted while `PROBED = 0`, ends at once with `NotProbed`, makes no transport
call and changes no state. -/
def Obligations.RequestsBeforeProbeEndNotProbed : Prop :=
  ∀ (s : State) (i : Instr), s.seq = .idle → s.probed = false → i.isHost = true → i ≠ .probe →
    (∀ b, i ≠ .reserved67 b) →
    ∃ t z o, exec i s = .next t ∧ t.resp = some ⟨.notProbed, z, o⟩ ∧ t.seq = .idle ∧
      t.trace = s.trace ++ [.response ⟨.notProbed, z, o⟩] ∧ s.sameSetup t ∧ t.work = s.work ∧ t.host = s.host ∧
      t.env = { s.env with draws := s.env.draws + 1 }

/-- R262, R261: `ERASE` with a start or an end that is no multiple of the granularity ends with `Unaligned`, in range
or not; the exact sum decides; no other instruction raises it. -/
def Obligations.MisalignedEraseEndsUnaligned : Prop :=
  (∀ (s : State) (f : FlashConfig) (d : Descriptor) (addr len : Word), s.seq = .idle → s.probed = true →
    s.probedDevice = some (f, d) →
    addr.toNat % f.eraseGran.toNat ≠ 0 ∨ (addr.toNat + len.toNat) % f.eraseGran.toNat ≠ 0 →
    ∃ t z, exec (.erase addr len) s = .next t ∧ t.resp = some ⟨.unaligned, z, none⟩ ∧ t.seq = .idle) ∧
  (∀ g addr len : Nat, (addr % g = 0 ∧ (addr + len) % g = 0) ↔ (addr % g = 0 ∧ len % g = 0)) ∧
  (∀ (s t : State) (i : Instr) (more : List Event) (r : Response), (∀ addr len, i ≠ .erase addr len) →
    exec i s = .next t → t.trace = s.trace ++ more → .response r ∈ more → r.status ≠ .unaligned)

/-- R263: the exact sum against the capacity decides, for `READ`, `WRITE` and an aligned `ERASE`, and a span that ends
exactly at the capacity is in range; `CHIPERASE`, `PROBE` and `GETSIZE` have no range check. That a request which has
only been accepted leaves no response of an earlier one pending is the model's choice, log entry 11. -/
def Obligations.SpansPastTheCapacityEndOutOfRange : Prop :=
  ∀ (s : State) (f : FlashConfig) (d : Descriptor) (addr len : Word) (data : List Byte),
    s.seq = .idle → s.probed = true → s.probedDevice = some (f, d) →
    (d.capacity.toNat < addr.toNat + len.toNat →
      ∃ t z o, exec (.read addr len) s = .next t ∧ t.resp = some ⟨.outOfRange, z, o⟩ ∧ t.seq = .idle) ∧
    (d.capacity.toNat < addr.toNat + data.length →
      ∃ t z, exec (.write addr data) s = .next t ∧ t.resp = some ⟨.outOfRange, z, none⟩ ∧ t.seq = .idle) ∧
    (misaligned f.eraseGran addr len = false →
      d.capacity.toNat < addr.toNat ∨ d.capacity.toNat < addr.toNat + len.toNat →
      ∃ t z, exec (.erase addr len) s = .next t ∧ t.resp = some ⟨.outOfRange, z, none⟩ ∧ t.seq = .idle) ∧
    (∀ (i : Instr) (t : State) (r : Response), exec i s = .next t → t.resp = some r →
      (i = .read addr len ∧ addr.toNat + len.toNat ≤ d.capacity.toNat) ∨
      (i = .write addr data ∧ addr.toNat + data.length ≤ d.capacity.toNat) ∨
      (i = .erase addr len ∧ addr.toNat + len.toNat ≤ d.capacity.toNat) ∨
      i = .chiperase ∨ i = .probe ∨ i = .getsize → r.status ≠ .outOfRange)

/-- R264: a request that fails a check makes no transport call, emits no progress event, and leaves every register
of block and device as it was. That the response pending afterwards is this request's own, also where it has only
been accepted, is the model's choice, log entry 11. -/
def Obligations.FailedChecksHaveNoEffect : Prop :=
  ∀ (s t : State) (i : Instr) (r : Response), s.seq = .idle → exec i s = .next t → t.resp = some r →
    (r.status = .notProbed ∨ r.status = .unaligned ∨ r.status = .outOfRange) → i.isHost = true →
    (∀ b, i ≠ .reserved67 b) →
    t.trace = s.trace ++ [.response r] ∧ s.sameSetup t ∧ t.work = s.work ∧ t.seq = .idle ∧ t.host = s.host ∧
    t.env = { s.env with draws := s.env.draws + 1 }

/-- R191, R195, R210, R241: a request whose checks pass is accepted, makes no transport call yet, and stands
before the first frame of its sequence, or has returned `Ok` where the sequence is empty. Nothing outside the
working registers changes. -/
def Obligations.AcceptedRequestsBegin : Prop :=
  ∀ (s : State) (f : FlashConfig) (d : Descriptor) (addr len : Word) (data : List Byte),
    s.seq = .idle → s.probed = true → s.probedDevice = some (f, d) → 1 ≤ s.config.pageSize →
    (addr.toNat + len.toNat ≤ d.capacity.toNat →
      ∃ t, exec (.read addr len) s = .next t ∧
        t.begun (.read addr len) (bracketed s.config f d [.readFrame addr len]) ∧
        s.sameSetup t ∧ callsOf t.trace = callsOf s.trace ∧ t.host = s.host ∧ t.env.dev = s.env.dev) ∧
    (misaligned f.eraseGran addr len = false → addr.toNat + len.toNat ≤ d.capacity.toNat →
      ∃ t, exec (.erase addr len) s = .next t ∧
        t.begun (.erase addr len) (bracketed s.config f d (eraseFrames s.config f addr len)) ∧
        s.sameSetup t ∧ callsOf t.trace = callsOf s.trace ∧ t.host = s.host ∧ t.env.dev = s.env.dev) ∧
    (∃ t, exec .chiperase s = .next t ∧ t.begun .chiperase [.wren, .ce, .rdsr] ∧
        s.sameSetup t ∧ callsOf t.trace = callsOf s.trace ∧ t.host = s.host ∧ t.env.dev = s.env.dev) ∧
    (addr.toNat + data.length ≤ d.capacity.toNat →
      ∃ t, exec (.write addr data) s = .next t ∧
        t.begun (.write addr data) (bracketed s.config f d
          (if f.aai then aaiFrames addr data else pageFrames s.config.pageSize data.length addr data)) ∧
        s.sameSetup t ∧ callsOf t.trace = callsOf s.trace ∧ t.host = s.host ∧ t.env.dev = s.env.dev)

/-- R100 (log entry 10: the model takes the record off the port): operation codes 6 and 7 have no effect, no
response and no transport call. -/
def Obligations.ReservedCodesAreIgnored : Prop :=
  (∀ (s : State) (b : Bool), exec (.reserved67 b) s = .next s) ∧
  (∀ (s : State) (b : Bool), s.presents (.reserved67 b) → step s = .next { s with host := s.host.tail })

/-- R266: the eight codes; they are different; `Timeout` is never produced while `POLL_LIMIT` is unset. -/
def Obligations.StatusCodesAndTimeout : Prop :=
  [Status.ok, .transportFailure, .noDevice, .unrecognizedDevice, .notProbed, .unaligned, .outOfRange,
    .timeout].map Status.code = [0, 1, 2, 3, 4, 5, 6, 7] ∧
  (∀ s t : State, s.config.pollLimit = none → step s = .next t →
    ∃ more, t.trace = s.trace ++ more ∧ ∀ r, .response r ∈ more → r.status ≠ .timeout)

/-! ### Whole requests -/

/-- R195, R155: `CHIPERASE` sends `WREN`, `CE` and then `RDSR` until a byte with bit 0 clear comes, and returns `Ok`; no
address mode, no progress event; `SR` is the last byte read. That the working registers keep their values in the
`IDLE` state after it is log entry 6. -/
def Obligations.ChipEraseRunsWhole : Prop :=
  ∀ (s : State) (bs : List Byte) (b : Byte), s.presents .chiperase → s.probed = true →
    (∀ x ∈ bs, x.toNat % 2 = 1) → b.toNat % 2 = 0 →
    (∀ l, s.config.pollLimit = some l → bs.length < l) →
    s.hears (silent ++ silent ++ (bs ++ [b]).flatMap fun x => reading [x]) →
    ∃ t z, run (7 + 4 * (bs.length + 1)) s = .next t ∧ t.seq = .idle ∧ t.resp = some ⟨.ok, z, none⟩ ∧
      callsOf t.trace =
        callsOf s.trace ++ framesCalls s.config s.width ([.wren, .ce] ++ List.replicate (bs.length + 1) .rdsr) ∧
      progressOf t.trace = progressOf s.trace ∧ t.work = { s.work with sr := b, rx := [b] } ∧ s.sameSetup t ∧
      t.host = s.host.tail

/-- R191, R192, R193, R171, R184, R247: an `ERASE` whose checks pass, with no failing call and every poll ready, sends
exactly the bracketed sector loop, in ascending order, reports after each sector, and returns `Ok`. -/
def Obligations.EraseRunsWhole : Prop :=
  ∀ (s : State) (f : FlashConfig) (d : Descriptor) (addr len : Word), s.presents (.erase addr len) →
    s.probed = true → s.probedDevice = some (f, d) → misaligned f.eraseGran addr len = false →
    addr.toNat + len.toNat ≤ d.capacity.toNat →
    s.quiet (framesCalls s.config s.width (bracketed s.config f d (eraseFrames s.config f addr len))).length →
    ∃ t z,
      run ((framesCalls s.config s.width (bracketed s.config f d (eraseFrames s.config f addr len))).length + 1) s =
        .next t ∧
      t.seq = .idle ∧ t.resp = some ⟨.ok, z, none⟩ ∧ s.sameSetup t ∧ t.host = s.host.tail ∧
      callsOf t.trace = callsOf s.trace ++
        framesCalls s.config s.width (bracketed s.config f d (eraseFrames s.config f addr len)) ∧
      progressOf t.trace = progressOf s.trace ++
        (List.range (len.toNat / f.eraseGran.toNat)).map
          fun k => 100 * (k + 1) / (len.toNat / f.eraseGran.toNat)

/-- R210 to R214, R171, R184, R247: the same for a `WRITE` on the generic path: the bracketed chunk loop, a report after
each chunk. -/
def Obligations.PageWriteRunsWhole : Prop :=
  ∀ (s : State) (f : FlashConfig) (d : Descriptor) (addr : Word) (data : List Byte),
    s.presents (.write addr data) → s.probed = true → s.probedDevice = some (f, d) → f.aai = false →
    addr.toNat + data.length ≤ d.capacity.toNat →
    s.quiet (framesCalls s.config s.width
      (bracketed s.config f d (pageFrames s.config.pageSize data.length addr data))).length →
    ∃ t z,
      run ((framesCalls s.config s.width
        (bracketed s.config f d (pageFrames s.config.pageSize data.length addr data))).length + 1) s = .next t ∧
      t.seq = .idle ∧ t.resp = some ⟨.ok, z, none⟩ ∧ s.sameSetup t ∧ t.host = s.host.tail ∧
      callsOf t.trace = callsOf s.trace ++ framesCalls s.config s.width
        (bracketed s.config f d (pageFrames s.config.pageSize data.length addr data)) ∧
      progressOf t.trace = progressOf s.trace ++
        (runningTotals 0 ((programsOf (pageFrames s.config.pageSize data.length addr data)).map
          fun p => p.2.length)).map fun n => 100 * n / data.length

/-- R210, R216 to R219, R222, R171, R247: the same for a `WRITE` on the auto-increment path: the leading byte, `WREN` once,
the bursts, `WRDI` and a poll, the trailing byte; a report after each 256 burst bytes. -/
def Obligations.AutoIncrementWriteRunsWhole : Prop :=
  ∀ (s : State) (f : FlashConfig) (d : Descriptor) (addr : Word) (data : List Byte),
    s.presents (.write addr data) → s.probed = true → s.probedDevice = some (f, d) → f.aai = true →
    addr.toNat + data.length ≤ d.capacity.toNat →
    s.quiet (framesCalls s.config s.width (bracketed s.config f d (aaiFrames addr data))).length →
    ∃ t z,
      run ((framesCalls s.config s.width (bracketed s.config f d (aaiFrames addr data))).length + 1) s = .next t ∧
      t.seq = .idle ∧ t.resp = some ⟨.ok, z, none⟩ ∧ s.sameSetup t ∧ t.host = s.host.tail ∧
      callsOf t.trace = callsOf s.trace ++
        framesCalls s.config s.width (bracketed s.config f d (aaiFrames addr data)) ∧
      progressOf t.trace = progressOf s.trace ++
        (List.range ((data.length - min data.length (addr.toNat % 2)) / 2 / 128)).map
          fun k => 100 * (min data.length (addr.toNat % 2) + 256 * (k + 1)) / data.length

/-- R241, R242, R244, R247, R52, R28: the same for a `READ`: one bracketed frame; the output vector is exactly the bytes
that came back, in order; a report after each `RxOnly`; `A` and `P` have gone to the end of the span and `N` to 0
(that `A` follows a `READ` is log entry 14, that they keep their values in `IDLE` log entry 6). -/
def Obligations.ReadReturnsTheBytes : Prop :=
  ∀ (s : State) (f : FlashConfig) (d : Descriptor) (addr len : Word) (data : List Byte),
    s.presents (.read addr len) → s.probed = true → s.probedDevice = some (f, d) →
    addr.toNat + len.toNat ≤ d.capacity.toNat → data.length = len.toNat →
    s.hears ((setModeFrames s.config f.addrWidth d.jedecId true).flatMap (fun _ => silent) ++
      [.reply [], .reply []] ++ (pieces (readChunks 4096 len.toNat) data).map .reply ++ [.reply []] ++
      (setModeFrames s.config f.addrWidth d.jedecId false).flatMap (fun _ => silent)) →
    ∃ t z,
      run ((framesCalls s.config s.width (bracketed s.config f d [.readFrame addr len])).length + 1) s = .next t ∧
      t.seq = .idle ∧ t.resp = some ⟨.ok, z, some data⟩ ∧ s.sameSetup t ∧ t.host = s.host.tail ∧
      callsOf t.trace = callsOf s.trace ++
        framesCalls s.config s.width (bracketed s.config f d [.readFrame addr len]) ∧
      progressOf t.trace = progressOf s.trace ++
        (runningTotals 0 (readChunks 4096 len.toNat)).map (fun n => 100 * n / len.toNat) ∧
      t.work = { s.work with a := addr + len, n := 0, p := len, out := data }

/-! ### What the sequences are -/

/-- R183, R182: the frames of one call of `SetAddressMode`, by class. -/
def Obligations.AddressModeFramesByClass : Prop :=
  ∀ (c : Config) (j : JedecId), c.fixed = FixedNumbers.source →
    (∀ en, setModeFrames c .three j en = []) ∧
    (mfrClassOf c (mfrOf j) = .aWren →
      setModeFrames c .four j true = [.wren, .en4b, .wrdi] ∧
      (exitClassOf c (mfrOf j) = .wrear → j ≠ c.wrearSkipId →
        setModeFrames c .four j false = [.wren, .ex4b, .wrdi, .wren, .wrear 0x00, .wrdi]) ∧
      (exitClassOf c (mfrOf j) = .wrear → j = c.wrearSkipId →
        setModeFrames c .four j false = [.wren, .ex4b, .wrdi]) ∧
      (exitClassOf c (mfrOf j) = .exhb → setModeFrames c .four j false = [.wren, .ex4b, .wrdi, .exhb]) ∧
      (exitClassOf c (mfrOf j) = .none → setModeFrames c .four j false = [.wren, .ex4b, .wrdi])) ∧
    (mfrClassOf c (mfrOf j) = .aPlain →
      setModeFrames c .four j true = [.en4b] ∧
      (exitClassOf c (mfrOf j) = .wrear → j ≠ c.wrearSkipId →
        setModeFrames c .four j false = [.ex4b, .wren, .wrear 0x00, .wrdi]) ∧
      (exitClassOf c (mfrOf j) = .wrear → j = c.wrearSkipId → setModeFrames c .four j false = [.ex4b]) ∧
      (exitClassOf c (mfrOf j) = .exhb → setModeFrames c .four j false = [.ex4b, .exhb]) ∧
      (exitClassOf c (mfrOf j) = .none → setModeFrames c .four j false = [.ex4b])) ∧
    (mfrClassOf c (mfrOf j) = .b → exitClassOf c (mfrOf j) = .none →
      setModeFrames c .four j true = [.brwr 0x80] ∧ setModeFrames c .four j false = [.brwr 0x00]) ∧
    (mfrClassOf c (mfrOf j) = .none → exitClassOf c (mfrOf j) = .none →
      setModeFrames c .four j true = [] ∧ setModeFrames c .four j false = [])

/-- R214: the chunks of a page program partition the span exactly, are contiguous, never cross a page boundary, and
have the lengths and the number the rule gives. -/
def Obligations.PageChunksPartitionTheSpan : Prop :=
  ∀ (pageSize : Nat) (addr : Word) (data : List Byte), 1 ≤ pageSize → addr.toNat + data.length < 2 ^ 32 →
    data ≠ [] →
    ∃ chunks, programsOf (pageFrames pageSize data.length addr data) = chunks ∧
      chunks.flatMap Prod.snd = data ∧
      chunks.length = (addr.toNat % pageSize + data.length + pageSize - 1) / pageSize ∧
      ∀ k a v, chunks[k]? = some (a, v) →
        a.toNat = addr.toNat + ((chunks.take k).map fun p => p.2.length).sum ∧
        1 ≤ v.length ∧ a.toNat / pageSize = (a.toNat + v.length - 1) / pageSize ∧
        (k = 0 → v.length = min data.length (pageSize - addr.toNat % pageSize)) ∧
        (1 ≤ k → k + 1 < chunks.length → v.length = pageSize)

/-- R221: on the auto-increment path every byte is sent exactly once, in ascending order; the burst phase starts at
an even address, and each single-byte program carries the first byte at `addr` or the last byte at the end. -/
def Obligations.AutoIncrementSendsEveryByteOnce : Prop :=
  ∀ (addr : Word) (data : List Byte), addr.toNat + data.length < 2 ^ 32 →
    dataOf (aaiFrames addr data) = data ∧
    (∀ a d0 d1, .aaiFirst a d0 d1 ∈ aaiFrames addr data →
      a.toNat % 2 = 0 ∧ a.toNat = addr.toNat + addr.toNat % 2) ∧
    ∀ a v, .pp a v ∈ aaiFrames addr data →
      v.length = 1 ∧ (a = addr ∧ v = data.take 1 ∨
        a.toNat + 1 = addr.toNat + data.length ∧ v = data.drop (data.length - 1))

/-- R220: the counts of the auto-increment path. -/
def Obligations.AutoIncrementFrameCounts : Prop :=
  ∀ (addr : Word) (data : List Byte) (m pp aai wren rdsr : Nat),
    (addr.toNat % 2 = 0 ∧ data.length = 2 * m ∧ (pp, aai, wren, rdsr) = (0, m, 1, m + 1)) ∨
    (addr.toNat % 2 = 0 ∧ data.length = 2 * m + 1 ∧ (pp, aai, wren, rdsr) = (1, m, 2, m + 2)) ∨
    (addr.toNat % 2 = 1 ∧ data.length = 2 * m + 1 ∧ (pp, aai, wren, rdsr) = (1, m, 2, m + 2)) ∨
    (addr.toNat % 2 = 1 ∧ data.length = 2 * m ∧ 1 ≤ m ∧ (pp, aai, wren, rdsr) = (2, m - 1, 3, m + 2)) ∨
    (addr.toNat % 2 = 1 ∧ data.length = 0 ∧ (pp, aai, wren, rdsr) = (0, 0, 1, 1)) →
    (programsOf (aaiFrames addr data)).length = pp ∧ (aaiFrames addr data).countP isBurst = aai ∧
    (aaiFrames addr data).countP (fun i => i = .wren) = wren ∧
    (aaiFrames addr data).countP (fun i => i = .rdsr) = rdsr

/-- R244: the calls of a `READ` are what the loop `min(remaining, 4096)` makes; there are `len / 4096` of exactly 4096,
then one of the remainder if there is one; chip select stays asserted across all of them. -/
def Obligations.ReadChunksAreTheLoop : Prop :=
  (∀ (c : Config) (w : AddrWidth) (a len : Word), c.fixed = FixedNumbers.source → frameCalls c w (.readFrame a len) =
    [.chipSelect c.csLine.val true, .writeOnly (c.op.read :: addrBytes w a)] ++
    (readChunks 4096 len.toNat).map .readOnly ++ [.chipSelect c.csLine.val false]) ∧
  ∀ len : Nat,
    readChunks 4096 len = List.replicate (len / 4096) 4096 ++ (if len % 4096 = 0 then [] else [len % 4096]) ∧
    readChunks 4096 len = (if len = 0 then [] else min len 4096 :: readChunks 4096 (len - min len 4096)) ∧
    (readChunks 4096 len).sum = len ∧ (∀ n ∈ readChunks 4096 len, 1 ≤ n ∧ n ≤ 4096)

/-! ### The flash array and the reference device (R73, R74: a fixture, not the block) -/

/-- R74, R31, R62, R192, R223: a step changes a byte of the array only where a frame stores to that byte of an attached
device: at a deassert of chip select, the frame the device has collected (that the fixture reacts at deassert is log
entry 9), or at a call that fails, the frame the block is sending (U7; that each of its calls counts is log entry
24). Chunks and sectors before the failing one, and those after it, are untouched. -/
def Obligations.FlashChangesOnlyWhereAFrameStores : Prop :=
  ∀ (s t : State) (x : Nat), step s = .next t → Memory.read t.env.dev.mem x ≠ Memory.read s.env.dev.mem x →
    s.env.attached = true ∧
    ((∃ j line, s.env.dev.reading s.config = .ok j ∧ s.env.dev.stores s.config j x = true ∧
      callsOf t.trace = callsOf s.trace ++ [.chipSelect line false]) ∨
     ∃ r call, s.seq = .running r ∧ s.answer call = .fail ∧ s.env.dev.stores s.config r.frame x = true ∧
      callsOf t.trace = callsOf s.trace ++ [call])

/-- R74, R90, R91: a command frame sent whole to an attached, ready device that expects the block's address width is
exactly that frame's reaction, `Device.react`. Where R74 gives none or leaves it open (an `AAI` frame out of
place, a `PP` without the latch, the bank register, the high-bank latch) the reaction is the model's choice, log
entry 9; that an attached device fails no call is log
entry 2. -/
def Obligations.AttachedDeviceReactsToTheFrame : Prop :=
  ∀ (s : State) (req i : Instr) (rest : List Task),
    s.atFrame req i rest → i ≠ .rdid → i ≠ .rdsr → (∀ a len, i ≠ .readFrame a len) →
    s.env.attached = true → s.env.script = [] → s.config.op.distinct = true → i.wf s.config = true →
    i.fits s.width = true → s.env.dev.width = s.width → s.env.dev.busyPolls = 0 →
    ∃ s', run 3 s = settle req rest s' ∧ s.sameBlock s' ∧
      s'.env.dev = ({ s.env.dev with frame := [], rxCount := 0 } : Device).react s.config i

/-- R74, R213: a page program inside one page makes each byte the old one AND the new one, if the latch was set,
and clears the latch; without the latch nothing happens. That the busy count then stays too is the model's choice
(R74's layout leaves it open), log entry 9. -/
def Obligations.PageProgramAndsIntoTheArray : Prop :=
  ∀ (c : Config) (d : Device) (a : Word) (v : List Byte), Memory.wf d.mem = true → 1 ≤ c.pageSize →
    d.phys a % c.pageSize + v.length ≤ c.pageSize → d.phys a + v.length ≤ d.cap →
    (d.wel = true →
      (∀ k < v.length, Memory.read (d.react c (.pp a v)).mem (d.phys a + k) =
        Memory.read d.mem (d.phys a + k) &&& v.getD k 0) ∧
      (d.react c (.pp a v)).wel = false ∧ (d.react c (.pp a v)).busyPolls = d.busyAfter) ∧
    (d.wel = false → d.react c (.pp a v) = d)

/-- R74, R73, R31, R29: the registers of the reference device. `WREN` and `WRDI` set and clear the latch; `WRSR` writes bits
7:2 and starts a cycle, and `WREAR` writes the extended address register, both only with the latch set and clearing
it; `EN4B`, `EX4B` and bit 7 of `BRWR` set the addressing mode; `EXHB` selects the low bank; nothing else changes.
`RDSR` answers bits 7:2, the latch and the busy bit, as often as clocked, and `RDID` the five bytes, over and over.
A busy device ignores every frame but `RDSR`, which counts the busy count down; one that is not busy reacts to the
frame. An erase frame (R193, R196) makes the aligned region that holds the address read 0xFF, if the latch was set, and
clears the latch; `CE` does so to the whole array. That a frame acts at the deassert, as the device has read it
(`reading`), is log entry 9, as are the bank register and the high-bank latch, which R74 does not list. -/
def Obligations.RegisterAndEraseFramesReactOnTheDevice : Prop :=
  (∀ (c : Config) (d : Device) (v : Byte), c.fixed = FixedNumbers.source →
    d.react c .wren = { d with wel := true } ∧
    d.react c .wrdi = { d with wel := false, aai := false } ∧
    (d.wel = true → d.react c (.wrsr v) =
      { d with srHigh := v.extractLsb' 2 6, wel := false, busyPolls := d.busyAfter }) ∧
    (d.wel = false → d.react c (.wrsr v) = d) ∧
    d.react c .en4b = { d with mode4 := true } ∧ d.react c .ex4b = { d with mode4 := false } ∧
    d.react c (.brwr v) = { d with bank := v, mode4 := decide (128 ≤ v.toNat) } ∧
    d.react c .exhb = { d with ear := 0, highBank := false } ∧
    (d.wel = true → d.react c (.wrear v) = { d with ear := v, wel := false }) ∧
    (d.wel = false → d.react c (.wrear v) = d)) ∧
  (∀ (c : Config) (d : Device) (n : Nat), c.op.distinct = true → c.fixed = FixedNumbers.source →
    (d.frame = [c.op.rdsr] → ∃ b : Byte, d.answer c n = some (List.replicate n b) ∧
      b.toNat = d.srHigh.toNat * 4 + (if d.wel then 2 else 0) + (if 0 < d.busyPolls then 1 else 0)) ∧
    (d.frame = [c.op.rdid] → d.busyPolls = 0 → d.rxCount = 0 → d.answer c n = some ((List.range n).map fun k =>
      [d.idBytes.b0, d.idBytes.b1, d.idBytes.b2, d.idBytes.b3, d.idBytes.b4].getD (k % 5) 0)) ∧
    (d.frame = [c.op.rdsr] → 0 < d.busyPolls →
      d.deselect c = { d with frame := [], rxCount := 0, busyPolls := d.busyPolls - 1 })) ∧
  (∀ (c : Config) (d : Device) (i : Instr), d.reading c = .ok i →
    (0 < d.busyPolls → i ≠ .rdsr → d.deselect c = { d with frame := [], rxCount := 0 }) ∧
    (d.busyPolls = 0 → d.deselect c = ({ d with frame := [], rxCount := 0 } : Device).react c i)) ∧
  ∀ (c : Config) (d : Device) (i : Instr) (a : Word) (g : Nat),
    (i, g) ∈ [(.se4k a, 4096), (.se4kPmc a, 4096), (.be32k a, 32768),
      (.be64k a, if d.blk256 then 262144 else 65536)] →
    (d.wel = true →
      (∀ x, d.phys a - d.phys a % g ≤ x → x < d.phys a - d.phys a % g + g →
        Memory.read (d.react c i).mem x = 0xFF) ∧
      (∀ x, Memory.read (d.react c .ce).mem x = 0xFF) ∧
      (d.react c i).wel = false ∧ (d.react c .ce).wel = false) ∧
    (d.wel = false → d.react c i = d ∧ d.react c .ce = d)

/-- R71 on the reference device, generic path: the frames of a `WRITE` to an erased span leave the written bytes
there, and a `READ` frame gives them back. -/
def Obligations.PageWriteThenReadGivesTheData : Prop :=
  ∀ (c : Config) (d : Device) (addr : Word) (data : List Byte),
    Memory.wf d.mem = true → 1 ≤ c.pageSize → c.op.distinct = true → d.mode4 = false → d.ear = 0 →
    addr.toNat + data.length ≤ d.cap → d.cap ≤ 2 ^ 24 → addr.toNat < 2 ^ 24 →
    (∀ k < data.length, Memory.read d.mem (addr.toNat + k) = 0xFF) →
    ∃ d', (pageFrames c.pageSize data.length addr data).foldl (fun d i => d.react c i) d = d' ∧
      (∀ k < data.length, Memory.read d'.mem (addr.toNat + k) = data.getD k 0) ∧
      ({ d' with frame := c.op.read :: addrBytes .three addr, rxCount := 0, busyPolls := 0 } : Device).answer c
        data.length = some data

/-- R71 on the reference device, auto-increment path. -/
def Obligations.AutoIncrementWriteThenReadGivesTheData : Prop :=
  ∀ (c : Config) (d : Device) (addr : Word) (data : List Byte),
    Memory.wf d.mem = true → 1 ≤ c.pageSize → c.op.distinct = true → d.mode4 = false → d.ear = 0 → d.aai = false →
    addr.toNat + data.length ≤ d.cap → d.cap ≤ 2 ^ 24 → addr.toNat < 2 ^ 24 →
    (∀ k < data.length, Memory.read d.mem (addr.toNat + k) = 0xFF) →
    ∃ d', (aaiFrames addr data).foldl (fun d i => d.react c i) d = d' ∧ d'.aai = false ∧
      (∀ k < data.length, Memory.read d'.mem (addr.toNat + k) = data.getD k 0) ∧
      ({ d' with frame := c.op.read :: addrBytes .three addr, rxCount := 0, busyPolls := 0 } : Device).answer c
        data.length = some data
end

