-- ==== Sys2Proof/Laws/Memory.lean ====
section
/-! SUPPORT. The flash array: a read after a write, and that every memory operation of the reference device
keeps the canonical form. -/

namespace Sys2Proof.Machine

theorem Memory.wfFrom_mono {lo lo' : Nat} (h : lo' ≤ lo) :
    ∀ {m : Memory}, Memory.wfFrom lo m = true → Memory.wfFrom lo' m = true
  | [], _ => rfl
  | (k, v) :: m, hm => by
    simp only [Memory.wfFrom, Bool.and_eq_true, decide_eq_true_eq] at hm ⊢
    exact ⟨⟨h.trans hm.1.1, hm.1.2⟩, hm.2⟩

/-- An address below all listed ones reads as the erased byte. -/
theorem Memory.read_below {lo a : Nat} (h : a < lo) :
    ∀ {m : Memory}, Memory.wfFrom lo m = true → Memory.read m a = Memory.blank
  | [], _ => rfl
  | (k, v) :: m, hm => by
    simp only [Memory.wfFrom, Bool.and_eq_true, decide_eq_true_eq] at hm
    have hk : k ≠ a := by omega
    simp only [Memory.read, if_neg hk]
    exact Memory.read_below (by omega) hm.2

theorem Memory.wfFrom_write (a : Nat) (v : Byte) :
    ∀ {m : Memory} {lo : Nat}, lo ≤ a → Memory.wfFrom lo m = true → Memory.wfFrom lo (Memory.write m a v) = true
  | [], lo, hlo, _ => by
    by_cases hv : v = Memory.blank <;> simp [Memory.write, Memory.wfFrom, hv, hlo]
  | (k, w) :: m, lo, hlo, hm => by
    have h := hm
    simp only [Memory.wfFrom, Bool.and_eq_true, decide_eq_true_eq] at h
    simp only [Memory.write]
    by_cases h1 : a < k
    · by_cases hv : v = Memory.blank
      · simpa [h1, hv] using hm
      · have : a + 1 ≤ k := h1
        simp [h1, hv, Memory.wfFrom, hlo, this, h.2, by simpa using h.1.2]
    · by_cases h2 : a = k
      · subst h2
        by_cases hv : v = Memory.blank
        · simpa [hv] using Memory.wfFrom_mono (by omega) h.2
        · simp [hv, Memory.wfFrom, hlo, h.2]
      · have ih := Memory.wfFrom_write a v (m := m) (lo := k + 1) (by omega) h.2
        simp [h1, h2, Memory.wfFrom, h.1.1, ih, by simpa using h.1.2]

/-- Writing keeps the canonical form. -/
theorem Memory.wf_write {m : Memory} (a : Nat) (v : Byte) (h : Memory.wf m = true) :
    Memory.wf (Memory.write m a v) = true := Memory.wfFrom_write a v (Nat.zero_le a) h

theorem Memory.wfFrom_filter (p : Host.Cell → Bool) :
    ∀ {m : Memory} {lo : Nat}, Memory.wfFrom lo m = true → Memory.wfFrom lo (m.filter p) = true
  | [], _, _ => rfl
  | (k, v) :: m, lo, hm => by
    simp only [Memory.wfFrom, Bool.and_eq_true, decide_eq_true_eq] at hm
    by_cases hp : p (k, v)
    · simp [List.filter, hp, Memory.wfFrom, hm.1.1, Memory.wfFrom_filter p hm.2, by simpa using hm.1.2]
    · simpa [List.filter, hp] using Memory.wfFrom_mono (by omega) (Memory.wfFrom_filter p hm.2)

/-- Erasing keeps the canonical form. -/
theorem Memory.wf_erase {m : Memory} (lo n : Nat) (h : Memory.wf m = true) :
    Memory.wf (Memory.erase m lo n) = true := Memory.wfFrom_filter _ h

/-- A read after a write to the same address gives the value written. -/
theorem Memory.read_write_same (a : Nat) (v : Byte) :
    ∀ {m : Memory} {lo : Nat}, Memory.wfFrom lo m = true → Memory.read (Memory.write m a v) a = v
  | [], _, _ => by by_cases hv : v = Memory.blank <;> simp [Memory.write, Memory.read, hv]
  | (k, w) :: m, lo, hm => by
    simp only [Memory.wfFrom, Bool.and_eq_true, decide_eq_true_eq] at hm
    simp only [Memory.write]
    by_cases h1 : a < k
    · by_cases hv : v = Memory.blank
      · have hk : k ≠ a := by omega
        simpa [h1, hv, Memory.read, hk] using Memory.read_below (by omega) hm.2
      · simp [h1, hv, Memory.read]
    · by_cases h2 : a = k
      · subst h2
        by_cases hv : v = Memory.blank
        · simpa [hv] using Memory.read_below (Nat.lt_succ_self a) hm.2
        · simp [hv, Memory.read]
      · have hk : k ≠ a := fun h => h2 h.symm
        simpa [h1, h2, Memory.read, hk] using Memory.read_write_same a v hm.2

/-- A write leaves every other address alone. -/
theorem Memory.read_write_other {a b : Nat} (hab : b ≠ a) (v : Byte) :
    ∀ {m : Memory}, Memory.read (Memory.write m a v) b = Memory.read m b
  | [] => by
    have hba : a ≠ b := fun h => hab h.symm
    by_cases hv : v = Memory.blank <;> simp [Memory.write, Memory.read, hv, hba]
  | (k, w) :: m => by
    have hba : a ≠ b := fun h => hab h.symm
    simp only [Memory.write]
    by_cases h1 : a < k
    · by_cases hv : v = Memory.blank <;> simp [h1, hv, Memory.read, hba]
    · by_cases h2 : a = k
      · subst h2
        by_cases hv : v = Memory.blank <;> simp [hv, Memory.read, hba]
      · simp only [if_neg h1, if_neg h2, Memory.read]
        rw [Memory.read_write_other hab v]

theorem Memory.erase_cons (k : Nat) (v : Byte) (m : Memory) (lo n : Nat) :
    Memory.erase ((k, v) :: m) lo n =
      if k < lo ∨ lo + n ≤ k then (k, v) :: Memory.erase m lo n else Memory.erase m lo n := by
  by_cases h : k < lo ∨ lo + n ≤ k <;> simp [Memory.erase, h]

/-- A region reads as erased after an erase. -/
theorem Memory.read_erase_in {lo n a : Nat} (h : lo ≤ a ∧ a < lo + n) :
    ∀ {m : Memory}, Memory.read (Memory.erase m lo n) a = Memory.blank
  | [] => rfl
  | (k, v) :: m => by
    rw [Memory.erase_cons]
    split
    · have hk : k ≠ a := by omega
      simpa [Memory.read, hk] using Memory.read_erase_in h
    · exact Memory.read_erase_in h

/-- An erase leaves every address outside the region alone. -/
theorem Memory.read_erase_out {lo n a : Nat} (h : a < lo ∨ lo + n ≤ a) :
    ∀ {m : Memory}, Memory.read (Memory.erase m lo n) a = Memory.read m a
  | [] => rfl
  | (k, v) :: m => by
    rw [Memory.erase_cons]
    split
    · simp only [Memory.read]
      rw [Memory.read_erase_out h]
    · have hk : k ≠ a := by omega
      simpa [Memory.read, hk] using Memory.read_erase_out h

/-! ### `Memory.fill` -/

theorem Memory.wfFrom_append {hi : Nat} :
    ∀ {m m' : Memory} {lo : Nat}, Memory.wfFrom lo m = true → (∀ cell ∈ m, cell.1 < hi) → lo ≤ hi →
      Memory.wfFrom hi m' = true → Memory.wfFrom lo (m ++ m') = true
  | [], _, _, _, _, hl, h' => Memory.wfFrom_mono hl h'
  | (k, v) :: m, m', lo, h, hm, _, h' => by
    simp only [Memory.wfFrom, Bool.and_eq_true, decide_eq_true_eq, List.cons_append] at h ⊢
    exact ⟨h.1, Memory.wfFrom_append h.2 (fun c hc => hm c (List.mem_cons_of_mem _ hc))
      (hm (k, v) List.mem_cons_self) h'⟩

theorem Memory.wfFrom_filled (g : Nat → Byte) : ∀ (n lo : Nat),
    Memory.wfFrom lo (((List.range' lo n).filter fun a => g a != Memory.blank).map fun a => (a, g a)) = true
  | 0, _ => rfl
  | n + 1, lo => by
    have ih := Memory.wfFrom_filled g n (lo + 1)
    by_cases h : g lo = Memory.blank
    · simpa [List.range'_succ, h] using Memory.wfFrom_mono (Nat.le_succ lo) ih
    · simpa [List.range'_succ, h, Memory.wfFrom] using ih

theorem Memory.wfFrom_high (hi : Nat) :
    ∀ {m : Memory} {lo : Nat}, Memory.wfFrom lo m = true →
      Memory.wfFrom hi (m.filter fun cell => decide (hi ≤ cell.1)) = true
  | [], _, _ => rfl
  | (k, v) :: m, lo, h => by
    simp only [Memory.wfFrom, Bool.and_eq_true, decide_eq_true_eq] at h
    by_cases hk : hi ≤ k
    · simpa [hk, Memory.wfFrom, h.1.2] using Memory.wfFrom_filter (fun cell => decide (hi ≤ cell.1)) h.2
    · simpa [hk] using Memory.wfFrom_high hi h.2

/-- New values for a stretch of bytes keep the canonical form. -/
theorem Memory.wf_fill {m : Memory} (lo n : Nat) (g : Nat → Byte) (h : Memory.wf m = true) :
    Memory.wf (Memory.fill m lo n g) = true := by
  unfold Memory.fill Memory.wf
  rw [List.append_assoc]
  refine Memory.wfFrom_append (hi := lo) (Memory.wfFrom_filter _ h) (fun c hc => by simpa using (List.mem_filter.mp hc).2)
    (Nat.zero_le _) (Memory.wfFrom_append (hi := lo + n) (Memory.wfFrom_filled g n lo) (fun c hc => ?_) (Nat.le_add_right _ _)
      (Memory.wfFrom_high _ h))
  simp only [List.mem_map, List.mem_filter, List.mem_range'_1] at hc
  obtain ⟨a, ⟨ha, _⟩, rfl⟩ := hc
  exact ha.2

/-- What is read from two lists one after the other. -/
theorem Memory.read_append_absent {a : Nat} :
    ∀ {m m' : Memory}, (∀ cell ∈ m, cell.1 ≠ a) → Memory.read (m ++ m') a = Memory.read m' a
  | [], _, _ => rfl
  | (k, v) :: m, m', h => by
    have hk : k ≠ a := h (k, v) List.mem_cons_self
    simpa [Memory.read, hk] using Memory.read_append_absent fun c hc => h c (List.mem_cons_of_mem _ hc)

theorem Memory.read_filter {a : Nat} {p : Host.Cell → Bool} (hp : ∀ v, p (a, v) = true) :
    ∀ {m m' : Memory}, (∀ cell ∈ m', cell.1 ≠ a) → Memory.read (m.filter p ++ m') a = Memory.read m a
  | [], m', h => by simpa [Memory.read] using Memory.read_append_absent (m' := []) h
  | (k, v) :: m, m', h => by
    by_cases hk : k = a
    · subst hk; simp [hp, Memory.read]
    · have ih := Memory.read_filter hp (m := m) h
      by_cases hpk : p (k, v) <;> simpa [hpk, Memory.read, hk] using ih

/-- Outside the stretch every byte is as it was. -/
theorem Memory.read_fill_out {m : Memory} {lo n a : Nat} (g : Nat → Byte) (h : a < lo ∨ lo + n ≤ a) :
    Memory.read (Memory.fill m lo n g) a = Memory.read m a := by
  unfold Memory.fill
  have hmid : ∀ cell ∈ ((List.range' lo n).filter fun b => g b != Memory.blank).map (fun b => (b, g b)), cell.1 ≠ a := by
    intro c hc
    simp only [List.mem_map, List.mem_filter, List.mem_range'_1] at hc
    obtain ⟨b, ⟨hb, _⟩, rfl⟩ := hc
    omega
  rcases h with h | h
  · rw [List.append_assoc]
    refine Memory.read_filter (fun v => by simpa using h) fun c hc => ?_
    rcases List.mem_append.mp hc with hc | hc
    · exact hmid c hc
    · have := (List.mem_filter.mp hc).2
      simp only [decide_eq_true_eq] at this
      omega
  · rw [Memory.read_append_absent fun c hc => ?_]
    · simpa using Memory.read_filter (m := m) (m' := []) (p := fun cell => decide (lo + n ≤ cell.1))
        (fun v => by simpa using h) (by simp)
    · rcases List.mem_append.mp hc with hc | hc
      · have := (List.mem_filter.mp hc).2
        simp only [decide_eq_true_eq] at this
        omega
      · exact hmid c hc

/-! ### The reference device -/

@[simp] theorem Device.program_mem (d : Device) (t : Nat) (v : Byte) :
    (d.program t v).mem = Memory.write d.mem (t % d.cap) (Memory.read d.mem (t % d.cap) &&& v) := rfl

@[simp] theorem Device.startCycle_mem (d : Device) : d.startCycle.mem = d.mem := rfl

theorem Device.wf_program {d : Device} (h : Memory.wf d.mem = true) (t : Nat) (v : Byte) :
    Memory.wf (d.program t v).mem = true := Memory.wf_write _ _ h

theorem Device.wf_programPage (S a : Nat) :
    ∀ (vs : List Byte) (i : Nat) {d : Device}, Memory.wf d.mem = true →
      Memory.wf (Device.programPage S a i vs d).mem = true
  | [], _, _, h => h
  | v :: vs, i, _, h => Device.wf_programPage S a vs (i + 1) (Device.wf_program h _ v)

theorem Device.wf_eraseRegion {d : Device} (h : Memory.wf d.mem = true) (g : Nat) (a : Word) :
    Memory.wf (d.eraseRegion g a).mem = true := by
  unfold Device.eraseRegion
  split
  · exact Memory.wf_erase _ _ h
  · exact h

/-- Every reaction of the device keeps the canonical form. -/
theorem Device.wf_react (c : Config) {d : Device} (h : Memory.wf d.mem = true) (i : Instr) :
    Memory.wf (d.react c i).mem = true := by
  cases i <;> simp only [Device.react]
  case se4k a => exact Device.wf_eraseRegion h _ a
  case se4kPmc a => exact Device.wf_eraseRegion h _ a
  case be32k a => exact Device.wf_eraseRegion h _ a
  case be64k a => exact Device.wf_eraseRegion h _ a
  case pp a v => split <;> first | exact Device.wf_programPage _ _ v 0 h | exact h
  case aaiFirst a d0 d1 => split <;> first | exact Device.wf_program (Device.wf_program h _ d0) _ d1 | exact h
  case aaiNext d0 d1 => split <;> first | exact Device.wf_program (Device.wf_program h _ d0) _ d1 | exact h
  case ce => split <;> first | rfl | exact h
  case wrsr v => split <;> exact h
  case wrear v => split <;> exact h
  all_goals exact h

theorem Device.wf_deselect (c : Config) {d : Device} (h : Memory.wf d.mem = true) :
    Memory.wf (d.deselect c).mem = true := by
  simp only [Device.deselect]
  split
  · exact h
  · split
    · split <;> exact h
    · exact Device.wf_react c (d := { d with frame := [], rxCount := 0 }) h _

/-- Whatever reaches the device of a call, the array keeps its canonical form. -/
theorem Device.wf_take (c : Config) {d : Device} (h : Memory.wf d.mem = true) (took : Nat) (k : Call) :
    Memory.wf (d.take c took k).mem = true := by
  match k with
  | .chipSelect _ true => simp only [Device.take]; split <;> exact h
  | .chipSelect _ false => simp only [Device.take]; split <;> first | exact h | exact Device.wf_deselect c h
  | .writeOnly _ => exact h
  | .readOnly _ => exact h

theorem Memory.wf_writes (g : Nat → Byte) :
    ∀ (ts : List Nat) {m : Memory}, Memory.wf m = true →
      Memory.wf (ts.foldl (fun m t => Memory.write m t (g t)) m) = true
  | [], _, h => h
  | t :: ts, _, h => Memory.wf_writes g ts (Memory.wf_write t (g t) h)

/-- A free choice is one of its three values. -/
theorem freely_cases {α : Type} (k j : Nat) (whole old reached : α) :
    freely k j whole old reached = whole ∨ freely k j whole old reached = old ∨
      freely k j whole old reached = reached := by
  unfold freely
  split
  · exact .inl rfl
  · split
    · exact .inr (.inl rfl)
    · exact .inr (.inr rfl)

/-- A failing call keeps the canonical form. -/
theorem Device.wf_spoil (c : Config) (k : Nat) (d : Device) {d' : Device} (h : Memory.wf d'.mem = true) (i : Instr) :
    Memory.wf (d.spoil c k d' i).mem = true := by
  show Memory.wf (d.scramble c (Config.freeByte k) d'.mem i) = true
  cases i <;> first | exact h | exact Memory.wf_fill _ _ _ h | exact Memory.wf_writes _ _ h

theorem Env.wf_after (c : Config) {e : Env} (h : Memory.wf e.dev.mem = true) (k : Call) :
    Memory.wf (e.after c k).dev.mem = true := by
  simp only [Env.after]
  split
  · exact Device.wf_take c h _ k
  · exact h

theorem State.wf_envAfter {s : State} (h : Memory.wf s.env.dev.mem = true) (k : Call) :
    Memory.wf (s.envAfter k).dev.mem = true := by
  have ha := Env.wf_after s.config h k
  unfold State.envAfter
  dsimp only
  split
  · exact ha
  · split
    · exact ha
    · dsimp only
      split
      · exact Device.wf_spoil _ _ _ ha _
      · exact ha

/-! ### What a frame, or a failing call of one, leaves alone in the array -/

theorem Memory.read_writes_out {x : Nat} (g : Nat → Byte) :
    ∀ (ts : List Nat) {m : Memory}, x ∉ ts →
      Memory.read (ts.foldl (fun m t => Memory.write m t (g t)) m) x = Memory.read m x
  | [], _, _ => rfl
  | t :: ts, m, h => by
    simp only [List.mem_cons, not_or] at h
    exact (Memory.read_writes_out g ts h.2).trans (Memory.read_write_other h.1 _)

theorem Device.read_program_out {d : Device} {t x : Nat} (h : x ≠ t % d.cap) (v : Byte) :
    Memory.read (d.program t v).mem x = Memory.read d.mem x := Memory.read_write_other h _

theorem Device.read_programPage_out {S a x : Nat} :
    ∀ (vs : List Byte) (i : Nat) {d : Device},
      (∀ k < vs.length, x ≠ pageTarget S a (i + k) % d.cap) →
      Memory.read (Device.programPage S a i vs d).mem x = Memory.read d.mem x
  | [], _, _, _ => rfl
  | v :: vs, i, d, h => by
    rw [Device.programPage, Device.read_programPage_out vs (i + 1) fun k hk => by
      have := h (k + 1) (by simpa using hk)
      rwa [← Nat.add_assoc, Nat.add_right_comm] at this]
    exact Device.read_program_out (by simpa using h 0 (by simp)) v

theorem Device.inRegion_false {d : Device} {g : Nat} {a : Word} {x : Nat}
    (h : d.inRegion g a x = false) : x < d.regionStart g a ∨ d.regionStart g a + g ≤ x := by
  unfold Device.inRegion at h
  simp only [Bool.and_eq_false_iff, decide_eq_false_iff_not] at h
  omega

/-- The reaction to a frame changes only the bytes it stores to. -/
theorem Device.read_react_out {c : Config} {d : Device} {i : Instr} {x : Nat} (h : d.stores c i x = false) :
    Memory.read (d.react c i).mem x = Memory.read d.mem x := by
  have region : ∀ g a, d.inRegion g a x = false →
      Memory.read (d.eraseRegion g a).mem x = Memory.read d.mem x := by
    intro g a hx
    unfold Device.eraseRegion
    split
    · exact Memory.read_erase_out (Device.inRegion_false hx)
    · rfl
  cases i with
  | se4k a => exact region _ a h
  | se4kPmc a => exact region _ a h
  | be32k a => exact region _ a h
  | be64k a => exact region _ a h
  | pp a v =>
    simp only [Device.react]
    split
    · refine Device.read_programPage_out v 0 fun k hk he => ?_
      have := List.any_eq_false.mp h k (List.mem_range.mpr hk)
      simp only [Nat.zero_add] at he
      simp [he] at this
    · rfl
  | aaiFirst a d0 d1 =>
    simp only [Device.stores, Bool.or_eq_false_iff, beq_eq_false_iff_ne] at h
    simp only [Device.react]
    split
    · exact (Device.read_program_out (d := d.program (d.phys a) d0) h.2 d1).trans (Device.read_program_out h.1 d0)
    · rfl
  | aaiNext d0 d1 =>
    simp only [Device.stores, Bool.or_eq_false_iff, beq_eq_false_iff_ne] at h
    simp only [Device.react]
    split
    · exact (Device.read_program_out (d := d.program d.aaiAddr.toNat d0) h.2 d1).trans (Device.read_program_out h.1 d0)
    · rfl
  | ce => exact absurd (show true = false from h) (by decide)
  | wrsr v => simp only [Device.react]; split <;> rfl
  | wrear v => simp only [Device.react]; split <;> rfl
  | probe | getsize | read | erase | chiperase | write | reserved67 | rdid | wren | wrdi | rdsr | en4b | ex4b | brwr
  | exhb | readFrame => rfl

/-- A failing call of a frame gives new values only to the bytes the frame stores to. -/
theorem Device.read_scramble_out {c : Config} {d : Device} {i : Instr} {x : Nat} (g : Nat → Byte) (m : Memory)
    (h : d.stores c i x = false) : Memory.read (d.scramble c g m i) x = Memory.read m x := by
  cases i with
  | se4k a => exact Memory.read_fill_out g (Device.inRegion_false h)
  | se4kPmc a => exact Memory.read_fill_out g (Device.inRegion_false h)
  | be32k a => exact Memory.read_fill_out g (Device.inRegion_false h)
  | be64k a => exact Memory.read_fill_out g (Device.inRegion_false h)
  | pp a v =>
    refine Memory.read_writes_out g _ fun hm => ?_
    obtain ⟨k, hk, rfl⟩ := List.mem_map.mp hm
    have := List.any_eq_false.mp h k hk
    simp at this
  | aaiFirst a d0 d1 =>
    exact Memory.read_writes_out g _ (by simpa [Device.stores] using h)
  | aaiNext d0 d1 =>
    exact Memory.read_writes_out g _ (by simpa [Device.stores] using h)
  | ce => exact absurd (show true = false from h) (by decide)
  | probe | getsize | read | erase | chiperase | write | reserved67 | rdid | wren | wrdi | rdsr | wrsr | en4b | ex4b
  | brwr | exhb | wrear | readFrame => rfl

end Sys2Proof.Machine
end

