-- ==== Sys2Proof/Laws/State.lean ====
section
/-! SUPPORT. The small lemmas of the state updates: one lemma per field per update, each true by `rfl`, so that
no proof unfolds a record update. -/

namespace Sys2Proof.Machine

/-! ### `State.emit` -/

@[simp] theorem State.emit_config (s : State) (e : Event) : (s.emit e).config = s.config := rfl
@[simp] theorem State.emit_probed (s : State) (e : Event) : (s.emit e).probed = s.probed := rfl
@[simp] theorem State.emit_cfg (s : State) (e : Event) : (s.emit e).cfg = s.cfg := rfl
@[simp] theorem State.emit_seq (s : State) (e : Event) : (s.emit e).seq = s.seq := rfl
@[simp] theorem State.emit_work (s : State) (e : Event) : (s.emit e).work = s.work := rfl
@[simp] theorem State.emit_resp (s : State) (e : Event) : (s.emit e).resp = s.resp := rfl
@[simp] theorem State.emit_host (s : State) (e : Event) : (s.emit e).host = s.host := rfl
@[simp] theorem State.emit_resetPin (s : State) (e : Event) : (s.emit e).resetPin = s.resetPin := rfl
@[simp] theorem State.emit_env (s : State) (e : Event) : (s.emit e).env = s.env := rfl
@[simp] theorem State.emit_trace (s : State) (e : Event) : (s.emit e).trace = s.trace ++ [e] := rfl

/-! ### `State.progress` -/

@[simp] theorem State.progress_config (s : State) (a b : Nat) : (s.progress a b).config = s.config := rfl
@[simp] theorem State.progress_probed (s : State) (a b : Nat) : (s.progress a b).probed = s.probed := rfl
@[simp] theorem State.progress_cfg (s : State) (a b : Nat) : (s.progress a b).cfg = s.cfg := rfl
@[simp] theorem State.progress_seq (s : State) (a b : Nat) : (s.progress a b).seq = s.seq := rfl
@[simp] theorem State.progress_work (s : State) (a b : Nat) : (s.progress a b).work = s.work := rfl
@[simp] theorem State.progress_resp (s : State) (a b : Nat) : (s.progress a b).resp = s.resp := rfl
@[simp] theorem State.progress_host (s : State) (a b : Nat) : (s.progress a b).host = s.host := rfl
@[simp] theorem State.progress_resetPin (s : State) (a b : Nat) : (s.progress a b).resetPin = s.resetPin := rfl
@[simp] theorem State.progress_env (s : State) (a b : Nat) : (s.progress a b).env = s.env := rfl
@[simp] theorem State.progress_trace (s : State) (a b : Nat) : (s.progress a b).trace = s.trace ++ [.progress (percent a b)] := rfl

/-! ### `State.called` -/

@[simp] theorem State.called_config (s : State) (c : Call) : (s.called c).config = s.config := rfl
@[simp] theorem State.called_probed (s : State) (c : Call) : (s.called c).probed = s.probed := rfl
@[simp] theorem State.called_cfg (s : State) (c : Call) : (s.called c).cfg = s.cfg := rfl
@[simp] theorem State.called_seq (s : State) (c : Call) : (s.called c).seq = s.seq := rfl
@[simp] theorem State.called_work (s : State) (c : Call) : (s.called c).work = s.work := rfl
@[simp] theorem State.called_resp (s : State) (c : Call) : (s.called c).resp = s.resp := rfl
@[simp] theorem State.called_host (s : State) (c : Call) : (s.called c).host = s.host := rfl
@[simp] theorem State.called_resetPin (s : State) (c : Call) : (s.called c).resetPin = s.resetPin := rfl
@[simp] theorem State.called_env (s : State) (c : Call) : (s.called c).env = s.envAfter c := rfl
@[simp] theorem State.called_trace (s : State) (c : Call) : (s.called c).trace = s.trace ++ [.call c (s.answer c)] := rfl

/-! ### `State.raise` -/

@[simp] theorem State.raise_config (s : State) (q : Instr) (e : Status) : (s.raise q e).config = s.config := rfl
@[simp] theorem State.raise_probed (s : State) (q : Instr) (e : Status) : (s.raise q e).probed = s.probed := rfl
@[simp] theorem State.raise_cfg (s : State) (q : Instr) (e : Status) : (s.raise q e).cfg = s.cfg := rfl
@[simp] theorem State.raise_seq (s : State) (q : Instr) (e : Status) : (s.raise q e).seq = .idle := rfl
@[simp] theorem State.raise_work (s : State) (q : Instr) (e : Status) : (s.raise q e).work = s.work := rfl
@[simp] theorem State.raise_resp (s : State) (q : Instr) (e : Status) : (s.raise q e).resp = some ⟨e, Config.freeSize s.env.draws, failedOut s q⟩ := rfl
@[simp] theorem State.raise_host (s : State) (q : Instr) (e : Status) : (s.raise q e).host = s.host := rfl
@[simp] theorem State.raise_resetPin (s : State) (q : Instr) (e : Status) : (s.raise q e).resetPin = s.resetPin := rfl
@[simp] theorem State.raise_trace (s : State) (q : Instr) (e : Status) :
    (s.raise q e).trace = s.trace ++ [.response ⟨e, Config.freeSize s.env.draws, failedOut s q⟩] := rfl
@[simp] theorem State.raise_env_cs (s : State) (q : Instr) (e : Status) : (s.raise q e).env.cs = s.env.cs := rfl
@[simp] theorem State.raise_env_script (s : State) (q : Instr) (e : Status) : (s.raise q e).env.script = s.env.script := rfl
@[simp] theorem State.raise_env_attached (s : State) (q : Instr) (e : Status) : (s.raise q e).env.attached = s.env.attached := rfl
@[simp] theorem State.raise_env_dev (s : State) (q : Instr) (e : Status) : (s.raise q e).env.dev = s.env.dev := rfl
@[simp] theorem State.raise_env_draws (s : State) (q : Instr) (e : Status) : (s.raise q e).env.draws = s.env.draws + 1 := rfl

/-! ### `State.returnOk` -/

@[simp] theorem State.returnOk_config (s : State) (q : Instr) : (s.returnOk q).config = s.config := rfl
@[simp] theorem State.returnOk_probed (s : State) (q : Instr) : (s.returnOk q).probed = s.probed := rfl
@[simp] theorem State.returnOk_cfg (s : State) (q : Instr) : (s.returnOk q).cfg = s.cfg := rfl
@[simp] theorem State.returnOk_seq (s : State) (q : Instr) : (s.returnOk q).seq = .idle := rfl
@[simp] theorem State.returnOk_work (s : State) (q : Instr) : (s.returnOk q).work = s.work := rfl
@[simp] theorem State.returnOk_resp (s : State) (q : Instr) : (s.returnOk q).resp = some ⟨.ok, Config.freeSize s.env.draws, okOut s q⟩ := rfl
@[simp] theorem State.returnOk_host (s : State) (q : Instr) : (s.returnOk q).host = s.host := rfl
@[simp] theorem State.returnOk_resetPin (s : State) (q : Instr) : (s.returnOk q).resetPin = s.resetPin := rfl
@[simp] theorem State.returnOk_trace (s : State) (q : Instr) :
    (s.returnOk q).trace = s.trace ++ [.response ⟨.ok, Config.freeSize s.env.draws, okOut s q⟩] := rfl
@[simp] theorem State.returnOk_env_cs (s : State) (q : Instr) : (s.returnOk q).env.cs = s.env.cs := rfl
@[simp] theorem State.returnOk_env_script (s : State) (q : Instr) : (s.returnOk q).env.script = s.env.script := rfl
@[simp] theorem State.returnOk_env_attached (s : State) (q : Instr) : (s.returnOk q).env.attached = s.env.attached := rfl
@[simp] theorem State.returnOk_env_dev (s : State) (q : Instr) : (s.returnOk q).env.dev = s.env.dev := rfl
@[simp] theorem State.returnOk_env_draws (s : State) (q : Instr) : (s.returnOk q).env.draws = s.env.draws + 1 := rfl

/-! ### `State.respond` -/

@[simp] theorem State.respond_config (s : State) (e : Status) (z : Option Word) (o : Option (List Byte)) : (s.respond e z o).config = s.config := rfl
@[simp] theorem State.respond_probed (s : State) (e : Status) (z : Option Word) (o : Option (List Byte)) : (s.respond e z o).probed = s.probed := rfl
@[simp] theorem State.respond_cfg (s : State) (e : Status) (z : Option Word) (o : Option (List Byte)) : (s.respond e z o).cfg = s.cfg := rfl
@[simp] theorem State.respond_seq (s : State) (e : Status) (z : Option Word) (o : Option (List Byte)) : (s.respond e z o).seq = .idle := rfl
@[simp] theorem State.respond_work (s : State) (e : Status) (z : Option Word) (o : Option (List Byte)) : (s.respond e z o).work = s.work := rfl
@[simp] theorem State.respond_resp (s : State) (e : Status) (z : Option Word) (o : Option (List Byte)) : (s.respond e z o).resp = some ⟨e, z.getD (Config.freeSize s.env.draws), o⟩ := rfl
@[simp] theorem State.respond_host (s : State) (e : Status) (z : Option Word) (o : Option (List Byte)) : (s.respond e z o).host = s.host := rfl
@[simp] theorem State.respond_resetPin (s : State) (e : Status) (z : Option Word) (o : Option (List Byte)) : (s.respond e z o).resetPin = s.resetPin := rfl
@[simp] theorem State.respond_trace (s : State) (e : Status) (z : Option Word) (o : Option (List Byte)) :
    (s.respond e z o).trace = s.trace ++ [.response ⟨e, z.getD (Config.freeSize s.env.draws), o⟩] := rfl
@[simp] theorem State.respond_env_cs (s : State) (e : Status) (z : Option Word) (o : Option (List Byte)) : (s.respond e z o).env.cs = s.env.cs := rfl
@[simp] theorem State.respond_env_script (s : State) (e : Status) (z : Option Word) (o : Option (List Byte)) : (s.respond e z o).env.script = s.env.script := rfl
@[simp] theorem State.respond_env_attached (s : State) (e : Status) (z : Option Word) (o : Option (List Byte)) : (s.respond e z o).env.attached = s.env.attached := rfl
@[simp] theorem State.respond_env_dev (s : State) (e : Status) (z : Option Word) (o : Option (List Byte)) : (s.respond e z o).env.dev = s.env.dev := rfl
@[simp] theorem State.respond_env_draws (s : State) (e : Status) (z : Option Word) (o : Option (List Byte)) : (s.respond e z o).env.draws = s.env.draws + 1 := rfl

/-! ### `State.commit` -/

@[simp] theorem State.commit_config (s : State) (i : Nat) (d : Descriptor) : (s.commit i d).config = s.config := rfl
@[simp] theorem State.commit_probed (s : State) (i : Nat) (d : Descriptor) : (s.commit i d).probed = true := rfl
@[simp] theorem State.commit_cfg (s : State) (i : Nat) (d : Descriptor) : (s.commit i d).cfg = some (derive s.config i d) := rfl
@[simp] theorem State.commit_seq (s : State) (i : Nat) (d : Descriptor) : (s.commit i d).seq = s.seq := rfl
@[simp] theorem State.commit_work (s : State) (i : Nat) (d : Descriptor) : (s.commit i d).work = s.work := rfl
@[simp] theorem State.commit_resp (s : State) (i : Nat) (d : Descriptor) : (s.commit i d).resp = s.resp := rfl
@[simp] theorem State.commit_host (s : State) (i : Nat) (d : Descriptor) : (s.commit i d).host = s.host := rfl
@[simp] theorem State.commit_resetPin (s : State) (i : Nat) (d : Descriptor) : (s.commit i d).resetPin = s.resetPin := rfl
@[simp] theorem State.commit_env (s : State) (i : Nat) (d : Descriptor) : (s.commit i d).env = s.env := rfl
@[simp] theorem State.commit_trace (s : State) (i : Nat) (d : Descriptor) : (s.commit i d).trace = s.trace ++ [.report d.name d.capacity (deriveEraseGran s.config d)] := rfl

/-! ### `State.sending` -/

@[simp] theorem State.sending_config (s : State) (q f : Instr) (ts : List Task) : (s.sending q f ts).config = s.config := rfl
@[simp] theorem State.sending_probed (s : State) (q f : Instr) (ts : List Task) : (s.sending q f ts).probed = s.probed := rfl
@[simp] theorem State.sending_cfg (s : State) (q f : Instr) (ts : List Task) : (s.sending q f ts).cfg = s.cfg := rfl
@[simp] theorem State.sending_seq (s : State) (q f : Instr) (ts : List Task) : (s.sending q f ts).seq = .running ⟨q, f, 0, ts⟩ := rfl
@[simp] theorem State.sending_work (s : State) (q f : Instr) (ts : List Task) : (s.sending q f ts).work = s.work := rfl
@[simp] theorem State.sending_resp (s : State) (q f : Instr) (ts : List Task) : (s.sending q f ts).resp = s.resp := rfl
@[simp] theorem State.sending_host (s : State) (q f : Instr) (ts : List Task) : (s.sending q f ts).host = s.host := rfl
@[simp] theorem State.sending_resetPin (s : State) (q f : Instr) (ts : List Task) : (s.sending q f ts).resetPin = s.resetPin := rfl
@[simp] theorem State.sending_env (s : State) (q f : Instr) (ts : List Task) : (s.sending q f ts).env = s.env := rfl
@[simp] theorem State.sending_trace (s : State) (q f : Instr) (ts : List Task) : (s.sending q f ts).trace = s.trace := rfl

/-! ### `State.onReset` -/

@[simp] theorem State.onReset_config (s : State) : (s.onReset).config = s.config := rfl
@[simp] theorem State.onReset_probed (s : State) : (s.onReset).probed = false := rfl
@[simp] theorem State.onReset_cfg (s : State) : (s.onReset).cfg = none := rfl
@[simp] theorem State.onReset_seq (s : State) : (s.onReset).seq = .idle := rfl
@[simp] theorem State.onReset_work (s : State) : (s.onReset).work = Work.zero := rfl
@[simp] theorem State.onReset_resp (s : State) : (s.onReset).resp = none := rfl
@[simp] theorem State.onReset_host (s : State) : (s.onReset).host = s.host := rfl
@[simp] theorem State.onReset_resetPin (s : State) : (s.onReset).resetPin = false := rfl
@[simp] theorem State.onReset_env (s : State) : (s.onReset).env = s.env := rfl
@[simp] theorem State.onReset_trace (s : State) : (s.onReset).trace = s.trace := rfl

/-! ### `State.accepted` -/

@[simp] theorem State.accepted_config (s : State) : s.accepted.config = s.config := rfl
@[simp] theorem State.accepted_probed (s : State) : s.accepted.probed = s.probed := rfl
@[simp] theorem State.accepted_cfg (s : State) : s.accepted.cfg = s.cfg := rfl
@[simp] theorem State.accepted_seq (s : State) : s.accepted.seq = s.seq := rfl
@[simp] theorem State.accepted_work (s : State) : s.accepted.work = s.work := rfl
@[simp] theorem State.accepted_resp (s : State) : s.accepted.resp = none := rfl
@[simp] theorem State.accepted_host (s : State) : s.accepted.host = s.host := rfl
@[simp] theorem State.accepted_resetPin (s : State) : s.accepted.resetPin = s.resetPin := rfl
@[simp] theorem State.accepted_env (s : State) : s.accepted.env = s.env := rfl
@[simp] theorem State.accepted_trace (s : State) : s.accepted.trace = s.trace := rfl
@[simp] theorem State.accepted_probedDevice (s : State) : s.accepted.probedDevice = s.probedDevice := rfl
@[simp] theorem State.accepted_cfgOk (s : State) : s.accepted.cfgOk = s.cfgOk := rfl

/-! ### `Env.after` -/

@[simp] theorem Env.after_cs (c : Config) (e : Env) (k : Call) :
    (e.after c k).cs = e.csAfter (e.answer c k).2 k := rfl
@[simp] theorem Env.after_script (c : Config) (e : Env) (k : Call) : (e.after c k).script = e.script.tail := rfl
@[simp] theorem Env.after_attached (c : Config) (e : Env) (k : Call) : (e.after c k).attached = e.attached := rfl
@[simp] theorem Env.after_dev (c : Config) (e : Env) (k : Call) :
    (e.after c k).dev = if e.attached then e.dev.take c (e.answer c k).2 k else e.dev := rfl
@[simp] theorem Env.after_draws (c : Config) (e : Env) (k : Call) : (e.after c k).draws = e.draws + 1 := rfl

/-! ### `State.envAfter`: a failing call is uncertain about the device only -/

@[simp] theorem State.envAfter_cs (s : State) (k : Call) : (s.envAfter k).cs = (s.env.after s.config k).cs := by
  unfold State.envAfter; dsimp only; split <;> (try split) <;> rfl
@[simp] theorem State.envAfter_script (s : State) (k : Call) : (s.envAfter k).script = s.env.script.tail := by
  unfold State.envAfter; dsimp only; split <;> (try split) <;> rfl
@[simp] theorem State.envAfter_attached (s : State) (k : Call) : (s.envAfter k).attached = s.env.attached := by
  unfold State.envAfter; dsimp only; split <;> (try split) <;> rfl
@[simp] theorem State.envAfter_draws (s : State) (k : Call) : (s.envAfter k).draws = s.env.draws + 1 := by
  unfold State.envAfter; dsimp only; split <;> (try split) <;> rfl

/-- A call that succeeds leaves the environment as the environment's own rule has it. -/
theorem State.envAfter_ok {s : State} {k : Call} {bytes : List Byte} (h : s.answer k = .ok bytes) :
    s.envAfter k = s.env.after s.config k := by
  unfold State.envAfter; rw [h]

/-- A call of a running request that fails leaves the device uncertain in what the frame acts on. -/
theorem State.envAfter_fail_dev {s : State} {k : Call} {r : Running} (h : s.answer k = .fail)
    (hs : s.seq = .running r) : (s.envAfter k).dev =
      if s.env.attached then s.env.dev.spoil s.config s.env.draws (s.env.after s.config k).dev r.frame
      else (s.env.after s.config k).dev := by
  unfold State.envAfter; rw [h, hs]; rfl

/-! ### A configuration that runs -/

/-- The step runs with the source's numbers only (R8). -/
theorem configRuns_fixed {c : Config} (h : configRuns c = true) : c.fixed = FixedNumbers.source := by
  simp only [configRuns, Bool.and_eq_true, decide_eq_true_eq] at h
  exact h.1.1

theorem configRuns_pageSize {c : Config} (h : configRuns c = true) : 1 ≤ c.pageSize := by
  simp only [configRuns, Bool.and_eq_true, decide_eq_true_eq] at h
  exact h.2

/-! ### `callsOf` -/

@[simp] theorem callsOf_nil : callsOf [] = [] := rfl

@[simp] theorem callsOf_call (c : Call) (a : Answer) (es : List Event) :
    callsOf (.call c a :: es) = c :: callsOf es := rfl

@[simp] theorem callsOf_progress (n : Nat) (es : List Event) : callsOf (.progress n :: es) = callsOf es := rfl

@[simp] theorem callsOf_report (n : String) (a b : Word) (es : List Event) :
    callsOf (.report n a b :: es) = callsOf es := rfl

@[simp] theorem callsOf_response (r : Response) (es : List Event) : callsOf (.response r :: es) = callsOf es := rfl

@[simp] theorem callsOf_append (a b : List Event) : callsOf (a ++ b) = callsOf a ++ callsOf b := by
  induction a with
  | nil => rfl
  | cons e es ih => cases e <;> simp [ih]

end Sys2Proof.Machine
end

