-- ==== Sys2Proof/Laws/Sequencer.lean ====
section
/-! SUPPORT. What the sequencer's shared operations can do, said once each: the lines of the pseudocode
(`react`), the run down to the next frame (`settle`), one call of a frame (`playFrame`), the acceptance of a
request (`accept`, `withProbed`) and the step. -/

namespace Sys2Proof.Machine

/-! ### What the block's own work leaves alone -/

/-- From `s` to `t` the block has done lines of its pseudocode only: no transport call, and nothing outside
its own registers has changed; of those, the last status byte, the identification, the received bytes and the
output vector stay. -/
structure State.Worked (s t : State) : Prop where
  config : t.config = s.config
  host : t.host = s.host
  resetPin : t.resetPin = s.resetPin
  env : t.env = s.env
  resp : t.resp = s.resp
  seq : t.seq = s.seq
  sr : t.work.sr = s.work.sr
  id : t.work.id = s.work.id
  rx : t.work.rx = s.work.rx
  out : t.work.out = s.work.out
  trace : ∃ more, t.trace = s.trace ++ more ∧ callsOf more = []

theorem State.Worked.refl (s : State) : State.Worked s s :=
  ⟨rfl, rfl, rfl, rfl, rfl, rfl, rfl, rfl, rfl, rfl, [], by simp, rfl⟩

theorem State.Worked.trans {s t u : State} (h : State.Worked s t) (k : State.Worked t u) : State.Worked s u := by
  obtain ⟨m, hm, cm⟩ := h.trace
  obtain ⟨m', hm', cm'⟩ := k.trace
  exact ⟨k.config.trans h.config, k.host.trans h.host, k.resetPin.trans h.resetPin, k.env.trans h.env,
    k.resp.trans h.resp, k.seq.trans h.seq, k.sr.trans h.sr, k.id.trans h.id, k.rx.trans h.rx, k.out.trans h.out,
    m ++ m', by simp [hm', hm], by simp [cm, cm']⟩

/-- Writing working registers is the block's own work. -/
theorem State.Worked.work (s : State) (a n p q : Word) :
    State.Worked s { s with work := { s.work with a := a, n := n, p := p, q := q } } :=
  ⟨rfl, rfl, rfl, rfl, rfl, rfl, rfl, rfl, rfl, rfl, [], by simp, rfl⟩

/-- So is a progress event. -/
theorem State.Worked.progress (s : State) (a b : Nat) : State.Worked s (s.progress a b) :=
  ⟨rfl, rfl, rfl, rfl, rfl, rfl, rfl, rfl, rfl, rfl, [.progress (percent a b)], by simp, rfl⟩

/-- So is the commit of `PROBE`. -/
theorem State.Worked.commit (s : State) (i : Nat) (d : Descriptor) : State.Worked s (s.commit i d) :=
  ⟨rfl, rfl, rfl, rfl, rfl, rfl, rfl, rfl, rfl, rfl, [.report d.name d.capacity (deriveEraseGran s.config d)], by simp, rfl⟩

/-- The state a line of the pseudocode leads to, when it does not stop. -/
def Reaction.stateOf : Reaction → Option State
  | .raise _ s => some s
  | .fall s => some s
  | .send s _ _ => some s
  | .fault _ => none

@[simp] theorem Reaction.stateOf_raise (e : Status) (s : State) : (Reaction.raise e s).stateOf = some s := rfl
@[simp] theorem Reaction.stateOf_fall (s : State) : (Reaction.fall s).stateOf = some s := rfl
@[simp] theorem Reaction.stateOf_send (s : State) (f : Instr) (ts : List Task) :
    (Reaction.send s f ts).stateOf = some s := rfl
@[simp] theorem Reaction.stateOf_fault (r : Fault) : (Reaction.fault r).stateOf = none := rfl

theorem sendAll_state (s : State) (fs : List Instr) : (sendAll s fs).stateOf = some s := by
  cases fs <;> rfl

theorem withCfg_worked {s u : State} {k : FlashConfig → Descriptor → Reaction}
    (hk : ∀ f d, ∀ t, (k f d).stateOf = some t → State.Worked s t)
    (h : (withCfg s k).stateOf = some u) : State.Worked s u := by
  unfold withCfg at h
  split at h
  · exact hk _ _ _ h
  · cases h

theorem eraseLoop_worked {s u : State} {f : FlashConfig} {total : Word}
    (h : (eraseLoop s f total).stateOf = some u) : u = s := by
  unfold eraseLoop at h
  split at h <;> simpa using h.symm

theorem pageLoop_worked {s u : State} {data : List Byte} (h : (pageLoop s data).stateOf = some u) : u = s := by
  unfold pageLoop programChunk at h
  dsimp only at h
  split at h <;> simpa using h.symm

theorem aaiLoop_worked {s u : State} {data : List Byte} (h : (aaiLoop s data).stateOf = some u) : u = s := by
  unfold aaiLoop at h
  dsimp only at h
  split at h <;> simpa using h.symm

/-- Every line of the pseudocode is the block's own work. -/
theorem react_worked {req : Instr} {s u : State} {t : Task} (h : (react req s t).stateOf = some u) :
    State.Worked s u := by
  cases t with
  | send f => cases h; exact .refl s
  | identify =>
    simp only [react, identify] at h
    split at h
    · cases h; exact .refl s
    · split at h
      · cases h; exact .refl s
      · split at h
        · cases h; exact .refl s
        · split at h
          · cases h; exact .refl s
          · cases h; exact .commit ..
  | clearBp m =>
    simp only [react, clearBp] at h
    split at h <;> cases h <;> exact .refl s
  | commit i =>
    simp only [react, commitLine] at h
    split at h
    · cases h; exact .commit ..
    · cases h
  | pollTest k =>
    simp only [react, pollTest] at h
    split at h
    · split at h <;> cases h <;> exact .refl s
    · cases h; exact .refl s
  | setMode en =>
    simp only [react, setModeLine] at h
    refine withCfg_worked (fun f d t ht => ?_) h
    rw [sendAll_state] at ht
    cases ht
    exact .refl s
  | eraseBegin addr len =>
    simp only [react, eraseBegin] at h
    refine withCfg_worked (fun f d t ht => ?_) h
    rw [eraseLoop_worked ht]
    exact .work ..
  | eraseNext total =>
    simp only [react, eraseNext] at h
    refine withCfg_worked (fun f d t ht => ?_) h
    rw [eraseLoop_worked ht]
    exact (State.Worked.work ..).trans (.progress ..)
  | pageBegin addr len =>
    rw [pageLoop_worked h]
    exact .work ..
  | pageNext c =>
    rw [pageLoop_worked h]
    exact (State.Worked.work ..).trans (.progress ..)
  | aaiBegin addr len =>
    simp only [react, aaiBegin, programChunk] at h
    split at h <;> cases h <;> exact .work ..
  | aaiLead => cases h; exact .work ..
  | aaiLoop =>
    rw [aaiLoop_worked h]
    exact .refl s
  | aaiNext =>
    rw [aaiLoop_worked h]
    dsimp only
    split
    · exact (State.Worked.work ..).trans (.progress ..)
    · exact .work ..
  | aaiTail =>
    simp only [react, aaiTail, programChunk] at h
    split at h <;> cases h <;> exact .refl s

/-- Running the pseudocode down ends in one of four ways: the request returns `Ok`, it ends with an error, a
frame is next, or a line reads `CFG` where there is none. -/
theorem settle_cases (req : Instr) (ts : List Task) (s : State) :
    (∃ u, State.Worked s u ∧
      (settle req ts s = .next (u.returnOk req) ∨ (∃ e, settle req ts s = .next (u.raise req e)) ∨
        ∃ f us, settle req ts s = .next (u.sending req f us))) ∨
    settle req ts s = .fault .cfgAbsent := by
  induction ts generalizing s with
  | nil => exact .inl ⟨s, .refl s, .inl rfl⟩
  | cons t ts ih =>
    have hw : ∀ u, (react req s t).stateOf = some u → State.Worked s u := fun u hu => react_worked hu
    simp only [settle]
    cases hr : react req s t with
    | raise e u => exact .inl ⟨u, hw u (by rw [hr]; rfl), .inr (.inl ⟨e, rfl⟩)⟩
    | send u f us => exact .inl ⟨u, hw u (by rw [hr]; rfl), .inr (.inr ⟨f, _, rfl⟩)⟩
    | fault r => cases r; exact .inr rfl
    | fall u =>
      have hsu := hw u (by rw [hr]; rfl)
      rcases ih u with ⟨v, huv, hv⟩ | hf
      · exact .inl ⟨v, hsu.trans huv, hv⟩
      · exact .inr hf

/-! ### One call of a frame -/

/-- Out of `IDLE` a frame is refused. -/
theorem playFrame_idle {tx : List Byte} {rxs : List Nat} {got : Call → List Byte → State → State}
    {done : State → State} {s : State} (h : s.seq = .idle) :
    playFrame tx rxs got done s = .refused .notRunning := by
  unfold playFrame
  rw [h]

/-- A call that fails ends the request with `TransportFailure`, whichever call of the frame it is. -/
theorem playFrame_fail {tx : List Byte} {rxs : List Nat} {got : Call → List Byte → State → State}
    {done : State → State} {s : State} {r : Running} (h : s.seq = .running r)
    (hf : s.answer (frameCall s.config.csLine.val tx rxs r.beat) = .fail) :
    playFrame tx rxs got done s =
      .next ((s.called (frameCall s.config.csLine.val tx rxs r.beat)).raise r.req .transportFailure) := by
  unfold playFrame
  simp only [h, hf]
  split <;> rfl

/-- A call before the last that succeeds moves to the next call of the frame. -/
theorem playFrame_more {tx : List Byte} {rxs : List Nat} {got : Call → List Byte → State → State}
    {done : State → State} {s : State} {r : Running} {bytes : List Byte} (h : s.seq = .running r)
    (hb : r.beat < lastBeat rxs) (ha : s.answer (frameCall s.config.csLine.val tx rxs r.beat) = .ok bytes) :
    playFrame tx rxs got done s =
      .next { got (frameCall s.config.csLine.val tx rxs r.beat) bytes
                (s.called (frameCall s.config.csLine.val tx rxs r.beat)) with
              seq := .running { r with beat := r.beat + 1 } } := by
  unfold playFrame
  simp only [h, ha, hb, if_true]

/-- The closing chip-select deassert, when it succeeds, ends the frame: the lines that follow are run. -/
theorem playFrame_last {tx : List Byte} {rxs : List Nat} {got : Call → List Byte → State → State}
    {done : State → State} {s : State} {r : Running} {bytes : List Byte} (h : s.seq = .running r)
    (hb : lastBeat rxs ≤ r.beat) (ha : s.answer (frameCall s.config.csLine.val tx rxs r.beat) = .ok bytes) :
    playFrame tx rxs got done s =
      settle r.req r.rest (done (s.called (frameCall s.config.csLine.val tx rxs r.beat))) := by
  unfold playFrame
  simp only [h, ha, Nat.not_lt.mpr hb, if_false]

/-! ### The transport -/

/-- With a reply in store the call succeeds, on any line that exists, and the reply is used up. -/
theorem State.answer_reply {s : State} {call : Call} {bytes : List Byte} {more : List Scripted}
    (h : s.env.script = .reply bytes :: more) (hl : call.badLine s.config = false) :
    s.answer call = .ok (completeBytes s.env.draws call.rxLen bytes) := by
  simp [State.answer, Env.answer, h, hl]

/-- With a failure in store the call fails. -/
theorem State.answer_fail {s : State} {call : Call} {took : Nat} {more : List Scripted}
    (h : s.env.script = .fail took :: more) : s.answer call = .fail := by
  unfold State.answer Env.answer
  simp only [h]
  split <;> rfl

/-- The block's own calls are on a line that exists (R54). -/
theorem frameCall_badLine {c : Config} (hc : c.fixed = FixedNumbers.source) (tx : List Byte) (rxs : List Nat)
    (beat : Nat) : (frameCall c.csLine.val tx rxs beat).badLine c = false := by
  have h : ¬ c.fixed.csLines ≤ c.csLine.val := by rw [hc]; exact Nat.not_le.mpr c.csLine.isLt
  unfold frameCall
  split
  · simp [Call.badLine, h]
  · rfl
  · split
    · rfl
    · simp [Call.badLine, h]

/-- An answer has exactly as many bytes as the call asked for (R54). -/
theorem completeBytes_length (k n : Nat) (given : List Byte) : (completeBytes k n given).length = n := by
  simp [completeBytes]

/-! ### The step -/

/-- A host request out of `IDLE` is refused. -/
theorem accept_running {s : State} {r : Running} (h : s.seq = .running r) (k : State → Result) :
    accept s k = .refused .notIdle := by
  unfold accept
  rw [h]

/-- A host request in `IDLE` is accepted, the response before it gone. -/
theorem accept_idle {s : State} (h : s.seq = .idle) (k : State → Result) :
    accept s k = k s.accepted := by
  unfold accept
  rw [h]

/-- Before a probe a request that needs one ends with `NotProbed` (R260). -/
theorem withProbed_no {req : Instr} {s : State} {k : FlashConfig → Descriptor → Result} (h : s.probed = false) :
    withProbed req s k = .next (s.raise req .notProbed) := by
  simp [withProbed, h]

/-- After it the request's own lines run with `CFG` and the descriptor. -/
theorem withProbed_yes {req : Instr} {s : State} {k : FlashConfig → Descriptor → Result} {f : FlashConfig}
    {d : Descriptor} (h : s.probed = true) (hd : s.probedDevice = some (f, d)) : withProbed req s k = k f d := by
  simp [withProbed, h, hd]

/-- Everything a step can do. -/
theorem step_cases (s : State) :
    (s.resetPin = true ∧ step s = .next s.onReset) ∨
    (s.resetPin = false ∧ configRuns s.config = false ∧ step s = .refused .badConfig) ∨
    (s.resetPin = false ∧ configRuns s.config = true ∧
      ((s.fetch = .wait ∧ step s = .next s) ∨ (s.fetch = .bad ∧ step s = .refused .badRecord) ∨
        ∃ i t, s.fetch = .run i t ∧ step s = exec i t)) := by
  unfold step
  cases hp : s.resetPin
  · cases hc : configRuns s.config
    · exact .inr (.inl ⟨rfl, rfl, by simp⟩)
    · refine .inr (.inr ⟨rfl, rfl, ?_⟩)
      cases hf : s.fetch with
      | wait => exact .inl ⟨rfl, by simp⟩
      | bad => exact .inr (.inl ⟨rfl, by simp⟩)
      | run i t => exact .inr (.inr ⟨i, t, rfl, by simp⟩)
  · exact .inl ⟨rfl, by simp⟩

/-- What is fetched runs either in the state itself, a request being under way, or in `IDLE` with the
request taken off the port. -/
theorem fetch_run {s t : State} {i : Instr} (h : s.fetch = .run i t) :
    (∃ r, s.seq = .running r ∧ i = r.frame ∧ t = s) ∨
    (s.seq = .idle ∧ ∃ q more, s.host = q :: more ∧ decodeHost q = .ok i ∧ t = { s with host := more }) := by
  unfold State.fetch at h
  split at h
  · cases h
    exact .inl ⟨_, by assumption, rfl, rfl⟩
  · refine .inr ⟨by assumption, ?_⟩
    split at h
    · cases h
    · split at h
      · cases h
        exact ⟨_, _, by assumption, by assumption, rfl⟩
      · cases h

end Sys2Proof.Machine
end

