-- ==== Sys2Proof/Laws/Invariant.lean ====
section
/-! SUPPORT. The lines of the pseudocode keep the invariant: what one line leads to (`react_good`), and what the
run down to the next frame leads to (`settle_good`), in a state whose `CFG` and position are in order. -/

namespace Sys2Proof.Machine

/-- The erase frame is one a probed block may send. -/
theorem eraseFrame_ok (c : Config) (f : FlashConfig) (a : Word) : frameOk true (eraseFrame c f a) = true := by
  unfold eraseFrame; split_ifs <;> rfl

/-- So are the frames of `SetAddressMode`, probed or not: none of them carries an address. -/
theorem modeFrames_ok (c : Config) (w : AddrWidth) (j : JedecId) (en p : Bool) :
    ∀ f ∈ setModeFrames c w j en, frameOk p f = true := by
  intro f hf
  suffices h : f = .wren ∨ f = .en4b ∨ f = .ex4b ∨ f = .wrdi ∨ (∃ b, f = .brwr b) ∨ f = .exhb ∨ f = .wrear 0 by
    rcases h with h | h | h | h | ⟨b, h⟩ | h | h <;> subst h <;> rfl
  unfold setModeFrames modeSwitch exitStep at hf
  cases w <;> cases en <;> (repeat' split at hf) <;> simp at hf <;> aesop

theorem sends_restOk (n : Nat) (p : Bool) (ts : List Task) (fs : List Instr)
    (h : ∀ f ∈ fs, frameOk p f = true) (ht : restOk n p ts = true) :
    restOk n p (fs.map .send ++ ts) = true := by
  induction fs with
  | nil => simpa
  | cons f fs ih => simp [restOk, h f (by simp)]; exact ih (fun f hf => h f (by simp [hf]))

/-- A probed block in order has a `CFG`, and it is what `Derive` gives (R22, R23). -/
theorem cfgOk_probed {s : State} (h : s.cfgOk = true) (hp : s.probed = true) :
    ∃ f d, s.cfg = some f ∧ s.config.identityTable[f.desc]? = some d ∧ f = derive s.config f.desc d ∧
      s.probedDevice = some (f, d) := by
  unfold State.cfgOk at h
  unfold State.probedDevice
  cases hc : s.cfg with
  | none => simp [hc, hp] at h
  | some f =>
    simp only [hc] at h ⊢
    cases hd : s.config.identityTable[f.desc]? with
    | none => simp [hd] at h
    | some d => simp [hd] at h; exact ⟨f, d, rfl, hd, h.2, rfl⟩

/-- `PROBED` and `CFG` are the same. -/
structure State.SameProbe (s t : State) : Prop where
  probed : t.probed = s.probed
  cfg : t.cfg = s.cfg

/-- What a line may lead to: `PROBED` and `CFG` stay and the position stays in order, or the line is the commit at
the end of `PROBE`. -/
def Reaction.Good (s : State) (ts : List Task) : Reaction → Prop
  | .raise _ s' => State.SameProbe s s'
  | .fall s' =>
    (State.SameProbe s s' ∧ restOk s.config.identityTable.length s.probed ts = true) ∨
    (ts = [] ∧ s'.cfgOk = true ∧ s.probed = false ∧ s'.probed = true)
  | .send s' f us =>
    State.SameProbe s s' ∧ frameOk s.probed f = true ∧
    restOk s.config.identityTable.length s.probed (us ++ ts) = true
  | .fault _ => False

/-- The lookup gives an index into the table and the record there (R124). -/
theorem lookupFrom_some {j : JedecId} {e : ExtId} {i : Nat} {d : Descriptor} :
    ∀ {k : Nat} {l : List Descriptor}, lookupFrom j e k l = some (i, d) → k ≤ i ∧ l[i - k]? = some d
  | k, [], h => by simp [lookupFrom] at h
  | k, x :: xs, h => by
    simp only [lookupFrom] at h
    split at h
    · simp at h
      obtain ⟨rfl, rfl⟩ := h
      simp
    · have := lookupFrom_some h
      refine ⟨by omega, ?_⟩
      have e : i - k = (i - (k + 1)) + 1 := by omega
      rw [e]
      simpa using this.2

/-- The commit leaves `CFG` in order. -/
theorem commit_cfgOk (s : State) (i : Nat) (d : Descriptor) (h : s.config.identityTable[i]? = some d) :
    (s.commit i d).cfgOk = true := by
  simp [State.cfgOk, derive, h]

theorem aaiLoop_good {s s2 : State} (hp : s.probed = true) (hs : State.SameProbe s s2) (data : List Byte)
    {ts : List Task} (h : restOk s.config.identityTable.length s.probed ts = true) :
    Reaction.Good s ts (aaiLoop s2 data) := by
  unfold aaiLoop
  dsimp only
  split
  · refine ⟨hs, ?_, ?_⟩
    · split <;> simp [frameOk, Instr.isHost, Instr.addressed, hp]
    · rw [hp] at h; simp [polled, restOk, hp, h, frameOk, Instr.isHost, Instr.addressed]
  · exact .inl ⟨hs, h⟩

/-- Every line of the pseudocode leads to something good. -/
theorem react_good (req : Instr) (s : State) (t : Task) (ts : List Task) (hc : s.cfgOk = true)
    (hr : restOk s.config.identityTable.length s.probed (t :: ts) = true) : Reaction.Good s ts (react req s t) := by
  cases t with
  | send f =>
    simp only [restOk, Bool.and_eq_true] at hr
    exact ⟨⟨rfl, rfl⟩, hr.1, hr.2⟩
  | identify =>
    simp [restOk] at hr
    obtain ⟨hp, rfl⟩ := hr
    simp only [react, identify]
    split
    · exact ⟨rfl, rfl⟩
    · split
      · exact ⟨rfl, rfl⟩
      · rename_i i d hl
        have hk := lookupFrom_some hl
        simp at hk
        have hlt := (List.getElem?_eq_some_iff.mp hk).1
        split
        · refine ⟨⟨rfl, rfl⟩, rfl, ?_⟩
          simp [restOk, hp, hlt, frameOk, Instr.isHost, Instr.addressed]
        · split
          · refine ⟨⟨rfl, rfl⟩, rfl, ?_⟩
            simp [restOk, hp, hlt]
          · exact .inr ⟨rfl, commit_cfgOk _ _ _ hk, hp, rfl⟩
  | clearBp m =>
    simp [restOk] at hr
    simp only [react, clearBp]
    split
    · exact .inl ⟨⟨rfl, rfl⟩, hr.2⟩
    · refine ⟨⟨rfl, rfl⟩, rfl, ?_⟩
      simp [polled, restOk, frameOk, Instr.isHost, Instr.addressed, hr.2]
  | commit i =>
    simp [restOk] at hr
    obtain ⟨⟨hp, hi⟩, rfl⟩ := hr
    simp only [react, commitLine]
    split
    · rename_i d hd
      exact .inr ⟨rfl, commit_cfgOk _ _ _ hd, hp, rfl⟩
    · rename_i h; simp at h; omega
  | pollTest k =>
    simp [restOk] at hr
    simp only [react, pollTest]
    split
    · split
      · exact ⟨rfl, rfl⟩
      · exact ⟨⟨rfl, rfl⟩, rfl, by simpa [restOk]⟩
    · exact .inl ⟨⟨rfl, rfl⟩, hr⟩
  | setMode en =>
    simp [restOk] at hr
    obtain ⟨f, d, -, -, -, hpd⟩ := cfgOk_probed hc hr.1
    simp only [react, setModeLine, withCfg, hpd]
    have := modeFrames_ok s.config f.addrWidth d.jedecId en s.probed
    cases hm : setModeFrames s.config f.addrWidth d.jedecId en with
    | nil => exact .inl ⟨⟨rfl, rfl⟩, hr.2⟩
    | cons x xs =>
      rw [hm] at this
      exact ⟨⟨rfl, rfl⟩, this x (by simp), sends_restOk _ _ _ _ (fun f hf => this f (by simp [hf])) hr.2⟩
  | eraseBegin addr len =>
    simp [restOk] at hr
    obtain ⟨f, d, -, -, -, hpd⟩ := cfgOk_probed hc hr.1
    simp only [react, eraseBegin, withCfg, hpd, eraseLoop]
    split
    · exact .inl ⟨⟨rfl, rfl⟩, hr.2⟩
    · refine ⟨⟨rfl, rfl⟩, rfl, ?_⟩
      have hr2 := hr.2
      rw [hr.1] at hr2
      simp [polled, restOk, hr, hr2, eraseFrame_ok]
      rfl
  | eraseNext total =>
    simp [restOk] at hr
    obtain ⟨f, d, -, -, -, hpd⟩ := cfgOk_probed hc hr.1
    simp only [react, eraseNext, withCfg, hpd, eraseLoop]
    split
    · exact .inl ⟨⟨rfl, rfl⟩, hr.2⟩
    · refine ⟨⟨rfl, rfl⟩, rfl, ?_⟩
      have hr2 := hr.2
      rw [hr.1] at hr2
      simp [polled, restOk, hr, hr2, eraseFrame_ok]
      rfl
  | pageBegin addr len =>
    simp [restOk] at hr
    simp only [react, pageBegin, pageLoop, programChunk]
    split
    · exact .inl ⟨⟨rfl, rfl⟩, hr.2⟩
    · refine ⟨⟨rfl, rfl⟩, rfl, ?_⟩
      have hr2 := hr.2
      rw [hr.1] at hr2
      simp [polled, restOk, hr, hr2, frameOk, Instr.isHost, Instr.addressed]
  | pageNext c =>
    simp [restOk] at hr
    simp only [react, pageNext, pageLoop, programChunk]
    split
    · exact .inl ⟨⟨rfl, rfl⟩, hr.2⟩
    · refine ⟨⟨rfl, rfl⟩, rfl, ?_⟩
      have hr2 := hr.2
      rw [hr.1] at hr2
      simp [polled, restOk, hr, hr2, frameOk, Instr.isHost, Instr.addressed]
  | aaiBegin addr len =>
    simp [restOk] at hr
    simp only [react, aaiBegin, programChunk]
    split
    · refine ⟨⟨rfl, rfl⟩, rfl, ?_⟩
      have hr2 := hr.2
      rw [hr.1] at hr2
      simp [polled, restOk, hr, hr2, frameOk, Instr.isHost, Instr.addressed]
    · exact .inl ⟨⟨rfl, rfl⟩, hr.2⟩
  | aaiLead =>
    simp [restOk] at hr
    exact .inl ⟨⟨rfl, rfl⟩, hr.2⟩
  | aaiLoop =>
    simp [restOk] at hr
    exact aaiLoop_good hr.1 ⟨rfl, rfl⟩ _ hr.2
  | aaiNext =>
    simp [restOk] at hr
    simp only [react, aaiNext]
    refine aaiLoop_good hr.1 ?_ _ hr.2
    split <;> exact ⟨rfl, rfl⟩
  | aaiTail =>
    simp [restOk] at hr
    simp only [react, aaiTail, programChunk]
    split
    · refine ⟨⟨rfl, rfl⟩, rfl, ?_⟩
      have hr2 := hr.2
      rw [hr.1] at hr2
      simp [polled, restOk, hr, hr2, frameOk, Instr.isHost, Instr.addressed]
    · exact .inl ⟨⟨rfl, rfl⟩, hr.2⟩

/-- Everything the run down to the next frame does. -/
structure Settled (req : Instr) (s t : State) : Prop where
  inv : t.inv = true
  config : t.config = s.config
  host : t.host = s.host
  pin : t.resetPin = s.resetPin
  script : t.env.script = s.env.script
  cs : t.env.cs = s.env.cs
  dev : t.env.dev = s.env.dev
  att : t.env.attached = s.env.attached
  trace : ∃ more, t.trace = s.trace ++ more ∧ callsOf more = []
  sr : t.work.sr = s.work.sr
  id : t.work.id = s.work.id
  rx : t.work.rx = s.work.rx
  out : t.work.out = s.work.out
  probe : State.SameProbe s t ∨
    s.probed = false ∧ t.probed = true ∧ t.seq = .idle ∧ ∃ z, t.resp = some ⟨.ok, z, okOut t req⟩
  beat : ∀ r, t.seq = .running r → r.beat = 0 ∧ t.resp = s.resp ∧ r.req = req

theorem cfgOk_same {s t : State} (h : State.SameProbe s t) (hc : t.config = s.config) : t.cfgOk = s.cfgOk := by
  simp [State.cfgOk, h.probed, h.cfg, hc]

/-- The end of a request leaves the invariant. -/
theorem settled_end {req : Instr} {s u t : State} {r : Response} (hw : State.Worked s u) (ht : t.cfgOk = true)
    (hm : Memory.wf s.env.dev.mem = true) (hseq : t.seq = .idle) (hc : t.config = u.config) (hh : t.host = u.host)
    (hp : t.resetPin = u.resetPin) (hwk : t.work = u.work)
    (he : t.env = { u.env with draws := u.env.draws + 1 }) (htr : t.trace = u.trace ++ [.response r])
    (hpr : State.SameProbe s t ∨
      s.probed = false ∧ t.probed = true ∧ t.seq = .idle ∧ ∃ z, t.resp = some ⟨.ok, z, okOut t req⟩) :
    Settled req s t := by
  obtain ⟨h1, h2, h3, h4, h5, h6, h7, h8, h9, h10, m, h11, h12⟩ := hw
  refine ⟨?_, hc.trans h1, hh.trans h2, hp.trans h3, by rw [he, h4], by rw [he, h4], by rw [he, h4],
    by rw [he, h4], ⟨m ++ [.response r], by rw [htr, h11, List.append_assoc], by simp [h12]⟩,
    by rw [hwk, h7], by rw [hwk, h8], by rw [hwk, h9], by rw [hwk, h10], hpr, ?_⟩
  · have hd : t.env.dev = s.env.dev := by rw [he, h4]
    simp [State.inv, State.seqOk, ht, hseq, hd, hm]
  · intro r' h
    rw [hseq] at h
    cases h

/-- The run down to the next frame, or to the end of the request, never faults and keeps the invariant. -/
theorem settle_good (req : Instr) (hreq : req.isHost = true) :
    ∀ (ts : List Task) (s : State), s.cfgOk = true →
      restOk s.config.identityTable.length s.probed ts = true → Memory.wf s.env.dev.mem = true →
      (decide (req = .probe) = !s.probed) → ∃ t, settle req ts s = .next t ∧ Settled req s t
  | [], s, hc, _, hm, _ =>
    ⟨s.returnOk req, rfl, settled_end (.refl s) hc hm rfl rfl rfl rfl rfl rfl rfl (.inl ⟨rfl, rfl⟩)⟩
  | t :: ts, s, hc, hr, hm, hq => by
    have hg := react_good req s t ts hc hr
    have hw : ∀ u, (react req s t).stateOf = some u → State.Worked s u := fun u hu => react_worked hu
    simp only [settle]
    cases hx : react req s t with
    | raise e u =>
      rw [hx] at hg hw
      have hwu := hw u rfl
      have hsame : State.SameProbe s (u.raise req e) := ⟨hg.probed, hg.cfg⟩
      exact ⟨u.raise req e, rfl, settled_end hwu ((cfgOk_same hsame hwu.config).trans hc) hm rfl rfl rfl rfl rfl
        rfl rfl (.inl hsame)⟩
    | fault f =>
      rw [hx] at hg
      exact hg.elim
    | send u f us =>
      rw [hx] at hg hw
      obtain ⟨hs, hf, hrr⟩ := hg
      obtain ⟨h1, h2, h3, h4, h5, h6, h7, h8, h9, h10, m, h11, h12⟩ := hw u rfl
      refine ⟨_, rfl, ?_, h1, h2, h3, by simp [h4], by simp [h4], by simp [h4], by simp [h4],
        ⟨m, by simp [h11], h12⟩, h7, h8, h9, h10, .inl ⟨hs.probed, hs.cfg⟩, ?_⟩
      · have hc' : (u.sending req f (us ++ ts)).cfgOk = s.cfgOk := cfgOk_same ⟨hs.probed, hs.cfg⟩ h1
        simp [State.inv, State.seqOk, hc', hc, h4, hm, hs.probed, hf, h1, hrr, hreq, hq]
      · intro r h
        simp only [State.sending_seq, Seq.running.injEq] at h
        subst h
        exact ⟨rfl, h5, rfl⟩
    | fall u =>
      rw [hx] at hg hw
      have hwu := hw u rfl
      rcases hg with ⟨hs, hrr⟩ | ⟨rfl, hc', hp, hp'⟩
      · obtain ⟨v, hv, g⟩ := settle_good req hreq ts u (by rw [cfgOk_same hs hwu.config, hc])
          (by rw [hwu.config, hs.probed, hrr]) (by rw [hwu.env, hm]) (by rw [hs.probed, hq])
        obtain ⟨h1, h2, h3, h4, h5, h6, h7, h8, h9, h10, m, h11, h12⟩ := hwu
        obtain ⟨m', hm1, hm2⟩ := g.trace
        refine ⟨v, hv, g.inv, g.config.trans h1, g.host.trans h2, g.pin.trans h3, by rw [g.script, h4],
          by rw [g.cs, h4], by rw [g.dev, h4], by rw [g.att, h4], ⟨m ++ m', by simp [hm1, h11], by simp [h12, hm2]⟩,
          g.sr.trans h7, g.id.trans h8, g.rx.trans h9, g.out.trans h10, ?_, ?_⟩
        · rcases g.probe with h | ⟨a, b⟩
          · exact .inl ⟨h.probed.trans hs.probed, h.cfg.trans hs.cfg⟩
          · exact .inr ⟨hs.probed.symm.trans a, b⟩
        · intro r h
          have hb := g.beat r h
          exact ⟨hb.1, hb.2.1.trans h5, hb.2.2⟩
      · exact ⟨u.returnOk req, rfl, settled_end hwu hc' hm rfl rfl rfl rfl rfl rfl rfl
          (.inr ⟨hp, hp', rfl, _, rfl⟩)⟩

end Sys2Proof.Machine
end

