-- ==== Sys2Proof/Laws/Frames.lean ====
section
/-! SUPPORT. What every frame is: `exec` of it plays its bytes and its receive calls (`played`), the calls are those
its format gives (`frameCalls`), and what a call or the end of the frame may do to the registers. From it, one call
of any frame in a state of the invariant (`exec_frame`). -/

namespace Sys2Proof.Machine

/-! ### What the receipt of bytes leaves alone -/

/-- From `s` to `t` only what a frame receives has changed. -/
structure State.Kept (s t : State) : Prop where
  config : t.config = s.config
  probed : t.probed = s.probed
  cfg : t.cfg = s.cfg
  host : t.host = s.host
  resetPin : t.resetPin = s.resetPin
  resp : t.resp = s.resp
  env : t.env = s.env
  seq : t.seq = s.seq
  q : t.work.q = s.work.q
  trace : ∃ more, t.trace = s.trace ++ more ∧ callsOf more = []

theorem State.Kept.refl (s : State) : State.Kept s s :=
  ⟨rfl, rfl, rfl, rfl, rfl, rfl, rfl, rfl, rfl, [], by simp, rfl⟩

theorem keepRx_kept (c : Call) (b : List Byte) (u : State) : State.Kept u (keepRx c b u) := by
  cases c <;> exact ⟨rfl, rfl, rfl, rfl, rfl, rfl, rfl, rfl, rfl, [], by simp [keepRx], rfl⟩

theorem keepOut_kept (addr len : Word) (c : Call) (b : List Byte) (u : State) :
    State.Kept u (keepOut addr len c b u) := by
  cases c
  · exact .refl u
  · exact ⟨rfl, rfl, rfl, rfl, rfl, rfl, rfl, rfl, rfl, [], by simp [keepOut], rfl⟩
  · exact ⟨rfl, rfl, rfl, rfl, rfl, rfl, rfl, rfl, rfl, _, rfl, rfl⟩

/-- What a call inside the frame `i` does to the registers: `SR` and `ID` stay, a frame that receives nothing keeps
all of them, and a register read changes only the received bytes, at its receive call. -/
structure GotOk (i : Instr) (c : Call) (u v : State) : Prop where
  kept : State.Kept u v
  sr : v.work.sr = u.work.sr
  id : v.work.id = u.work.id
  rx : i = .rdid ∨ i = .rdsr → v.work = { u.work with rx := v.work.rx }
  none : i ≠ .rdid → i ≠ .rdsr → (∀ a len, i ≠ .readFrame a len) → v = u
  reg : (∀ n, c ≠ .readOnly n) → i = .rdid ∨ i = .rdsr → v = u

/-- What the end of the frame `i` does to the registers (R152, R121). -/
structure DoneOk (i : Instr) (u v : State) : Prop where
  kept : State.Kept u v
  trace : v.trace = u.trace
  sr : v.work.sr = if i = .rdsr then u.work.rx.headD 0 else u.work.sr
  id : v.work.id = if i = .rdid then IdBytes.ofList u.work.rx else u.work.id
  rx : v.work.rx = u.work.rx
  out : v.work.out = u.work.out
  other : i ≠ .rdsr → i ≠ .rdid → v = u

/-- `exec` of the frame `i` in `s` plays the bytes `tx` and the receive calls `rxs`. -/
structure Played (i : Instr) (s : State) (tx : List Byte) (rxs : List Nat)
    (got : Call → List Byte → State → State) (done : State → State) : Prop where
  exec : exec i s = playFrame tx rxs got done s
  calls : frameCalls s.config s.width i =
    [.chipSelect s.config.csLine.val true, .writeOnly tx] ++ rxs.map .readOnly ++
    [.chipSelect s.config.csLine.val false]
  opcode : ∃ op ∈ s.config.op.all, tx.head? = some op
  got : ∀ c b u, GotOk i c u (got c b u)
  done : ∀ u, DoneOk i u (done u)

/-- The sixteen frames that receive nothing. -/
theorem played_command {i : Instr} {s : State} {tx : List Byte}
    (he : Sys2Proof.Machine.exec i s = playFrame tx [] keepNothing id s)
    (hc : encode s.config s.width i = .frame ⟨tx, 0⟩) (ho : ∃ op ∈ s.config.op.all, tx.head? = some op)
    (h1 : i ≠ .rdsr) (h2 : i ≠ .rdid) (hr : rxCalls s.config i 0 = []) : Played i s tx [] keepNothing id :=
  ⟨he, by simp [frameCalls, hc, hr], ho,
    fun _ _ u => ⟨.refl u, rfl, rfl, by simp [keepNothing], fun _ _ _ => rfl, fun _ _ => rfl⟩,
    fun u => ⟨.refl u, rfl, by simp [h1], by simp [h2], rfl, rfl, fun _ _ => rfl⟩⟩

/-- With a `CFG`, an addressed frame is written with its width. -/
theorem withWidth_some {s : State} (h : s.cfg.isSome = true) (k : AddrWidth → Result) :
    withWidth s k = k s.width := by
  unfold withWidth State.width
  cases hc : s.cfg with
  | none => simp [hc] at h
  | some f => rfl

/-- Every frame plays its bytes; an addressed one needs a `CFG` to take its width from (R102). -/
theorem played (i : Instr) (s : State) (hi : i.isHost = false)
    (ha : i.addressed = true → s.cfg.isSome = true) : ∃ tx rxs got done, Played i s tx rxs got done := by
  cases i with
  | probe | getsize | read | erase | chiperase | write | reserved67 => simp [Instr.isHost] at hi
  | rdid =>
    refine ⟨[s.config.op.rdid], [s.config.fixed.idLen], keepRx,
      fun u => { u with work := { u.work with id := IdBytes.ofList u.work.rx } }, rfl,
      by simp [frameCalls, encode, rxCalls], ⟨s.config.op.rdid, by simp [Opcodes.all], rfl⟩,
      fun c b u => ⟨keepRx_kept c b u, ?_, ?_, ?_, ?_, ?_⟩,
      fun u => ⟨⟨rfl, rfl, rfl, rfl, rfl, rfl, rfl, rfl, rfl, [], by simp, rfl⟩, rfl, by simp, by simp, rfl,
        rfl, by simp⟩⟩
    all_goals cases c <;> simp [keepRx]
  | rdsr =>
    refine ⟨[s.config.op.rdsr], [1], keepRx,
      fun u => { u with work := { u.work with sr := u.work.rx.headD 0 } }, rfl,
      by simp [frameCalls, encode, rxCalls], ⟨s.config.op.rdsr, by simp [Opcodes.all], rfl⟩,
      fun c b u => ⟨keepRx_kept c b u, ?_, ?_, ?_, ?_, ?_⟩,
      fun u => ⟨⟨rfl, rfl, rfl, rfl, rfl, rfl, rfl, rfl, rfl, [], by simp, rfl⟩, rfl, by simp, by simp, rfl,
        rfl, by simp⟩⟩
    all_goals cases c <;> simp [keepRx]
  | readFrame a len =>
    refine ⟨s.config.op.read :: addrBytes s.width a, readChunks s.config.fixed.readChunk len.toNat, keepOut a len, id, ?_, rfl,
      ⟨s.config.op.read, by simp [Opcodes.all], rfl⟩, fun c b u => ⟨keepOut_kept a len c b u, ?_, ?_, ?_, ?_, ?_⟩,
      fun u => ⟨.refl u, rfl, by simp, by simp, rfl, rfl, fun _ _ => rfl⟩⟩
    · simp only [exec, execReadFrame, withWidth_some (ha rfl)]
    all_goals cases c <;> simp [keepOut]
  | wren | wrdi | wrsr | en4b | ex4b | brwr | exhb | wrear | ce | aaiNext =>
    exact ⟨_, _, _, _, played_command rfl rfl ⟨_, by simp [Opcodes.all], rfl⟩ (by simp) (by simp) rfl⟩
  | se4k | se4kPmc | be32k | be64k | pp | aaiFirst =>
    refine ⟨_, _, _, _, played_command ?_ rfl ⟨_, by simp [Opcodes.all], rfl⟩ (by simp) (by simp) rfl⟩
    simp only [exec, execSe4k, execSe4kPmc, execBe32k, execBe64k, execPp, execAaiFirst, cmdA, cmdAD,
      withWidth_some (ha rfl)]

/-! ### The calls of a frame, by number -/

/-- The calls of a frame, as `playFrame` makes them. -/
theorem frameCall_of_calls {line : Nat} {tx : List Byte} {rxs : List Nat} {beat : Nat} {call : Call}
    (h : ([.chipSelect line true, .writeOnly tx] ++ rxs.map Call.readOnly ++ [.chipSelect line false])[beat]? =
      some call) : frameCall line tx rxs beat = call ∧ beat ≤ lastBeat rxs := by
  have hlen := (List.getElem?_eq_some_iff.mp h).1
  simp only [List.length_append, List.length_cons, List.length_nil, List.length_map] at hlen
  refine ⟨?_, by unfold lastBeat; omega⟩
  match beat with
  | 0 => simpa [frameCall] using h
  | 1 => simpa [frameCall] using h
  | k + 2 =>
    simp only [List.cons_append, List.nil_append, List.getElem?_cons_succ] at h
    simp only [frameCall]
    by_cases hk : k < rxs.length
    · rw [List.getElem?_append_left (by simpa using hk)] at h
      simp only [List.getElem?_map, List.getElem?_eq_getElem hk, Option.map_some, Option.some.injEq] at h ⊢
      exact h
    · have e : k = rxs.length := by omega
      subst e
      simpa using h

/-! ### One call of a frame -/

/-- The invariant of a running request, taken apart. -/
theorem inv_running {s : State} {req i : Instr} {beat : Nat} {rest : List Task} (h : s.inv = true)
    (hs : s.seq = .running ⟨req, i, beat, rest⟩) :
    s.cfgOk = true ∧ Memory.wf s.env.dev.mem = true ∧ req.isHost = true ∧
      (decide (req = .probe) = !s.probed) ∧ i.isHost = false ∧ (i.addressed = true → s.cfg.isSome = true) ∧
      frameOk s.probed i = true ∧ restOk s.config.identityTable.length s.probed rest = true := by
  simp only [State.inv, State.seqOk, hs, Bool.and_eq_true, beq_iff_eq] at h
  obtain ⟨⟨hc, ⟨⟨h1, h2⟩, h3⟩, h4⟩, hm⟩ := h
  have hf := h3
  simp only [frameOk, Bool.and_eq_true, Bool.not_eq_true', Bool.or_eq_true] at hf
  refine ⟨hc, hm, h1, h2, hf.1, fun ha => ?_, h3, h4⟩
  rcases hf.2 with hx | hx
  · rw [ha] at hx
    cases hx
  · obtain ⟨f, _, hcf, _⟩ := cfgOk_probed hc hx
    simp [hcf]

end Sys2Proof.Machine
end

