-- ==== Sys2Proof/Laws/PerInstr.lean ====
section
/-! SUPPORT. What holds of every instruction, said for each constructor: its written form is a host request or
a frame as its level says, and a frame begins with one of the eighteen opcode parameters (`30_encoding.md`
R80, R84, R94). -/

namespace Sys2Proof.Laws

/-- The family `Written`: a host request is written as a record; a frame is written as bytes of which the
first is an opcode parameter, whatever the configuration and the address width (R94). -/
def Written.Statement (i : Instr) : Prop :=
  ∀ (c : Config) (w : AddrWidth),
    match encode c w i with
    | .host _ => i.isHost = true
    | .frame f => i.isHost = false ∧ ∃ op ∈ c.op.all, f.tx.head? = some op

theorem Written.probe : Written.Statement .probe := fun _ _ => rfl
theorem Written.getsize : Written.Statement .getsize := fun _ _ => rfl
theorem Written.read (addr len : Word) : Written.Statement (.read addr len) := fun _ _ => rfl
theorem Written.erase (addr len : Word) : Written.Statement (.erase addr len) := fun _ _ => rfl
theorem Written.chiperase : Written.Statement .chiperase := fun _ _ => rfl
theorem Written.write (addr : Word) (data : List Byte) : Written.Statement (.write addr data) := fun _ _ => rfl
theorem Written.reserved67 (seven : Bool) : Written.Statement (.reserved67 seven) := fun _ _ => rfl
theorem Written.rdid : Written.Statement .rdid := fun c _ => ⟨rfl, c.op.rdid, by simp [Opcodes.all], rfl⟩
theorem Written.wren : Written.Statement .wren := fun c _ => ⟨rfl, c.op.wren, by simp [Opcodes.all], rfl⟩
theorem Written.wrdi : Written.Statement .wrdi := fun c _ => ⟨rfl, c.op.wrdi, by simp [Opcodes.all], rfl⟩
theorem Written.rdsr : Written.Statement .rdsr := fun c _ => ⟨rfl, c.op.rdsr, by simp [Opcodes.all], rfl⟩
theorem Written.wrsr (d : Byte) : Written.Statement (.wrsr d) :=
  fun c _ => ⟨rfl, c.op.wrsr, by simp [Opcodes.all], rfl⟩
theorem Written.en4b : Written.Statement .en4b := fun c _ => ⟨rfl, c.op.en4b, by simp [Opcodes.all], rfl⟩
theorem Written.ex4b : Written.Statement .ex4b := fun c _ => ⟨rfl, c.op.ex4b, by simp [Opcodes.all], rfl⟩
theorem Written.brwr (d : Byte) : Written.Statement (.brwr d) :=
  fun c _ => ⟨rfl, c.op.brwr, by simp [Opcodes.all], rfl⟩
theorem Written.exhb : Written.Statement .exhb := fun c _ => ⟨rfl, c.op.exhb, by simp [Opcodes.all], rfl⟩
theorem Written.wrear (d : Byte) : Written.Statement (.wrear d) :=
  fun c _ => ⟨rfl, c.op.wrear, by simp [Opcodes.all], rfl⟩
theorem Written.se4k (a : Word) : Written.Statement (.se4k a) :=
  fun c _ => ⟨rfl, c.op.se4k, by simp [Opcodes.all], rfl⟩
theorem Written.se4kPmc (a : Word) : Written.Statement (.se4kPmc a) :=
  fun c _ => ⟨rfl, c.op.se4kPmc, by simp [Opcodes.all], rfl⟩
theorem Written.be32k (a : Word) : Written.Statement (.be32k a) :=
  fun c _ => ⟨rfl, c.op.be32k, by simp [Opcodes.all], rfl⟩
theorem Written.be64k (a : Word) : Written.Statement (.be64k a) :=
  fun c _ => ⟨rfl, c.op.be64k, by simp [Opcodes.all], rfl⟩
theorem Written.ce : Written.Statement .ce := fun c _ => ⟨rfl, c.op.ce, by simp [Opcodes.all], rfl⟩
theorem Written.pp (a : Word) (d : List Byte) : Written.Statement (.pp a d) :=
  fun c _ => ⟨rfl, c.op.pp, by simp [Opcodes.all], rfl⟩
theorem Written.aaiFirst (a : Word) (d0 d1 : Byte) : Written.Statement (.aaiFirst a d0 d1) :=
  fun c _ => ⟨rfl, c.op.aai, by simp [Opcodes.all], rfl⟩
theorem Written.aaiNext (d0 d1 : Byte) : Written.Statement (.aaiNext d0 d1) :=
  fun c _ => ⟨rfl, c.op.aai, by simp [Opcodes.all], rfl⟩
theorem Written.readFrame (a len : Word) : Written.Statement (.readFrame a len) :=
  fun c _ => ⟨rfl, c.op.read, by simp [Opcodes.all], rfl⟩

end Sys2Proof.Laws
end

