-- ==== Sys2Proof/Tests/Slice0.lean ====
section
/-! SUPPORT. The model's own tests: ill-formed terms that the checks refuse, words written out from the spec's
encodings, single steps with results from `95_test_vectors.md`, and a witness for the hypotheses of every
obligation that has some. -/

namespace Sys2Proof.Tests

open Sys2Proof.Machine

/-! ### States to test on -/

/-- The default configuration's descriptor number `i` (`95_test_vectors.md` section 2). -/
def entry (i : Nat) : Descriptor := Config.default.identityTable.getD i (Descriptor.plain "" 0 0 0)

/-- Reset, then probed as entry `i`, with these answers in store. -/
def probedAs (i : Nat) (script : List Scripted) : State :=
  { State.reset with
    probed := true, cfg := some (derive Config.default i (entry i)), env := { Env.reset with script := script } }

/-- After reset, with these answers in store. -/
def fresh (script : List Scripted) : State := { State.reset with env := { Env.reset with script := script } }

/-- A request is sending frame `f` and has made `beat` calls of it. -/
def State.at (s : State) (req f : Instr) (beat : Nat) (rest : List Task) : State :=
  { s with seq := .running ⟨req, f, beat, rest⟩ }

/-- The host presents the request `i`. -/
def State.asked (s : State) (i : Instr) : State :=
  match encode s.config .three i with
  | .host r => { s with host := [r] }
  | .frame _ => s

def nextOf (r : Result) : Option State :=
  match r with
  | .next t => some t
  | .fault _ => none
  | .refused _ => none

/-- The call that frame `f` makes as its call number `beat`, in a block probed as entry 1 (width 4). -/
def callAt (f : Instr) (beat : Nat) : Option (List Call) :=
  (nextOf (exec f (State.at (probedAs 1 [.reply [0, 0, 0, 0, 0]]) (.read 0 0) f beat []))).map
    fun t => callsOf t.trace

/-- What a request leaves pending: its status. -/
def statusOf (r : Result) : Option Status := (nextOf r).bind fun t => t.resp.map Response.status

/-- The frame that stands next. -/
def frameOf (r : Result) : Option Instr :=
  (nextOf r).bind fun t => match t.seq with | .idle => none | .running q => some q.frame

/-- Every frame, with some operands. -/
def someFrames : List Instr :=
  [.rdid, .wren, .wrdi, .rdsr, .wrsr 1, .en4b, .ex4b, .brwr 0x80, .exhb, .wrear 0] ++
  [.se4k 0, .se4kPmc 0, .be32k 0, .be64k 0, .ce, .pp 0 [1], .aaiFirst 0 1 2, .aaiNext 1 2, .readFrame 0 4097]

theorem default_runs : configRuns Config.default = true := by decide
theorem default_wf : Config.default.wf = true := by decide
theorem default_distinct : Config.default.op.distinct = true := by decide

/-! ### Ill-formed terms are refused -/

theorem test_wf_write_too_long (d : List Byte) (h : d.length = 2 ^ 32) :
    (Instr.write 0 d).wf Config.default = false := by simp [Instr.wf, h]
theorem test_wf_brwr_other_value : (Instr.brwr 0x81).wf Config.default = false := by decide
theorem test_wf_wrear_not_zero : (Instr.wrear 0x01).wf Config.default = false := by decide
theorem test_wf_se4k_unaligned : (Instr.se4k 0x800).wf Config.default = false := by decide
theorem test_wf_se4kPmc_unaligned : (Instr.se4kPmc 0x1001).wf Config.default = false := by decide
theorem test_wf_be32k_unaligned : (Instr.be32k 0x4000).wf Config.default = false := by decide
theorem test_wf_be64k_unaligned : (Instr.be64k 0x8000).wf Config.default = false := by decide
theorem test_wf_pp_empty : (Instr.pp 0 []).wf Config.default = false := by decide
theorem test_wf_pp_crosses_page : (Instr.pp 0xFF [1, 2]).wf Config.default = false := by decide
theorem test_wf_aaiFirst_odd : (Instr.aaiFirst 1 2 3).wf Config.default = false := by decide
theorem test_wf_accepts_the_rest :
    someFrames.all (Instr.wf Config.default) = true ∧ (Instr.pp 0x10FE [1, 2]).wf Config.default = true := by decide
theorem test_fits_width_three : (Instr.readFrame 0x01000000 0).fits .three = false ∧
    (Instr.readFrame 0x01000000 0).fits .four = true ∧ (Instr.readFrame 0xFFFFFF 0).fits .three = true := by decide
theorem test_opcodes_not_distinct : ({ Opcodes.default with se4kPmc := 0x20 } : Opcodes).distinct = false := by
  decide

/-- A configuration that differs from the default one in its table. -/
def withTable (t : List Descriptor) : Config := { Config.default with identityTable := t }

theorem test_table_same_key_twice : Config.tableOk [entry 0, entry 0] = false := by decide
theorem test_table_no_erase_flag : Config.tableOk [Descriptor.plain "X" 1 1 1] = false := by decide
theorem test_table_no_capacity : Config.tableOk [{ entry 0 with capacity := 0 }] = false := by decide
theorem test_table_blank_id : (withTable [{ entry 0 with jedecId := 0xFFFFFF }]).wf = false := by decide
/-- R8's table: a number the source fixes has one value. -/
theorem test_config_fixed_number :
    let c : Config := { Config.default with fixed := { FixedNumbers.source with readChunk := 4095 } }
    configRuns c = false ∧ c.wf = false := by decide
theorem test_config_page_size : ({ Config.default with pageSize := 0 } : Config).wf = false := by decide
theorem test_config_poll_limit : ({ Config.default with pollLimit := some 0 } : Config).wf = false := by decide
theorem test_config_mfr_code_twice :
    ({ Config.default with mfrClass := (0x20, .aPlain) :: Config.default.mfrClass } : Config).mfrOk = false := by
  decide
theorem test_config_two_aWren :
    ({ Config.default with mfrClass := (0x55, .aWren) :: Config.default.mfrClass } : Config).mfrOk = false := by
  decide
theorem test_config_one_aPlain :
    ({ Config.default with mfrClass := [(1, .aWren), (2, .aPlain), (3, .b), (4, .b)] } : Config).mfrOk = false := by
  decide
theorem test_config_three_b :
    ({ Config.default with mfrClass := (0x55, .b) :: Config.default.mfrClass } : Config).mfrOk = false := by decide
theorem test_config_exit_code_twice :
    ({ Config.default with exitClass := (0x20, .none) :: Config.default.exitClass } : Config).exitOk = false := by
  decide
theorem test_config_no_exhb :
    ({ Config.default with exitClass := [(0x20, .wrear), (0xEF, .wrear), (0xC8, .wrear)] } : Config).exitOk =
      false := by decide
theorem test_config_two_wrear :
    ({ Config.default with exitClass := [(0x1C, .exhb), (0xEF, .wrear), (0xC8, .wrear)] } : Config).exitOk =
      false := by decide
theorem test_config_exit_outside_family_a :
    ({ Config.default with exitClass := [(0x01, .exhb), (0x20, .wrear), (0xEF, .wrear), (0xC8, .wrear)] } :
      Config).exitOk = false := by decide
theorem test_config_skip_id_not_wrear : ({ Config.default with wrearSkipId := 0x1C7019 } : Config).exitOk = false := by
  decide

/-! ### Words written out from the spec (R80, R81, R84 to R92, R95) -/

/-- Reading with the default opcodes. -/
def reads (w : AddrWidth) (tx : List Byte) (rx : Nat) (i : Instr) : Prop :=
  decodeFrame Config.default w ⟨tx, rx⟩ = .ok i

theorem test_decode_probe : decodeHost ⟨0b000, 0x1234, 7, [9]⟩ = .ok .probe := by decide
theorem test_decode_getsize : decodeHost ⟨0b001, 0, 0, []⟩ = .ok .getsize := by decide
theorem test_decode_read : decodeHost ⟨0b010, 0x10FC, 8, []⟩ = .ok (.read 0x10FC 8) := by decide
theorem test_decode_erase : decodeHost ⟨0b011, 0x1000, 0x2000, []⟩ = .ok (.erase 0x1000 0x2000) := by decide
theorem test_decode_chiperase : decodeHost ⟨0b100, 0, 0, []⟩ = .ok .chiperase := by decide
theorem test_decode_write : decodeHost ⟨0b101, 0x10FE, 2, [0x11, 0x22]⟩ = .ok (.write 0x10FE [0x11, 0x22]) := by
  decide
theorem test_decode_write_wrong_length : decodeHost ⟨0b101, 0x10FE, 3, [0x11, 0x22]⟩ = .reject .dataLength := by
  decide
theorem test_decode_reserved67 : decodeHost ⟨0b110, 0, 0, []⟩ = .ok (.reserved67 false) ∧
    decodeHost ⟨0b111, 0, 0, []⟩ = .ok (.reserved67 true) := by decide
theorem test_decode_rdid : reads .three [0x9F] 5 .rdid := by unfold reads; decide
theorem test_decode_wren : reads .three [0x06] 0 .wren := by unfold reads; decide
theorem test_decode_wrdi : reads .three [0x04] 0 .wrdi := by unfold reads; decide
theorem test_decode_rdsr : reads .three [0x05] 1 .rdsr := by unfold reads; decide
theorem test_decode_wrsr : reads .three [0x01, 0x83] 0 (.wrsr 0x83) := by unfold reads; decide
theorem test_decode_en4b : reads .four [0xB7] 0 .en4b := by unfold reads; decide
theorem test_decode_ex4b : reads .four [0xE9] 0 .ex4b := by unfold reads; decide
theorem test_decode_brwr : reads .four [0x17, 0x80] 0 (.brwr 0x80) := by unfold reads; decide
theorem test_decode_exhb : reads .four [0x98] 0 .exhb := by unfold reads; decide
theorem test_decode_wrear : reads .four [0xC5, 0x00] 0 (.wrear 0x00) := by unfold reads; decide
theorem test_decode_se4k : reads .three [0x20, 0x00, 0x10, 0x00] 0 (.se4k 0x1000) := by unfold reads; decide
theorem test_decode_se4kPmc : reads .three [0xD7, 0x07, 0xF0, 0x00] 0 (.se4kPmc 0x7F000) := by unfold reads; decide
theorem test_decode_be32k : reads .three [0x52, 0x00, 0x80, 0x00] 0 (.be32k 0x8000) := by unfold reads; decide
theorem test_decode_be64k : reads .four [0xD8, 0x01, 0xFF, 0x00, 0x00] 0 (.be64k 0x1FF0000) := by
  unfold reads; decide
theorem test_decode_ce : reads .four [0xC7] 0 .ce := by unfold reads; decide
theorem test_decode_pp : reads .three [0x02, 0x00, 0x11, 0x00, 0x33, 0x44] 0 (.pp 0x1100 [0x33, 0x44]) := by
  unfold reads; decide
theorem test_decode_aaiFirst : reads .three [0xAD, 0x00, 0x00, 0x02, 0xA2, 0xA3] 0 (.aaiFirst 2 0xA2 0xA3) := by
  unfold reads; decide
theorem test_decode_aaiNext : reads .three [0xAD, 0xB4, 0xB5] 0 (.aaiNext 0xB4 0xB5) := by unfold reads; decide
theorem test_decode_readFrame : reads .four [0x03, 0x01, 0x00, 0x00, 0x00] 3 (.readFrame 0x1000000 3) := by
  unfold reads; decide

theorem test_decode_rejects :
    decodeFrame Config.default .three ⟨[], 0⟩ = .reject .emptyFrame ∧
    decodeFrame Config.default .three ⟨[0x00], 0⟩ = .reject .unknownOpcode ∧
    decodeFrame Config.default .three ⟨[0x06, 0x00], 0⟩ = .reject .badShape ∧
    decodeFrame Config.default .three ⟨[0x9F], 4⟩ = .reject .badShape ∧
    decodeFrame Config.default .four ⟨[0x20, 0x00, 0x10, 0x00], 0⟩ = .reject .badShape ∧
    decodeFrame Config.default .three ⟨[0x02, 0x00, 0x10, 0x00], 0⟩ = .reject .badShape := by decide

/-- Four rows of the opcode table by their words, and one that is out of range. -/
theorem test_table_words :
    decodeTableWord 8 0 = some .probe ∧ decodeTableWord 8 0x9F = some .rdid ∧
    decodeTableWord 8 0x20 = some (.se4k 0) ∧ decodeTableWord 8 0xAD = some (.aaiFirst 0 0 0) ∧
    decodeTableWord 8 0x100 = none := by decide

/-- A host request and a frame placed by their words are what the next step runs. -/
theorem test_fetch_word :
    (State.reset.withFetchWord 8 1).fetch = .run .getsize State.reset ∧
    (State.reset.withFetchWord 8 0x9F).fetch = .run .rdid (State.reset.withFetchWord 8 0x9F) ∧
    (State.reset.withFetchWord 8 0xD8).fetch = .run (.be64k 0) (State.reset.withFetchWord 8 0xD8) ∧
    [0, 1, 2, 3, 4, 5, 6, 7, 0x9F, 0x20, 0xAD, 0x17].all
      (fun w => (nextOf (step (State.reset.withFetchWord 8 w))).isSome) = true := by decide

/-! ### Single steps (`95_test_vectors.md` sections 3 to 7) -/

/-- V3.13: a second `PROBE` returns `Ok`. -/
theorem test_probe_again : statusOf (exec .probe (probedAs 0 [])) = some .ok := by decide
/-- V3.1: the first frame is `RDID`. -/
theorem test_probe_first : frameOf (exec .probe (fresh [])) = some .rdid := by decide
/-- V3.17. -/
theorem test_getsize : ((nextOf (exec .getsize (probedAs 5 []))).bind State.resp).map Response.size =
    some 0x00080000 := by decide
/-- V3.16. -/
theorem test_getsize_unprobed : statusOf (exec .getsize (fresh [])) = some .notProbed := by decide
/-- V7.4: the sum is exact. -/
theorem test_read_range : statusOf (exec (.read 0xFFFFFFFF 0xFFFFFFFF) (probedAs 0 [])) = some .outOfRange := by
  decide
/-- V7.5, V4.3: the first frame at width 3 and at width 4. -/
theorem test_read_first :
    frameOf (exec (.read 0x01000000 0) (probedAs 0 [])) = some (.readFrame 0x01000000 0) ∧
    frameOf (exec (.read 0x02000000 0) (probedAs 4 [])) = some .en4b := by decide
/-- V5.7, V5.8. -/
theorem test_erase_checks :
    statusOf (exec (.erase 0x01000800 0x800) (probedAs 0 [])) = some .unaligned ∧
    statusOf (exec (.erase 0xFFFFF000 0x1000) (probedAs 0 [])) = some .outOfRange := by decide
/-- V5.4, V5.3. -/
theorem test_erase_runs :
    statusOf (exec (.erase 0x01000000 0) (probedAs 0 [])) = some .ok ∧
    frameOf (exec (.erase 0xFFF000 0x1000) (probedAs 0 [])) = some .wren := by decide
/-- V4.3: no bracket. V5.17. -/
theorem test_chiperase :
    frameOf (exec .chiperase (probedAs 1 [])) = some .wren ∧
    statusOf (exec .chiperase (fresh [])) = some .notProbed := by decide
/-- V6.7, V6.8. -/
theorem test_write_range :
    statusOf (exec (.write 0xFFFFFFFF [0, 0]) (probedAs 0 [])) = some .outOfRange ∧
    statusOf (exec (.write 0x01000000 []) (probedAs 0 [])) = some .ok := by decide
/-- V6.18: on the auto-increment path an empty `WRITE` still sends `WREN`. V4.3. -/
theorem test_write_first :
    frameOf (exec (.write 1 []) (probedAs 3 [])) = some .wren ∧
    frameOf (exec (.write 0x01000000 [0xDE, 0xAD]) (probedAs 2 [])) = some (.brwr 0x80) := by decide
theorem test_reserved67 : nextOf (exec (.reserved67 true) (probedAs 0 [])) = some (probedAs 0 []) := by decide

theorem test_rdid_sends : callAt .rdid 1 = some [.writeOnly [0x9F]] ∧ callAt .rdid 2 = some [.readOnly 5] := by decide
theorem test_wren_sends : callAt .wren 1 = some [.writeOnly [0x06]] := by decide
theorem test_wren_selects : callAt .wren 0 = some [.chipSelect 0 true] ∧ callAt .wren 2 = some [.chipSelect 0 false] := by
  decide
theorem test_wrdi_sends : callAt .wrdi 1 = some [.writeOnly [0x04]] := by decide
theorem test_rdsr_sends : callAt .rdsr 1 = some [.writeOnly [0x05]] ∧ callAt .rdsr 2 = some [.readOnly 1] := by decide
theorem test_wrsr_sends : callAt (.wrsr 0x83) 1 = some [.writeOnly [0x01, 0x83]] := by decide
theorem test_en4b_sends : callAt .en4b 1 = some [.writeOnly [0xB7]] := by decide
theorem test_ex4b_sends : callAt .ex4b 1 = some [.writeOnly [0xE9]] := by decide
theorem test_brwr_sends : callAt (.brwr 0x80) 1 = some [.writeOnly [0x17, 0x80]] := by decide
theorem test_exhb_sends : callAt .exhb 1 = some [.writeOnly [0x98]] := by decide
theorem test_wrear_sends : callAt (.wrear 0) 1 = some [.writeOnly [0xC5, 0x00]] := by decide
theorem test_se4k_sends : callAt (.se4k 0x01FF0000) 1 = some [.writeOnly [0x20, 0x01, 0xFF, 0x00, 0x00]] := by decide
theorem test_se4kPmc_sends : callAt (.se4kPmc 0x7F000) 1 = some [.writeOnly [0xD7, 0x00, 0x07, 0xF0, 0x00]] := by decide
theorem test_be32k_sends : callAt (.be32k 0x8000) 1 = some [.writeOnly [0x52, 0x00, 0x00, 0x80, 0x00]] := by decide
theorem test_be64k_sends : callAt (.be64k 0x01FF0000) 1 = some [.writeOnly [0xD8, 0x01, 0xFF, 0x00, 0x00]] := by decide
theorem test_ce_sends : callAt .ce 1 = some [.writeOnly [0xC7]] := by decide
theorem test_pp_sends : callAt (.pp 0x01000000 [0xDE, 0xAD]) 1 =
    some [.writeOnly [0x02, 0x01, 0x00, 0x00, 0x00, 0xDE, 0xAD]] := by decide
theorem test_aaiFirst_sends : callAt (.aaiFirst 2 0xA2 0xA3) 1 =
    some [.writeOnly [0xAD, 0x00, 0x00, 0x00, 0x02, 0xA2, 0xA3]] := by decide
theorem test_aaiNext_sends : callAt (.aaiNext 0xB4 0xB5) 1 = some [.writeOnly [0xAD, 0xB4, 0xB5]] := by decide
theorem test_readFrame_sends : callAt (.readFrame 0x01FFFFFC 4) 1 =
    some [.writeOnly [0x03, 0x01, 0xFF, 0xFF, 0xFC]] := by decide
/-- V7.2: the second call after the address takes the one byte left. -/
theorem test_readFrame_chunks :
    callAt (.readFrame 0 4097) 3 = some [.readOnly 1] ∧ callAt (.readFrame 0 4097) 4 = some [.chipSelect 0 false] := by
  decide
/-- R28: on a `READ` `A` starts at the address (when it has been sent) and advances by the bytes a call brought. -/
theorem test_readFrame_advances_a :
    [1, 2].map (fun beat => (nextOf (exec (.readFrame 0x10FC 3)
      (State.at { probedAs 1 [.reply [7, 8, 9]] with work := { Work.zero with a := 0x10FC, n := 3 } }
        (.read 0x10FC 3) (.readFrame 0x10FC 3) beat []))).map fun t => t.work.a) =
      [some 0x10FC, some 0x10FF] := by decide
/-- The closing chip select of `RDSR` writes `SR`, that of `RDID` writes `ID` (R152, R121). -/
theorem test_register_reads :
    ((nextOf (exec .rdsr (State.at { probedAs 1 [.reply []] with work := { Work.zero with rx := [0x9F] } }
      .chiperase .rdsr 3 []))).map fun t => t.work.sr) = some 0x9F ∧
    ((nextOf (exec .rdid (State.at { fresh [.reply []] with work := { Work.zero with rx := [0xEF, 0x40, 0x18, 1, 2] } }
      .probe .rdid 3 []))).map fun t => t.work.id) = some ⟨0xEF, 0x40, 0x18, 1, 2⟩ := by decide

/-- V3.20 and `95_test_vectors.md` section 2: what is derived from the ten descriptors. -/
theorem test_derive : (List.range 10).map (fun i => deriveEraseOp Config.default (entry i)) =
      [0x20, 0xD8, 0xD8, 0x20, 0x20, 0xD7, 0x20, 0x20, 0xD8, 0x52] ∧
    (List.range 10).map (fun i => (deriveEraseGran Config.default (entry i)).toNat) =
      [4096, 65536, 262144, 4096, 4096, 4096, 4096, 4096, 65536, 32768] := by decide
/-- V3.3, V3.6: the cleared value. -/
theorem test_bpCleared : bpCleared 0x9F (bpMask Config.default (entry 0)) = 0x83 ∧ bpCleared 0xFE (bpMask Config.default (entry 2)) = 0x82 := by decide
/-- V6.10: `PAGE_SIZE = 3`. -/
theorem test_pageFrames_odd_page : programsOf (pageFrames 3 5 4 [1, 2, 3, 4, 5]) = [(4, [1, 2]), (6, [3, 4, 5])] := by
  decide
/-- V6.11, V6.14: the two uneven cases. -/
theorem test_aaiFrames :
    aaiFrames 1 [0xA1, 0xA2, 0xA3, 0xA4] = [.wren, .pp 1 [0xA1], .rdsr, .wren, .aaiFirst 2 0xA2 0xA3, .rdsr, .wrdi,
      .rdsr, .wren, .pp 4 [0xA4], .rdsr] ∧
    aaiFrames 0x10 [0x70, 0x71, 0x72] =
      [.wren, .aaiFirst 0x10 0x70 0x71, .rdsr, .wrdi, .rdsr, .wren, .pp 0x12 [0x72], .rdsr] := by decide
/-- P1: the status byte after `WREN` is 0x02, and programming only clears bits (R74). -/
theorem test_device :
    (Device.blank.react Config.default .wren).status = 0x02 ∧
    Memory.read ((({ Device.blank with cap := 16, wel := true, mem := [(3, 0x0F)] } : Device).react Config.default
      (.pp 3 [0x3C])).mem) 3 = 0x0C := by decide

/-- R74: `RDID` gives "for as many bytes as are clocked" the five bytes, "then repeats from `idbytes[0]`". -/
theorem test_device_rdid_repeats :
    ({ Device.blank with idBytes := ⟨1, 2, 3, 4, 5⟩, frame := [0x9F] } : Device).answer Config.default 7 =
      some [1, 2, 3, 4, 5, 1, 2] := by decide

/-! ### Witnesses: states and operands that meet the hypotheses of each obligation

One theorem for each obligation that has hypotheses, named after it; a clause with hypotheses of its own has
its own conjunct, at a boundary of its range. -/

/-- A probed block, width 4, in the middle of a `READ`, before the first call of frame `f`. -/
def busyWith (f : Instr) (script : List Scripted) : State := State.at (probedAs 1 script) (.read 0 0) f 0 []

/-- `PROBE` at the closing chip select of `RDID`, with the identification of entry 1 received. -/
def atIdentified : State :=
  State.at { fresh [.reply []] with work := { Work.zero with rx := [0x20, 0xBA, 0x19, 0x10, 0x00] } }
    .probe .rdid 3 [.identify]

/-- Answers that all succeed and show a ready device. -/
def ready (n : Nat) : List Scripted := List.replicate n (.reply [0])

/-- A configuration with a poll limit. -/
def limited (l : Nat) : Config := { Config.default with pollLimit := some l }

theorem presents_asked (s : State) (i : Instr) (r : HostRecord) (he : encode s.config .three i = .host r)
    (hd : decodeHost r = .ok i) (h1 : s.resetPin = false) (h2 : configRuns s.config = true) (h3 : s.seq = .idle) :
    (State.asked s i).presents i := by
  unfold State.asked; rw [he]; exact ⟨h1, h2, h3, r, [], rfl, hd⟩

theorem busy_atFrame (f : Instr) (script : List Scripted) (hf : f.isHost = false) :
    (busyWith f script).atFrame (.read 0 0) f [] :=
  ⟨rfl, default_runs, rfl, hf, fun _ => rfl⟩

theorem witness_ResetAbandonsAndForgetsEverything :
    ({ busyWith .wren [] with resetPin := true } : State).resetPin = true ∧
    configRuns ({ busyWith .wren [] with resetPin := true } : State).onReset.config = true ∧
    ({ busyWith .wren [] with resetPin := true } : State).onReset.host = [] := ⟨rfl, default_runs, rfl⟩

theorem witness_StepRunsTheNextInstruction :
    ({ State.reset with resetPin := true } : State).resetPin = true ∧
    configRuns ({ Config.default with pageSize := 0 } : Config) = false ∧
    (busyWith .wren []).seq = .running ⟨.read 0 0, .wren, 0, []⟩ ∧
    (State.reset.seq = .idle ∧ State.reset.host = []) ∧
    ((State.asked State.reset .probe).seq = .idle ∧ (State.asked State.reset .probe).host = [⟨0, 0, 0, []⟩] ∧
      decodeHost ⟨0, 0, 0, []⟩ = .ok .probe) ∧
    decodeHost ⟨5, 0, 1, []⟩ = .reject .dataLength ∧
    ((Instr.write 0 [7]).wf Config.default = true ∧
      encode Config.default .three (.write 0 [7]) = .host ⟨5, 0, 1, [7]⟩) := by
  refine ⟨rfl, by decide, rfl, ⟨rfl, rfl⟩, ⟨rfl, rfl, rfl⟩, rfl, by decide, rfl⟩

theorem witness_OperationCodesDecode :
    ([] : List Byte).length = (0 : Word).toNat ∧ ([1] : List Byte).length ≠ (0 : Word).toNat := by decide

theorem witness_DecodeOfEncodeIsTheInstruction :
    Config.default.op.distinct = true ∧
    [Instr.se4k 0xFFF000, .pp 0xFFFFFE [1, 2], .readFrame 0xFFFFFF 0xFFFFFFFF, .write 0xFFFFFFFF []].all
      (fun i => i.wf Config.default && i.fits .three) = true := by decide

theorem witness_FrameHasOneReading :
    decodeFrame Config.default .four ⟨[0x03, 0xFF, 0xFF, 0xFF, 0xFF], 4294967295⟩ =
      .ok (.readFrame 0xFFFFFFFF 0xFFFFFFFF) ∧
    ([0x00, 0x06] : List Byte).head? = some 0x00 ∧ (0x00 : Byte) ∉ Config.default.op.all := by decide

theorem witness_StepKeepsTheInvariant :
    [{ busyWith .wren [] with resetPin := true }, State.reset, State.asked (probedAs 0 []) (.erase 0 0), atIdentified,
      busyWith (.readFrame 0 1) [.reply []]].all (fun s => s.inv && (nextOf (step s)).isSome) = true := by decide

theorem witness_InvariantStatesNeverFault :
    State.reset.inv = true ∧ configRuns State.reset.config = true ∧ State.reset.host = [] ∧
    (State.asked State.reset .getsize).inv = true ∧ decodeHost ⟨1, 0, 0, []⟩ = .ok .getsize ∧
    ({ State.reset with resetPin := true, config := { Config.default with pageSize := 0 } } : State).inv = true := by
  decide

theorem witness_ParametersNeverChange : (nextOf (step State.reset)).isSome = true := by decide

/-- The committing step meets the last clause, any step of a probed block the middle one. -/
theorem witness_ConfigIsValidExactlyWhenProbed :
    atIdentified.inv = true ∧ ((nextOf (step atIdentified)).map fun t => t.cfg.isSome) = some true ∧
    atIdentified.cfg = none ∧
    (busyWith .wren [.reply []]).inv = true ∧ (busyWith .wren [.reply []]).probed = true ∧
    (busyWith .wren [.reply []]).resetPin = false ∧ (nextOf (step (busyWith .wren [.reply []]))).isSome = true := by
  decide

theorem witness_ProbedIsSetByProbeAndClearedByReset :
    (atIdentified.inv = true ∧ atIdentified.probed = false ∧
      ((nextOf (step atIdentified)).map fun t => t.probed) = some true) ∧
    (({ probedAs 0 [] with resetPin := true } : State).inv = true ∧ (probedAs 0 []).probed = true ∧
      ((nextOf (step { probedAs 0 [] with resetPin := true })).map fun t => t.probed) = some false) := by decide

theorem witness_OneTransportCallPerRunningStep :
    ((busyWith .wren [.reply []]).inv = true ∧ (nextOf (step (busyWith .wren [.reply []]))).isSome = true ∧
      (busyWith .wren [.reply []]).resetPin = false) ∧
    (State.reset.inv = true ∧ State.reset.seq = .idle ∧ (nextOf (step State.reset)).isSome = true) ∧
    (({ busyWith .wren [] with resetPin := true } : State).inv = true ∧
      (nextOf (step { busyWith .wren [] with resetPin := true })).isSome = true) := by decide

theorem witness_RunningBlockAcceptsNothing :
    (busyWith .wren [.reply []]).inv = true ∧ (nextOf (step (busyWith .wren [.reply []]))).isSome = true ∧
    (busyWith .wren [.reply []]).seq = .running ⟨.read 0 0, .wren, 0, []⟩ := by decide

/-- A step that sends bytes, and one that drives chip select. -/
theorem witness_SentFramesBeginWithAnOpcode :
    (State.at (probedAs 1 (ready 1)) (.read 0 0) (.se4k 0) 1 []).inv = true ∧
    ((nextOf (step (State.at (probedAs 1 (ready 1)) (.read 0 0) (.se4k 0) 1 []))).map fun t => callsOf t.trace) =
      some [.writeOnly [0x20, 0, 0, 0, 0]] ∧
    ((nextOf (step (busyWith .wren (ready 1)))).map fun t => callsOf t.trace) = some [.chipSelect 0 true] := by decide

theorem witness_EraseFrameCarriesTheConfiguredOpcode :
    (probedAs 5 []).inv = true ∧ (probedAs 5 []).cfg = some (derive Config.default 5 (entry 5)) := by decide

theorem witness_PhasesOnlyGoForward :
    (State.at (probedAs 2 (ready 1)) (.read 0 1) (.brwr 0x80) 2 [.send (.readFrame 0 1), .setMode false]).resetPin =
      false ∧
    frameOf (step (State.at (probedAs 2 (ready 1)) (.read 0 1) (.brwr 0x80) 2
      [.send (.readFrame 0 1), .setMode false])) = some (.readFrame 0 1) := by decide

/-- Another device behind the transport, with the answers scripted: no call can tell. -/
theorem witness_BlockSeesOnlyAnswers :
    ∃ e : Env, e ≠ (busyWith .wren (ready 1)).env ∧ e.draws = (busyWith .wren (ready 1)).env.draws ∧
      (∀ call, ({ busyWith .wren (ready 1) with env := e } : State).answer call =
        (busyWith .wren (ready 1)).answer call) ∧
      (nextOf (step (busyWith .wren (ready 1)))).isSome = true :=
  ⟨{ (busyWith .wren (ready 1)).env with dev := { Device.blank with wel := true } }, by decide, rfl, fun _ => rfl,
    by decide⟩

/-- Every frame, at its first call and at its closing one. -/
theorem witness_EveryFrameMakesItsNextCall :
    someFrames.all (fun f =>
      (busyWith f (ready 1)).inv &&
      (frameCalls Config.default .four f)[0]? == some (.chipSelect 0 true) &&
      (frameCalls Config.default .four f).getLast? == some (.chipSelect 0 false)) = true ∧
    (busyWith .wren [.fail 0]).answer (.chipSelect 0 true) = .fail ∧
    (busyWith .wren (ready 1)).answer (.chipSelect 0 true) = .ok [] ∧
    (busyWith .wren []).width = .four := by decide

/-- Every frame at its first call; a receiving call of `RDID`, and the last receiving call of a `READ`. -/
theorem witness_CallsInsideAFrameKeepTheRegisters :
    someFrames.all (fun f => (nextOf (exec f (busyWith f (ready 1)))).isSome &&
      decide (1 < (frameCalls Config.default .four f).length)) = true ∧
    (nextOf (exec .rdid (State.at (probedAs 1 (ready 1)) (.read 0 0) .rdid 2 []))).isSome = true ∧
    (frameCalls Config.default .four .rdid)[2]? = some (.readOnly 5) ∧
    (frameCalls Config.default .four (.readFrame 0 4097))[3]? = some (.readOnly 1) := by decide

theorem witness_LastCallOfAFrameCompletesIt :
    someFrames.all (fun f =>
      let n := (frameCalls Config.default .four f).length
      (State.at (probedAs 1 (ready 1)) (.read 0 0) f (n - 1) []).inv &&
      ((frameCalls Config.default .four f)[n - 1]?).isSome && decide (n - 1 + 1 = n)) = true ∧
    (State.at (probedAs 1 (ready 1)) (.read 0 0) .rdsr 3 []).answer (.chipSelect 0 false) = .ok [] := by decide

theorem witness_FailedCallEndsTheRequest :
    (busyWith .rdsr [.fail 0]).inv = true ∧ (busyWith .rdsr [.fail 0]).resetPin = false ∧
    configRuns (busyWith .rdsr [.fail 0]).config = true ∧
    (busyWith .rdsr [.fail 0]).seq = .running ⟨.read 0 0, .rdsr, 0, []⟩ ∧
    (frameCalls Config.default .four .rdsr)[0]? = some (.chipSelect 0 true) ∧
    (busyWith .rdsr [.fail 0]).answer (.chipSelect 0 true) = .fail := by decide

/-- An error after a call (`NoDevice`), and one before any (`Unaligned`). -/
theorem witness_ErrorsAbortAtOnce :
    (∃ t r, (State.at (fresh (ready 1)) .probe .rdid 3 [.identify]).inv = true ∧
      step (State.at (fresh (ready 1)) .probe .rdid 3 [.identify]) = .next t ∧
      t.trace = [] ++ [.call (.chipSelect 0 false) (.ok [])] ++ [.response r] ∧ r.status = .noDevice) ∧
    ∃ t r, (State.asked (probedAs 0 []) (.erase 1 0)).inv = true ∧
      step (State.asked (probedAs 0 []) (.erase 1 0)) = .next t ∧ t.trace = [] ++ [] ++ [.response r] ∧
      r.status = .unaligned :=
  ⟨⟨_, _, by decide, rfl, rfl, rfl⟩, _, _, by decide, rfl, rfl, rfl⟩

theorem witness_CommandFramesRunWhole :
    ∀ f, f ∈ someFrames → f ≠ .rdid → f ≠ .rdsr → f ≠ .readFrame 0 4097 →
      (busyWith f silent).atFrame (.read 0 0) f [] ∧ (∀ a len, f ≠ .readFrame a len) ∧
      (busyWith f silent).hears silent := by
  intro f hf h1 h2 h3
  have hh : f.isHost = false := by
    revert f; simp [someFrames, Instr.isHost]
  refine ⟨busy_atFrame f _ hh, ?_, rfl⟩
  intro a len he
  subst he
  simp [someFrames] at hf
  obtain ⟨rfl, rfl⟩ := hf
  exact h3 rfl

theorem witness_RegisterReadsRunWhole :
    ((busyWith .rdsr (reading [0xFF])).atFrame (.read 0 0) .rdsr [] ∧
      (busyWith .rdsr (reading [0xFF])).hears (reading [0xFF])) ∧
    ((busyWith .rdid (reading [1, 2, 3, 4, 5])).atFrame (.read 0 0) .rdid [] ∧
      (busyWith .rdid (reading [1, 2, 3, 4, 5])).hears (reading [1, 2, 3, 4, 5])) :=
  ⟨⟨busy_atFrame _ _ rfl, rfl⟩, busy_atFrame _ _ rfl, rfl⟩

/-- A status byte with bit 0 clear and all others set, and one with only bit 0 set, below and at the limit. -/
theorem witness_PollLooksAtBitZeroOnly :
    (probedAs 1 (ready 1)).config.fixed = FixedNumbers.source ∧
    (∀ b : Byte, ({ State.at (probedAs 1 (ready 1)) .chiperase .rdsr 3 [.pollTest 0] with
      work := { Work.zero with rx := [b] } } : State).work.rx = b :: []) ∧
    (State.at (probedAs 1 (ready 1)) .chiperase .rdsr 3 [.pollTest 0]).answer (.chipSelect 0 false) = .ok [] ∧
    (0xFE : Byte).toNat % 2 = 0 ∧ (0x01 : Byte).toNat % 2 = 1 ∧
    (∀ l, (limited 2).pollLimit = some l → 0 + 1 < l) ∧ (∃ l, (limited 1).pollLimit = some l ∧ l ≤ 0 + 1) :=
  ⟨rfl, fun _ => rfl, by decide, by decide, by decide, by simp [limited], 1, rfl, by decide⟩

theorem witness_PollNeverGivesUp :
    let s := State.at (probedAs 1 (reading [0x01] ++ reading [0xFF])) .chiperase .rdsr 0 [.pollTest 7]
    s.atFrame .chiperase .rdsr [.pollTest 7] ∧ s.config.pollLimit = none ∧
    (∀ b ∈ ([0x01, 0xFF] : List Byte), b.toNat % 2 = 1) ∧
    s.hears (([0x01, 0xFF] : List Byte).flatMap fun b => reading [b]) :=
  ⟨⟨rfl, default_runs, rfl, rfl, fun _ => rfl⟩, rfl, by decide, rfl⟩

/-- Two busy answers, with the limit 2 and with the limit 3. -/
theorem witness_PollLimitTimesOut (l : Nat) (_ : l = 2 ∨ l = 3) :
    let s : State := { State.at (probedAs 1 (reading [0x01] ++ reading [0x01])) .chiperase .rdsr 0 [.pollTest 0] with
      config := limited l }
    s.atFrame .chiperase .rdsr [.pollTest 0] ∧ s.config.pollLimit = some l ∧
    1 ≤ ([0x01, 0x01] : List Byte).length ∧ (∀ b ∈ ([0x01, 0x01] : List Byte), b.toNat % 2 = 1) ∧
    s.hears (([0x01, 0x01] : List Byte).flatMap fun b => reading [b]) ∧
    (([0x01, 0x01] : List Byte).length = l ∨ ([0x01, 0x01] : List Byte).length < l) :=
  ⟨⟨rfl, default_runs, rfl, rfl, fun _ => rfl⟩, rfl, by decide, by decide, rfl, by simp; omega⟩

theorem witness_SecondProbeDoesNothing : (probedAs 0 []).seq = .idle ∧ (probedAs 0 []).probed = true := ⟨rfl, rfl⟩

theorem witness_ProbeStartsWithRdid : State.reset.seq = .idle ∧ State.reset.probed = false := ⟨rfl, rfl⟩

/-- What a `PROBE` hears: an identification and some more answers. -/
def probing (id : List Byte) (more : List Scripted) : State := State.asked (fresh (reading id ++ more)) .probe

theorem probing_presents (id : List Byte) (more : List Scripted) : (probing id more).presents .probe :=
  presents_asked _ _ ⟨0, 0, 0, []⟩ rfl rfl rfl default_runs rfl

/-- All zeros, all ones, and one bit off. -/
theorem witness_BlankIdentificationIsNoDevice (b : Byte) (_ : b ∈ ([0x00, 0xFF, 0xFE] : List Byte)) :
    (probing [b, b, b, 0x12, 0x34] []).presents .probe ∧ (probing [b, b, b, 0x12, 0x34] []).probed = false ∧
    (probing [b, b, b, 0x12, 0x34] []).hears (reading [b, b, b, 0x12, 0x34]) :=
  ⟨probing_presents _ _, rfl, rfl⟩

/-- Entries 0 and 9 share their JEDEC ID; an extended ID of neither misses (V3.10). -/
theorem witness_LookupIsExactAndAMissIsUnrecognized :
    (lookup Config.default 0xEF4018 0xAB01).map Prod.fst = some 9 ∧
    (probing [0xEF, 0x40, 0x18, 0x00, 0x01] []).presents .probe ∧
    (probing [0xEF, 0x40, 0x18, 0x00, 0x01] []).probed = false ∧
    (probing [0xEF, 0x40, 0x18, 0x00, 0x01] []).hears (reading [0xEF, 0x40, 0x18, 0x00, 0x01]) ∧
    noChip ((0xEF : Byte) ++ (0x40 : Byte) ++ (0x18 : Byte)) = false ∧
    lookup Config.default ((0xEF : Byte) ++ (0x40 : Byte) ++ (0x18 : Byte)) ((0x00 : Byte) ++ (0x01 : Byte)) = none :=
  ⟨by decide, probing_presents _ _, rfl, rfl, by decide, by decide⟩

theorem witness_ProbeUnlocksWithoutAPoll :
    (probing [0xBF, 0x25, 0x4A, 0xBF, 0x25] (silent ++ silent)).presents .probe ∧
    (probing [0xBF, 0x25, 0x4A, 0xBF, 0x25] (silent ++ silent)).probed = false ∧
    noChip ((0xBF : Byte) ++ (0x25 : Byte) ++ (0x4A : Byte)) = false ∧
    lookup Config.default ((0xBF : Byte) ++ (0x25 : Byte) ++ (0x4A : Byte)) ((0xBF : Byte) ++ (0x25 : Byte)) =
      some (3, entry 3) ∧
    (entry 3).srUnlock = true ∧
    (probing [0xBF, 0x25, 0x4A, 0xBF, 0x25] (silent ++ silent)).hears
      (reading [0xBF, 0x25, 0x4A, 0xBF, 0x25] ++ silent ++ silent) :=
  ⟨probing_presents _ _, rfl, by decide, by decide, rfl, rfl⟩

/-- No exposed bit (entry 1); a masked bit clear and set (entry 9, bit 5 only). -/
theorem witness_ProbeClearsExposedProtection :
    Config.default.fixed = FixedNumbers.source ∧
    (∀ id more, (probing id more).presents .probe ∧ (probing id more).probed = false) ∧
    (noChip ((0x20 : Byte) ++ (0xBA : Byte) ++ (0x19 : Byte)) = false ∧
      lookup Config.default ((0x20 : Byte) ++ (0xBA : Byte) ++ (0x19 : Byte)) ((0x10 : Byte) ++ (0x00 : Byte)) =
        some (1, entry 1) ∧
      ((entry 1).srUnlock = false ∧ (entry 1).bp02 = false ∧ (entry 1).bp3 = false ∧ (entry 1).bp4 = false) ∧
      (probing [0x20, 0xBA, 0x19, 0x10, 0x00] []).hears (reading [0x20, 0xBA, 0x19, 0x10, 0x00])) ∧
    (noChip ((0xEF : Byte) ++ (0x40 : Byte) ++ (0x18 : Byte)) = false ∧
      lookup Config.default ((0xEF : Byte) ++ (0x40 : Byte) ++ (0x18 : Byte)) ((0xAB : Byte) ++ (0x01 : Byte)) =
        some (9, entry 9) ∧
      (entry 9).srUnlock = false ∧ (entry 9).bp3 = true ∧
      (0xDF : Byte) &&& bpMask Config.default (entry 9) = 0 ∧ (0x20 : Byte) &&& bpMask Config.default (entry 9) ≠ 0 ∧ (0xFE : Byte).toNat % 2 = 0 ∧
      (probing [0xEF, 0x40, 0x18, 0xAB, 0x01] (reading [0xDF])).hears
        (reading [0xEF, 0x40, 0x18, 0xAB, 0x01] ++ reading [0xDF]) ∧
      (probing [0xEF, 0x40, 0x18, 0xAB, 0x01] (reading [0x20] ++ silent ++ silent ++ reading [0xFE])).hears
        (reading [0xEF, 0x40, 0x18, 0xAB, 0x01] ++ reading [0x20] ++ silent ++ silent ++ reading [0xFE])) := by
  refine ⟨rfl, fun _ _ => ⟨probing_presents _ _, rfl⟩, ⟨by decide, by decide, by decide, rfl⟩, by decide, by decide, rfl,
    rfl, by decide, by decide, by decide, rfl, rfl⟩

/-- All ten descriptors, and one for each of the five lines of R126. -/
theorem witness_ConfigFollowsTheDescriptor :
    Config.default.fixed = FixedNumbers.source ∧
    (List.range 10).all (fun i => (probedAs i []).inv && (entry i).hasErase &&
      (probedAs i []).probedDevice == some (derive Config.default i (entry i), entry i)) = true ∧
    (entry 0).sect4k = true ∧ ((entry 5).sect4k = false ∧ (entry 5).sect4kPmc = true) ∧
    ((entry 9).sect4k = false ∧ (entry 9).sect4kPmc = false ∧ (entry 9).blk32k = true) ∧
    ((entry 1).sect4k = false ∧ (entry 1).sect4kPmc = false ∧ (entry 1).blk32k = false ∧ (entry 1).blk64k = true) ∧
    ((entry 2).sect4k = false ∧ (entry 2).sect4kPmc = false ∧ (entry 2).blk32k = false ∧
      (entry 2).blk64k = false) := by decide

/-- The three facts that hold of a block probed as entry 0: the hypotheses of the statements on the checks. -/
theorem probedAs_zero (script : List Scripted) :
    (probedAs 0 script).seq = .idle ∧ (probedAs 0 script).probed = true ∧
    (probedAs 0 script).probedDevice = some (derive Config.default 0 (entry 0), entry 0) := ⟨rfl, rfl, rfl⟩

theorem witness_GetsizeAnswersTheCapacity :
    ((probedAs 0 []).seq = .idle ∧ (probedAs 0 []).probed = true ∧
      (probedAs 0 []).probedDevice = some (derive Config.default 0 (entry 0), entry 0)) ∧
    (State.reset.seq = .idle ∧ State.reset.probed = false) := ⟨probedAs_zero [], rfl, rfl⟩

theorem witness_RequestsBeforeProbeEndNotProbed (i : Instr)
    (hi : i ∈ [Instr.getsize, .read 0 0, .erase 1 0, .chiperase, .write 0xFFFFFFFF [1]]) :
    State.reset.seq = .idle ∧ State.reset.probed = false ∧ i.isHost = true ∧ i ≠ .probe ∧
    ∀ b, i ≠ .reserved67 b := by
  revert i; simp [State.reset, Instr.isHost]

/-- The start off by one in range, the end off by one, and a sum that a 32-bit adder would wrap. -/
theorem witness_MisalignedEraseEndsUnaligned :
    (probedAs 0 []).probedDevice = some (derive Config.default 0 (entry 0), entry 0) ∧
    (deriveEraseGran Config.default (entry 0)).toNat = 4096 ∧
    (1 : Word).toNat % 4096 ≠ 0 ∧ ((0 : Word).toNat + (4095 : Word).toNat) % 4096 ≠ 0 ∧
    ((0xFFFFF000 : Word).toNat + (0x1001 : Word).toNat) % 4096 ≠ 0 ∧
    (∀ addr len, Instr.read 0 0 ≠ .erase addr len) ∧
    (∃ t r, exec (.read 0xFFFFFFFF 1) (probedAs 0 []) = .next t ∧ t.trace = [] ++ [.response r] ∧
      Event.response r ∈ [Event.response r]) :=
  ⟨rfl, by decide, by decide, by decide, by decide, fun _ _ h => (nomatch h), _, _, rfl, rfl, List.mem_singleton.2 rfl⟩

/-- One past the capacity, exactly at it, and the exact sum that would wrap, for each request. -/
theorem witness_SpansPastTheCapacityEndOutOfRange :
    ((probedAs 0 []).seq = .idle ∧ (probedAs 0 []).probed = true ∧
      (probedAs 0 []).probedDevice = some (derive Config.default 0 (entry 0), entry 0)) ∧
    (entry 0).capacity.toNat = 16777216 ∧ 16777216 < (0xFFFFFF : Word).toNat + (2 : Word).toNat ∧
    16777216 < (0x1000000 : Word).toNat + ([1] : List Byte).length ∧
    (misaligned 4096 0xFFFFF000 0x1000 = false ∧ 16777216 < (0xFFFFF000 : Word).toNat + (0x1000 : Word).toNat) ∧
    (∃ t r, exec (.erase 0x1001 0) (probedAs 0 []) = .next t ∧ t.resp = some r ∧
      (0x1001 : Word).toNat + (0 : Word).toNat ≤ 16777216) ∧
    (∃ t r, exec (.write 0x1000000 []) (probedAs 0 []) = .next t ∧ t.resp = some r ∧
      (0x1000000 : Word).toNat + ([] : List Byte).length ≤ 16777216) :=
  ⟨probedAs_zero [], rfl, by decide, by decide, by decide, ⟨_, _, rfl, rfl, by decide⟩, _, _, rfl, rfl, by decide⟩

theorem witness_FailedChecksHaveNoEffect :
    (∃ t r, exec (.erase 1 0) (probedAs 0 []) = .next t ∧ t.resp = some r ∧ r.status = .unaligned) ∧
    (∃ t r, exec (.read 0x1000000 1) (probedAs 0 []) = .next t ∧ t.resp = some r ∧ r.status = .outOfRange) ∧
    (∃ t r, exec .chiperase State.reset = .next t ∧ t.resp = some r ∧ r.status = .notProbed) :=
  ⟨⟨_, _, rfl, rfl, rfl⟩, ⟨_, _, rfl, rfl, rfl⟩, _, _, rfl, rfl, rfl⟩

theorem witness_AcceptedRequestsBegin :
    ((probedAs 0 []).seq = .idle ∧ (probedAs 0 []).probed = true ∧
      (probedAs 0 []).probedDevice = some (derive Config.default 0 (entry 0), entry 0)) ∧
    1 ≤ (probedAs 0 []).config.pageSize ∧ (0xFFFFFF : Word).toNat + (1 : Word).toNat ≤ (entry 0).capacity.toNat ∧
    misaligned 4096 0xFFF000 0x1000 = false ∧ (0xFFF000 : Word).toNat + (0x1000 : Word).toNat ≤ 16777216 ∧
    (0xFFFFFF : Word).toNat + ([1] : List Byte).length ≤ 16777216 :=
  ⟨probedAs_zero [], by decide, by decide, by decide, by decide, by decide⟩

theorem witness_ReservedCodesAreIgnored (b : Bool) :
    (State.asked State.reset (.reserved67 b)).presents (.reserved67 b) :=
  presents_asked _ _ _ rfl (by cases b <;> rfl) rfl default_runs rfl

theorem witness_StatusCodesAndTimeout :
    State.reset.config.pollLimit = none ∧ (nextOf (step (busyWith .rdsr [.fail 0]))).isSome = true := by decide

/-- A limit of 2 and one busy answer. -/
theorem witness_ChipEraseRunsWhole :
    let s : State := State.asked { probedAs 1 (silent ++ silent ++ (reading [0x01] ++ reading [0xFE])) with
      config := limited 2 } .chiperase
    s.presents .chiperase ∧ s.probed = true ∧ (∀ x ∈ ([0x01] : List Byte), x.toNat % 2 = 1) ∧
    (0xFE : Byte).toNat % 2 = 0 ∧ (∀ l, s.config.pollLimit = some l → ([0x01] : List Byte).length < l) ∧
    s.hears (silent ++ silent ++ (([0x01] ++ [0xFE] : List Byte).flatMap fun x => reading [x])) :=
  ⟨presents_asked _ _ ⟨4, 0, 0, []⟩ rfl rfl rfl default_runs rfl, rfl, by decide, by decide,
    by simp [State.asked, encode, limited, probedAs], rfl⟩

/-- The last sector, and an empty span at the capacity. -/
theorem witness_EraseRunsWhole :
    (State.asked (probedAs 0 (ready 10)) (.erase 0xFFF000 0x1000)).presents (.erase 0xFFF000 0x1000) ∧
    (State.asked (probedAs 0 []) (.erase 0x1000000 0)).presents (.erase 0x1000000 0) ∧
    misaligned 4096 0xFFF000 0x1000 = false ∧ misaligned 4096 0x1000000 0 = false ∧
    (0xFFF000 : Word).toNat + (0x1000 : Word).toNat ≤ (entry 0).capacity.toNat ∧
    (framesCalls Config.default .three (bracketed Config.default (derive Config.default 0 (entry 0)) (entry 0)
      (eraseFrames Config.default (derive Config.default 0 (entry 0)) 0xFFF000 0x1000))).length = 10 ∧
    (State.asked (probedAs 0 (ready 10)) (.erase 0xFFF000 0x1000)).quiet 10 :=
  ⟨presents_asked _ _ _ rfl rfl rfl default_runs rfl, presents_asked _ _ _ rfl rfl rfl default_runs rfl, by decide,
    by decide, by decide, by decide, rfl⟩

/-- Two chunks across a page boundary, and the last byte of the array. -/
theorem witness_PageWriteRunsWhole :
    (State.asked (probedAs 0 (ready 20)) (.write 0xFF [1, 2])).presents (.write 0xFF [1, 2]) ∧
    (State.asked (probedAs 0 (ready 10)) (.write 0xFFFFFF [1])).presents (.write 0xFFFFFF [1]) ∧
    (derive Config.default 0 (entry 0)).aai = false ∧
    (0xFFFFFF : Word).toNat + ([1] : List Byte).length ≤ (entry 0).capacity.toNat ∧
    (framesCalls Config.default .three (bracketed Config.default (derive Config.default 0 (entry 0)) (entry 0)
      (pageFrames 256 2 0xFF [1, 2]))).length = 20 ∧
    (State.asked (probedAs 0 (ready 20)) (.write 0xFF [1, 2])).quiet 20 :=
  ⟨presents_asked _ _ ⟨5, 0xFF, 2, [1, 2]⟩ rfl rfl rfl default_runs rfl,
    presents_asked _ _ ⟨5, 0xFFFFFF, 1, [1]⟩ rfl rfl rfl default_runs rfl, rfl, by decide, by decide, rfl⟩

/-- An odd address with an even count, so with a leading byte, a burst and a trailing byte (V6.11). -/
theorem witness_AutoIncrementWriteRunsWhole :
    (State.asked (probedAs 3 (ready 37)) (.write 1 [1, 2, 3, 4])).presents (.write 1 [1, 2, 3, 4]) ∧
    (probedAs 3 []).probedDevice = some (derive Config.default 3 (entry 3), entry 3) ∧
    (derive Config.default 3 (entry 3)).aai = true ∧
    (1 : Word).toNat + ([1, 2, 3, 4] : List Byte).length ≤ (entry 3).capacity.toNat ∧
    (framesCalls Config.default .three (bracketed Config.default (derive Config.default 3 (entry 3)) (entry 3)
      (aaiFrames 1 [1, 2, 3, 4]))).length = 37 ∧
    (State.asked (probedAs 3 (ready 37)) (.write 1 [1, 2, 3, 4])).quiet 37 :=
  ⟨presents_asked _ _ ⟨5, 1, 4, [1, 2, 3, 4]⟩ rfl rfl rfl default_runs rfl, by decide, by decide, by decide, by decide,
    rfl⟩

/-- The last two bytes of the array, at width 3. -/
theorem witness_ReadReturnsTheBytes :
    (State.asked (probedAs 0 [.reply [], .reply [], .reply [0xAA, 0xBB], .reply []]) (.read 0xFFFFFE 2)).presents
      (.read 0xFFFFFE 2) ∧
    (0xFFFFFE : Word).toNat + (2 : Word).toNat ≤ (entry 0).capacity.toNat ∧
    ([0xAA, 0xBB] : List Byte).length = (2 : Word).toNat ∧
    (State.asked (probedAs 0 [.reply [], .reply [], .reply [0xAA, 0xBB], .reply []]) (.read 0xFFFFFE 2)).hears
      ((setModeFrames Config.default (deriveWidth Config.default (entry 0)) (entry 0).jedecId true).flatMap (fun _ => silent) ++
        [.reply [], .reply []] ++ (pieces (readChunks 4096 (2 : Word).toNat) [0xAA, 0xBB]).map .reply ++ [.reply []] ++
        (setModeFrames Config.default (deriveWidth Config.default (entry 0)) (entry 0).jedecId false).flatMap (fun _ => silent)) :=
  ⟨presents_asked _ _ ⟨2, 0xFFFFFE, 2, []⟩ rfl rfl rfl default_runs rfl, by decide, by decide, by
    unfold State.hears; decide⟩

/-- Each class with each exit class it can have, on the default configuration; `A_WREN` with the other exit
classes on one that assigns them. -/
theorem witness_AddressModeFramesByClass :
    Config.default.fixed = FixedNumbers.source ∧
    (mfrClassOf Config.default 0x20 = .aWren ∧ exitClassOf Config.default 0x20 = .wrear) ∧
    ({ Config.default with exitClass := [(0x20, .exhb)] } : Config).exitClass = [(0x20, .exhb)] ∧
    exitClassOf { Config.default with exitClass := [(0x20, .exhb)] } 0x20 = .exhb ∧
    exitClassOf { Config.default with exitClass := [] } 0x20 = .none ∧
    (mfrOf 0xEF4019 = 0xEF ∧ mfrClassOf Config.default 0xEF = .aPlain ∧
      exitClassOf Config.default 0xEF = .wrear ∧ (0xEF4019 : JedecId) ≠ Config.default.wrearSkipId) ∧
    (mfrClassOf Config.default 0xC8 = .aPlain ∧ exitClassOf Config.default 0xC8 = .wrear ∧
      (0xC84019 : JedecId) = Config.default.wrearSkipId) ∧
    (mfrClassOf Config.default 0x1C = .aPlain ∧ exitClassOf Config.default 0x1C = .exhb) ∧
    (mfrClassOf Config.default 0xC2 = .aPlain ∧ exitClassOf Config.default 0xC2 = .none) ∧
    (mfrClassOf Config.default 0x01 = .b ∧ exitClassOf Config.default 0x01 = .none) ∧
    (mfrClassOf Config.default 0x8C = .none ∧ exitClassOf Config.default 0x8C = .none) := by decide

/-- The span that ends at the top of the address space; a first, a full and a last chunk. -/
theorem witness_PageChunksPartitionTheSpan :
    (1 ≤ 3 ∧ (0xFFFFFFFE : Word).toNat + ([1] : List Byte).length < 2 ^ 32 ∧ ([1] : List Byte) ≠ []) ∧
    programsOf (pageFrames 3 6 5 [1, 2, 3, 4, 5, 6]) = [(5, [1]), (6, [2, 3, 4]), (9, [5, 6])] := by decide

theorem witness_AutoIncrementSendsEveryByteOnce :
    (0xFFFFFFFE : Word).toNat + ([1] : List Byte).length < 2 ^ 32 ∧
    Instr.aaiFirst 2 2 3 ∈ aaiFrames 1 [1, 2, 3, 4] ∧ Instr.pp 1 [1] ∈ aaiFrames 1 [1, 2, 3, 4] ∧
    Instr.pp 4 [4] ∈ aaiFrames 1 [1, 2, 3, 4] := by decide

/-- Each of the five cases at its smallest count. -/
theorem witness_AutoIncrementFrameCounts :
    ((0 : Word).toNat % 2 = 0 ∧ ([] : List Byte).length = 2 * 0) ∧
    ((0 : Word).toNat % 2 = 0 ∧ ([1] : List Byte).length = 2 * 0 + 1) ∧
    ((1 : Word).toNat % 2 = 1 ∧ ([1] : List Byte).length = 2 * 0 + 1) ∧
    ((1 : Word).toNat % 2 = 1 ∧ ([1, 2] : List Byte).length = 2 * 1 ∧ 1 ≤ 1) ∧
    ((1 : Word).toNat % 2 = 1 ∧ ([] : List Byte).length = 0) := by decide

theorem witness_ReadChunksAreTheLoop : Config.default.fixed = FixedNumbers.source := rfl

/-- A device that has collected a `CE` frame, with the latch set and one byte that is not erased. -/
def armed (frame : List Byte) : Device :=
  { Device.blank with cap := 1024, wel := true, mem := [(3, 0x0F)], frame := frame }

/-- A block probed as entry 1 with that device attached and in 4-byte mode. -/
def attachedTo (d : Device) (f : Instr) (beat : Nat) : State :=
  let s := State.at (probedAs 1 []) (.read 0 0) f beat []
  { s with env := { s.env with attached := true, dev := d } }

/-- The call that sends a `SE4K` frame to that device fails. -/
def failing : State :=
  let s := attachedTo (armed []) (.se4k 0) 1
  { s with env := { s.env with script := [.fail 5] } }

/-- A deassert that erases byte 3; and a failing call of a frame that stores to it, after which the byte is a free
value (log entry 24), so that it may differ. -/
theorem witness_FlashChangesOnlyWhereAFrameStores :
    (((nextOf (step (attachedTo (armed [0xC7]) .ce 2))).map fun t => Memory.read t.env.dev.mem 3) = some 0xFF ∧
      Memory.read (attachedTo (armed [0xC7]) .ce 2).env.dev.mem 3 = 0x0F) ∧
    (failing.env.attached = true ∧ failing.seq = .running ⟨.read 0 0, .se4k 0, 1, []⟩ ∧
      failing.answer (.writeOnly [0x20, 0, 0, 0, 0]) = .fail ∧
      failing.env.dev.stores failing.config (.se4k 0) 3 = true) := by decide

theorem witness_AttachedDeviceReactsToTheFrame :
    let s := attachedTo { armed [] with mode4 := true } (.pp 0x10FE [1, 2]) 0
    s.atFrame (.read 0 0) (.pp 0x10FE [1, 2]) [] ∧ s.env.attached = true ∧ s.env.script = [] ∧
    s.config.op.distinct = true ∧ (Instr.pp 0x10FE [1, 2]).wf s.config = true ∧
    (Instr.pp 0x10FE [1, 2]).fits s.width = true ∧ s.env.dev.width = s.width ∧ s.env.dev.busyPolls = 0 :=
  ⟨⟨rfl, default_runs, rfl, rfl, fun _ => rfl⟩, rfl, rfl, default_distinct, by decide, rfl, rfl, rfl⟩

/-- The last two bytes of the last page, with and without the latch. -/
theorem witness_PageProgramAndsIntoTheArray :
    Memory.wf (armed []).mem = true ∧ 1 ≤ Config.default.pageSize ∧ (armed []).phys 0x3FE % 256 + ([1, 2] : List Byte).length ≤ 256 ∧
    (armed []).phys 0x3FE + ([1, 2] : List Byte).length ≤ (armed []).cap ∧ (armed []).wel = true ∧
    ({ armed [] with wel := false } : Device).wel = false := by decide

/-- With and without the latch; `RDSR` and `RDID` collected, `RDSR` also while busy; a frame that a busy device and
one that is not have read; and each erase frame with the size of its region. -/
theorem witness_RegisterAndEraseFramesReactOnTheDevice :
    (Config.default.fixed = FixedNumbers.source ∧ Config.default.op.distinct = true) ∧
    ((armed []).wel = true ∧ Device.blank.wel = false) ∧
    ((armed [0x05]).frame = [Config.default.op.rdsr] ∧ (armed [0x9F]).frame = [Config.default.op.rdid] ∧
      (armed [0x9F]).busyPolls = 0 ∧ (armed [0x9F]).rxCount = 0) ∧
    0 < ({ armed [0x05] with busyPolls := 1 } : Device).busyPolls ∧
    ((armed [0xC7]).reading Config.default = .ok .ce ∧ (armed [0xC7]).busyPolls = 0) ∧
    (({ armed [0xC7] with busyPolls := 1 } : Device).reading Config.default = .ok .ce ∧
      0 < ({ armed [0xC7] with busyPolls := 1 } : Device).busyPolls) ∧
    (Instr.be64k 0xFFFF, 65536) ∈ [(Instr.se4k 0xFFFF, 4096), (.se4kPmc 0xFFFF, 4096), (.be32k 0xFFFF, 32768),
      (.be64k 0xFFFF, if (armed []).blk256 then 262144 else 65536)] := by decide

/-- An erased span that ends at the array's end. -/
theorem witness_PageWriteThenReadGivesTheData :
    Memory.wf (armed []).mem = true ∧ 1 ≤ Config.default.pageSize ∧ Config.default.op.distinct = true ∧
    (armed []).mode4 = false ∧ (armed []).ear = 0 ∧
    (0x3FD : Word).toNat + ([1, 2, 3] : List Byte).length ≤ (armed []).cap ∧ (armed []).cap ≤ 2 ^ 24 ∧
    (0x3FD : Word).toNat < 2 ^ 24 ∧
    (∀ k < ([1, 2, 3] : List Byte).length, Memory.read (armed []).mem ((0x3FD : Word).toNat + k) = 0xFF) := by decide

theorem witness_AutoIncrementWriteThenReadGivesTheData :
    Memory.wf (armed []).mem = true ∧ 1 ≤ Config.default.pageSize ∧ Config.default.op.distinct = true ∧
    (armed []).mode4 = false ∧ (armed []).ear = 0 ∧
    (armed []).aai = false ∧ (0x3FD : Word).toNat + ([1, 2, 3] : List Byte).length ≤ (armed []).cap ∧
    (armed []).cap ≤ 2 ^ 24 ∧ (0x3FD : Word).toNat < 2 ^ 24 ∧
    (∀ k < ([1, 2, 3] : List Byte).length, Memory.read (armed []).mem ((0x3FD : Word).toNat + k) = 0xFF) := by decide

end Sys2Proof.Tests
end

namespace Sys2Proof.Machine

/-! ### Progress events, runs and the step -/

@[simp] theorem progressOf_nil : progressOf [] = [] := rfl

@[simp] theorem progressOf_call (c : Call) (a : Answer) (es : List Event) :
    progressOf (.call c a :: es) = progressOf es := rfl

@[simp] theorem progressOf_progress (n : Nat) (es : List Event) :
    progressOf (.progress n :: es) = n :: progressOf es := rfl

@[simp] theorem progressOf_report (n : String) (a b : Word) (es : List Event) :
    progressOf (.report n a b :: es) = progressOf es := rfl

@[simp] theorem progressOf_response (r : Response) (es : List Event) :
    progressOf (.response r :: es) = progressOf es := rfl

@[simp] theorem progressOf_append (a b : List Event) : progressOf (a ++ b) = progressOf a ++ progressOf b := by
  induction a with
  | nil => rfl
  | cons e es ih => cases e <;> simp [ih]

theorem run_one (s : State) : run 1 s = step s := by
  simp only [run]
  cases step s <;> rfl

theorem run_succ_of_step {s t : State} (n : Nat) (h : step s = .next t) : run (n + 1) s = run n t := by
  simp [run, h]

/-- The next step is no reset event, and the configuration is not refused. -/
def State.runs (s : State) : Prop := s.resetPin = false ∧ configRuns s.config = true

/-- While a request runs, a step is `exec` of its frame. -/
theorem step_running {s : State} {r : Running} (hrun : s.runs) (hs : s.seq = .running r) :
    step s = exec r.frame s := by
  obtain ⟨hp, hc⟩ := hrun
  simp [step, hp, hc, State.fetch, hs]

/-! ### Two states with the same block -/

theorem State.sameBlock.trans {s t u : State} (h : s.sameBlock t) (k : t.sameBlock u) : s.sameBlock u := by
  obtain ⟨h1, h2, h3, h4, h5, h6, h7⟩ := h
  obtain ⟨k1, k2, k3, k4, k5, k6, k7⟩ := k
  exact ⟨k1.trans h1, k2.trans h2, k3.trans h3, k4.trans h4, k5.trans h5, k6.trans h6, k7.trans h7⟩

/-- The frame's calls are those of its format after a call as before it. -/
theorem State.sameBlock.frameCalls {s t : State} (h : s.sameBlock t) (i : Instr) :
    frameCalls t.config t.width i = frameCalls s.config s.width i := by
  obtain ⟨hc, -, hf, -⟩ := h
  simp only [State.width, hc, hf]

theorem State.sameBlock.runs {s t : State} (h : s.sameBlock t) (hrun : s.runs) : t.runs := by
  obtain ⟨hc, -, -, -, -, -, hp⟩ := h
  exact ⟨hp.trans hrun.1, hc ▸ hrun.2⟩

/-! ### The calls of a running frame

One call of any frame, whichever of the nineteen it is: it fails, it is followed by another call of the frame, or it
is the closing chip select and the request's next lines run. -/

/-- A request is sending the frame `i` and stands at the call `call` of it; an addressed frame has a `CFG` to take its
width from. -/
structure State.AtCall (s : State) (req i : Instr) (beat : Nat) (rest : List Task) (call : Call) : Prop where
  seq : s.seq = .running ⟨req, i, beat, rest⟩
  frame : i.isHost = false
  cfg : i.addressed = true → s.cfg.isSome = true
  call : (frameCalls s.config s.width i)[beat]? = some call

/-- In the invariant every running request stands so. -/
theorem atCall_of_inv {s : State} {req i : Instr} {beat : Nat} {rest : List Task} {call : Call} (h : s.inv = true)
    (hs : s.seq = .running ⟨req, i, beat, rest⟩) (hc : (frameCalls s.config s.width i)[beat]? = some call) :
    s.AtCall req i beat rest call := by
  obtain ⟨-, -, -, -, hi, ha, -, -⟩ := inv_running h hs
  exact ⟨hs, hi, ha, hc⟩

section
variable {s : State} {req i : Instr} {beat : Nat} {rest : List Task} {call : Call}

/-- The last call of a frame is call number `lastBeat`, counted from zero. -/
theorem Played.length_calls {tx : List Byte} {rxs : List Nat} {got : Call → List Byte → State → State}
    {done : State → State} (P : Played i s tx rxs got done) :
    (frameCalls s.config s.width i).length = lastBeat rxs + 1 := by
  simp [P.calls, lastBeat]

/-- The closing call of a frame is the chip-select deassert. -/
theorem frameCall_lastBeat (line : Nat) (tx : List Byte) (rxs : List Nat) :
    frameCall line tx rxs (lastBeat rxs) = .chipSelect line false := by
  simp [frameCall, lastBeat]

/-- With a reply in store the call a frame stands at succeeds: its chip select is on a line that exists (R54). -/
theorem State.AtCall.answer_reply {given : List Byte} {more : List Scripted}
    (h : s.AtCall req i beat rest call) (hrun : s.runs) (hr : s.env.script = .reply given :: more) :
    ∃ bytes, s.answer call = .ok bytes := by
  obtain ⟨tx, rxs, got, done, P⟩ := played i s h.frame h.cfg
  obtain ⟨rfl, -⟩ := frameCall_of_calls (P.calls ▸ h.call)
  exact ⟨_, State.answer_reply hr (frameCall_badLine (configRuns_fixed hrun.2) ..)⟩

/-- A failing call ends the request (R270). -/
theorem State.AtCall.exec_fail (h : s.AtCall req i beat rest call) (hf : s.answer call = .fail) :
    exec i s = .next ((s.called call).raise req .transportFailure) := by
  obtain ⟨tx, rxs, got, done, P⟩ := played i s h.frame h.cfg
  obtain ⟨rfl, -⟩ := frameCall_of_calls (P.calls ▸ h.call)
  exact P.exec.trans (playFrame_fail h.seq hf)

/-- A call before the last one that succeeds leads to the frame's next call (R27(d)). -/
theorem State.AtCall.exec_more {bytes : List Byte} (h : s.AtCall req i beat rest call)
    (ha : s.answer call = .ok bytes) (hb : beat + 1 < (frameCalls s.config s.width i).length) :
    ∃ u, GotOk i call (s.called call) u ∧ exec i s = .next { u with seq := .running ⟨req, i, beat + 1, rest⟩ } := by
  obtain ⟨tx, rxs, got, done, P⟩ := played i s h.frame h.cfg
  obtain ⟨rfl, -⟩ := frameCall_of_calls (P.calls ▸ h.call)
  rw [P.length_calls] at hb
  exact ⟨_, P.got _ bytes _, P.exec.trans (playFrame_more h.seq (Nat.lt_of_succ_lt_succ hb) ha)⟩

/-- The last call is the chip-select deassert; when it succeeds the request's next lines run (R27(d), (e)). -/
theorem State.AtCall.exec_last {bytes : List Byte} (h : s.AtCall req i beat rest call)
    (ha : s.answer call = .ok bytes) (hb : beat + 1 = (frameCalls s.config s.width i).length) :
    call = .chipSelect s.config.csLine.val false ∧
      ∃ u, DoneOk i (s.called call) u ∧ exec i s = settle req rest u := by
  obtain ⟨tx, rxs, got, done, P⟩ := played i s h.frame h.cfg
  obtain ⟨rfl, -⟩ := frameCall_of_calls (P.calls ▸ h.call)
  obtain rfl : beat = lastBeat rxs := Nat.succ.inj (hb.trans P.length_calls)
  exact ⟨frameCall_lastBeat .., _, P.done _, P.exec.trans (playFrame_last h.seq le_rfl ha)⟩

/-- In the invariant the lines after a complete frame run down to the next frame, or to the end of the request. -/
theorem settle_after_frame {u : State} (hinv : s.inv = true) (hs : s.seq = .running ⟨req, i, beat, rest⟩)
    (hu : State.Kept (s.called call) u) : ∃ t, settle req rest u = .next t ∧ Settled req u t := by
  obtain ⟨hc, hm, hreq, hprobe, -, -, -, hrest⟩ := inv_running hinv hs
  have hcu : u.cfgOk = s.cfgOk := cfgOk_same (s := s) ⟨hu.probed, hu.cfg⟩ hu.config
  refine settle_good req hreq rest u (hcu.trans hc) ?_ ?_ ?_
  · simpa [hu.config, hu.probed] using hrest
  · simpa [hu.env] using State.wf_envAfter hm call
  · simpa [hu.probed] using hprobe

end

/-! ### A whole command frame -/

/-- `t` is `s` with one more call made, and no register or port of the block changed. -/
structure State.Made (s : State) (call : Call) (t : State) : Prop where
  block : s.sameBlock t
  script : t.env.script = s.env.script.tail
  trace : t.trace = s.trace ++ [.call call (s.answer call)]

theorem State.Made.called (s : State) (call : Call) (q : Seq) : s.Made call { s.called call with seq := q } :=
  ⟨⟨rfl, rfl, rfl, rfl, rfl, rfl, rfl⟩, State.envAfter_script s call, rfl⟩

/-- The sixteen frames that receive nothing. -/
structure IsCommand (i : Instr) : Prop where
  frame : i.isHost = false
  rdid : i ≠ .rdid
  rdsr : i ≠ .rdsr
  read : ∀ a len, i ≠ .readFrame a len

/-- They have three calls (R85, R86, R88 to R91). -/
theorem frameCalls_command (c : Config) (w : AddrWidth) {i : Instr} (h : IsCommand i) :
    ∃ tx, frameCalls c w i = [.chipSelect c.csLine.val true, .writeOnly tx, .chipSelect c.csLine.val false] := by
  obtain ⟨hi, h1, h2, h3⟩ := h
  cases i with
  | probe | getsize | read | erase | chiperase | write | reserved67 => cases hi
  | rdid => exact absurd rfl h1
  | rdsr => exact absurd rfl h2
  | readFrame a len => exact absurd rfl (h3 a len)
  | wren | wrdi | wrsr | en4b | ex4b | brwr | exhb | wrear | se4k | se4kPmc | be32k | be64k | ce | pp | aaiFirst
  | aaiNext => exact ⟨_, rfl⟩

section
variable {s : State} {req i : Instr} {beat : Nat} {rest : List Task} {call : Call} {given : List Byte}
  {more : List Scripted} (hi : IsCommand i) (hrun : s.runs)
  (h : s.AtCall req i beat rest call) (hr : s.env.script = .reply given :: more)
include hi hrun h hr

/-- A call of a command frame before the last one. -/
theorem command_more {next : Call} (hn : (frameCalls s.config s.width i)[beat + 1]? = some next) :
    ∃ t, step s = .next t ∧ s.Made call t ∧ t.AtCall req i (beat + 1) rest next := by
  obtain ⟨bytes, ha⟩ := h.answer_reply hrun hr
  obtain ⟨u, hu, he⟩ := h.exec_more ha (List.getElem?_eq_some_iff.mp hn).1
  obtain rfl := hu.none hi.rdid hi.rdsr hi.read
  exact ⟨_, (step_running hrun h.seq).trans he, .called s call _, rfl, h.frame, h.cfg, hn⟩

/-- The last call of a command frame. -/
theorem command_last (hb : beat + 1 = (frameCalls s.config s.width i).length) :
    ∃ t, step s = settle req rest t ∧ s.Made call t := by
  obtain ⟨bytes, ha⟩ := h.answer_reply hrun hr
  obtain ⟨-, u, hu, he⟩ := h.exec_last ha hb
  obtain rfl := hu.other hi.rdsr hi.rdid
  exact ⟨_, (step_running hrun h.seq).trans he, .called s call s.seq⟩

end

/-! ### What the block can tell of the environment -/

/-- The block over another environment. -/
def State.withEnv (s : State) (e : Env) : State := { s with env := e }

/-- `t` differs from `s` below the block only, and the next free value is the same. -/
def State.SameView (s t : State) : Prop := ∃ e : Env, e.draws = s.env.draws ∧ t = s.withEnv e

/-- Where `r` is a next state, so is `r'`, and the block sees no difference between the two. -/
def ResultFollows (r r' : Result) : Prop := ∀ t, r = .next t → ∃ t', r' = .next t' ∧ t.SameView t'

theorem ResultFollows.next {s t : State} (h : s.SameView t) : ResultFollows (.next s) (.next t) := by
  intro u hu
  cases hu
  exact ⟨t, rfl, h⟩

theorem ResultFollows.fault (f : Fault) (r : Result) : ResultFollows (.fault f) r := by
  intro t ht
  cases ht

theorem ResultFollows.refused (f : Refusal) (r : Result) : ResultFollows (.refused f) r := by
  intro t ht
  cases ht

/-- The end of a request looks the same: a size that no rule gives is the same free value. -/
theorem State.SameView.respond {s t : State} (h : s.SameView t) (st : Status) (z : Option Word)
    (o : Option (List Byte)) : (s.respond st z o).SameView (t.respond st z o) := by
  obtain ⟨e, hd, rfl⟩ := h
  exact ⟨{ e with draws := e.draws + 1 }, by simp [hd], by simp [State.respond, State.withEnv, hd]⟩

theorem State.SameView.raise {s t : State} (h : s.SameView t) (req : Instr) (st : Status) :
    (s.raise req st).SameView (t.raise req st) := by
  have ho : failedOut t req = failedOut s req := by
    obtain ⟨e, hd, rfl⟩ := h
    cases req with
    | read addr len => simp [failedOut, State.withEnv, hd]
    | _ => rfl
  unfold State.raise
  rw [ho]
  exact h.respond ..

theorem State.SameView.returnOk {s t : State} (h : s.SameView t) (req : Instr) :
    (s.returnOk req).SameView (t.returnOk req) := by
  have ho : okOut t req = okOut s req := by
    obtain ⟨e, -, rfl⟩ := h
    rfl
  unfold State.returnOk
  rw [ho]
  exact h.respond ..

theorem State.SameView.sending {s t : State} (h : s.SameView t) (req f : Instr) (ts : List Task) :
    (s.sending req f ts).SameView (t.sending req f ts) := by
  obtain ⟨e, hd, rfl⟩ := h
  exact ⟨e, hd, rfl⟩

/-! ### The lines of the pseudocode do not look below the block -/

/-- The same reaction, over another environment. -/
def Reaction.withEnv (e : Env) : Reaction → Reaction
  | .raise st s => .raise st (s.withEnv e)
  | .fall s => .fall (s.withEnv e)
  | .send s f ts => .send (s.withEnv e) f ts
  | .fault r => .fault r

theorem sendAll_withEnv (s : State) (e : Env) (fs : List Instr) :
    sendAll (s.withEnv e) fs = (sendAll s fs).withEnv e := by
  cases fs <;> rfl

theorem withCfg_withEnv (s : State) (e : Env) {k k' : FlashConfig → Descriptor → Reaction}
    (hk : ∀ f d, k' f d = (k f d).withEnv e) : withCfg (s.withEnv e) k' = (withCfg s k).withEnv e := by
  have hp : (s.withEnv e).probedDevice = s.probedDevice := rfl
  unfold withCfg
  rw [hp]
  split
  · exact hk _ _
  · rfl

theorem eraseLoop_withEnv {s t : State} {e : Env} (h : t = { s with env := e }) (f : FlashConfig) (total : Word) :
    eraseLoop t f total = (eraseLoop s f total).withEnv e := by
  subst h
  simp only [eraseLoop]
  split <;> rfl

theorem pageLoop_withEnv {s t : State} {e : Env} (h : t = { s with env := e }) (data : List Byte) :
    pageLoop t data = (pageLoop s data).withEnv e := by
  subst h
  simp only [pageLoop, programChunk]
  split <;> rfl

theorem aaiLoop_withEnv {s t : State} {e : Env} (h : t = { s with env := e }) (data : List Byte) :
    aaiLoop t data = (aaiLoop s data).withEnv e := by
  subst h
  simp only [aaiLoop]
  split <;> rfl

/-- One line of the pseudocode: its reaction does not depend on the environment. -/
theorem react_withEnv (req : Instr) (s : State) (e : Env) (t : Task) :
    react req (s.withEnv e) t = (react req s t).withEnv e := by
  show react req { s with env := e } t = _
  cases t with
  | send f => rfl
  | identify =>
    simp only [react, identify]
    split
    · rfl
    · split
      · rfl
      · split
        · rfl
        · split <;> rfl
  | clearBp m => simp only [react, clearBp]; split <;> rfl
  | commit i => simp only [react, commitLine]; split <;> rfl
  | pollTest k =>
    simp only [react, pollTest]
    split
    · split <;> rfl
    · rfl
  | setMode en =>
    simp only [react, setModeLine]
    refine withCfg_withEnv s e fun f d => ?_
    exact sendAll_withEnv s e _
  | eraseBegin addr len =>
    simp only [react, eraseBegin]
    refine withCfg_withEnv s e fun f d => ?_
    exact eraseLoop_withEnv (by rfl) f _
  | eraseNext total =>
    simp only [react, eraseNext]
    refine withCfg_withEnv s e fun f d => ?_
    exact eraseLoop_withEnv (by rfl) f _
  | pageBegin addr len => exact pageLoop_withEnv (by rfl) _
  | pageNext c => exact pageLoop_withEnv (by rfl) _
  | aaiBegin addr len => simp only [react, aaiBegin, programChunk]; split <;> rfl
  | aaiLead => rfl
  | aaiLoop => exact aaiLoop_withEnv (by rfl) _
  | aaiNext =>
    refine aaiLoop_withEnv ?_ _
    dsimp only
    split <;> rfl
  | aaiTail => simp only [react, aaiTail, programChunk]; split <;> rfl

/-- The run down to the next frame, or to the end of the request. -/
theorem settle_follows (req : Instr) (ts : List Task) {s t : State} (h : s.SameView t) :
    ResultFollows (settle req ts s) (settle req ts t) := by
  induction ts generalizing s t with
  | nil => exact .next (h.returnOk req)
  | cons x xs ih =>
    obtain ⟨e, hd, rfl⟩ := h
    have hview : ∀ u, (react req s x).stateOf = some u → u.SameView (u.withEnv e) := fun u hu =>
      ⟨e, by rw [hd, (react_worked hu).env], rfl⟩
    simp only [settle, react_withEnv]
    cases hr : react req s x with
    | raise st u => exact .next ((hview u (by rw [hr]; rfl)).raise ..)
    | fall u => exact ih (hview u (by rw [hr]; rfl))
    | send u f us => exact .next ((hview u (by rw [hr]; rfl)).sending ..)
    | fault r => exact .fault r _

/-! ### One instruction under two environments that answer alike -/

theorem accept_follows {s t : State} (h : s.SameView t) {k k' : State → Result}
    (hk : s.accepted.SameView t.accepted → ResultFollows (k s.accepted) (k' t.accepted)) :
    ResultFollows (accept s k) (accept t k') := by
  obtain ⟨e, hd, rfl⟩ := h
  cases hs : s.seq with
  | running r => rw [accept_running hs]; exact .refused _ _
  | idle =>
    rw [accept_idle hs, accept_idle (s := s.withEnv e) hs]
    exact hk ⟨e, hd, rfl⟩

theorem withProbed_follows (req : Instr) {s t : State} (h : s.SameView t)
    {k k' : FlashConfig → Descriptor → Result} (hk : ∀ f d, ResultFollows (k f d) (k' f d)) :
    ResultFollows (withProbed req s k) (withProbed req t k') := by
  have hp : t.probed = s.probed ∧ t.probedDevice = s.probedDevice := by
    obtain ⟨e, -, rfl⟩ := h
    exact ⟨rfl, rfl⟩
  unfold withProbed
  rw [hp.1, hp.2]
  split
  · split
    · exact hk _ _
    · exact .fault _ _
  · exact .next (h.raise ..)

theorem ite_follows {p : Prop} [Decidable p] {a b a' b' : Result} (ha : ResultFollows a a')
    (hb : ResultFollows b b') : ResultFollows (if p then a else b) (if p then a' else b') := by
  split
  · exact ha
  · exact hb

theorem withWidth_follows {s t : State} (h : s.SameView t) {k k' : AddrWidth → Result}
    (hk : ∀ w, ResultFollows (k w) (k' w)) : ResultFollows (withWidth s k) (withWidth t k') := by
  obtain ⟨e, -, rfl⟩ := h
  cases hc : s.cfg with
  | none => simp only [withWidth, hc]; exact .fault _ _
  | some f => simp only [withWidth, State.withEnv, hc]; exact hk _

/-- The block's work on an answer, blind to the environment. -/
structure Blind (g : State → State) : Prop where
  comm : ∀ u e, g (State.withEnv u e) = (g u).withEnv e
  env : ∀ u, (g u).env = u.env

theorem Blind.sameView {g : State → State} (hg : Blind g) {s t : State} (h : s.SameView t) :
    (g s).SameView (g t) := by
  obtain ⟨e, hd, rfl⟩ := h
  exact ⟨e, by rw [hd, hg.env], hg.comm s e⟩

theorem Blind.id : Blind id := ⟨fun _ _ => rfl, fun _ => rfl⟩

theorem Blind.keepNothing (c : Call) (b : List Byte) : Blind (keepNothing c b) := ⟨fun _ _ => rfl, fun _ => rfl⟩

theorem Blind.keepRx (c : Call) (b : List Byte) : Blind (keepRx c b) := by
  cases c <;> exact ⟨fun _ _ => rfl, fun _ => rfl⟩

theorem Blind.keepOut (a len : Word) (c : Call) (b : List Byte) : Blind (keepOut a len c b) := by
  cases c <;> exact ⟨fun _ _ => rfl, fun _ => rfl⟩

section
variable {s : State} {e : Env} (hd : e.draws = s.env.draws)
  (ha : ∀ call, (s.withEnv e).answer call = s.answer call)
include hd ha

/-- After a call that both environments answer alike the block still sees no difference. -/
theorem called_sameView (call : Call) : (s.called call).SameView ((s.withEnv e).called call) :=
  ⟨(s.withEnv e).envAfter call, by simp [State.withEnv, hd], by simp only [State.called, ha]; rfl⟩

/-- One call of a frame. -/
theorem playFrame_follows (tx : List Byte) (rxs : List Nat) {got : Call → List Byte → State → State}
    {done : State → State} (hgot : ∀ c b, Blind (got c b)) (hdone : Blind done) :
    ResultFollows (playFrame tx rxs got done s) (playFrame tx rxs got done (s.withEnv e)) := by
  cases hs : s.seq with
  | idle => rw [playFrame_idle hs]; exact .refused _ _
  | running r =>
    have hs' : (s.withEnv e).seq = .running r := hs
    have hc := called_sameView hd ha (frameCall s.config.csLine.val tx rxs r.beat)
    cases hans : s.answer (frameCall s.config.csLine.val tx rxs r.beat) with
    | fail =>
      rw [playFrame_fail hs hans, playFrame_fail hs' ((ha _).trans hans)]
      exact .next (hc.raise ..)
    | ok bytes =>
      by_cases hb : r.beat < lastBeat rxs
      · rw [playFrame_more hs hb hans, playFrame_more hs' hb ((ha _).trans hans)]
        obtain ⟨e', hd', he'⟩ := (hgot _ bytes).sameView hc
        exact .next ⟨e', hd', by rw [show (s.withEnv e).config = s.config from rfl, he']; rfl⟩
      · rw [playFrame_last hs (Nat.not_lt.mp hb) hans, playFrame_last hs' (Nat.not_lt.mp hb) ((ha _).trans hans)]
        exact settle_follows _ _ (hdone.sameView hc)

theorem cmdRd_follows (op : Byte) (n : Nat) {done : State → State} (hdone : Blind done) :
    ResultFollows (cmdRd op n done s) (cmdRd op n done (s.withEnv e)) :=
  playFrame_follows hd ha _ _ .keepRx hdone

theorem cmdA_follows (op : Byte) (a : Word) : ResultFollows (cmdA op a s) (cmdA op a (s.withEnv e)) :=
  withWidth_follows ⟨e, hd, rfl⟩ fun _ => playFrame_follows hd ha _ _ .keepNothing .id

theorem cmdAD_follows (op : Byte) (a : Word) (data : List Byte) :
    ResultFollows (cmdAD op a data s) (cmdAD op a data (s.withEnv e)) :=
  withWidth_follows ⟨e, hd, rfl⟩ fun _ => playFrame_follows hd ha _ _ .keepNothing .id

/-- One instruction. -/
theorem exec_follows (i : Instr) : ResultFollows (exec i s) (exec i (s.withEnv e)) := by
  have hv : s.SameView (s.withEnv e) := ⟨e, hd, rfl⟩
  unfold exec
  cases i with
  | probe => exact accept_follows hv fun h => ite_follows (.next (h.returnOk _)) (settle_follows _ _ h)
  | getsize => exact accept_follows hv fun h => withProbed_follows _ h fun _ _ => .next (h.respond ..)
  | read addr len =>
    exact accept_follows hv fun h => withProbed_follows _ h fun _ _ =>
      ite_follows (.next (h.raise ..)) (settle_follows _ _ h)
  | erase addr len =>
    exact accept_follows hv fun h => withProbed_follows _ h fun _ _ =>
      ite_follows (.next (h.raise ..)) (ite_follows (.next (h.raise ..)) (settle_follows _ _ h))
  | chiperase => exact accept_follows hv fun h => ite_follows (settle_follows _ _ h) (.next (h.raise ..))
  | write addr data =>
    exact accept_follows hv fun h => withProbed_follows _ h fun _ _ =>
      ite_follows (.next (h.raise ..)) (settle_follows _ _ h)
  | reserved67 seven => exact .next hv
  | rdid | rdsr => exact cmdRd_follows hd ha _ _ ⟨fun _ _ => rfl, fun _ => rfl⟩
  | wren | wrdi | wrsr | en4b | ex4b | brwr | exhb | wrear | ce | aaiNext =>
    exact playFrame_follows hd ha _ _ .keepNothing .id
  | se4k | se4kPmc | be32k | be64k => exact cmdA_follows hd ha _ _
  | pp | aaiFirst => exact cmdAD_follows hd ha _ _ _
  | readFrame a len =>
    exact withWidth_follows hv fun _ => playFrame_follows hd ha _ _ (.keepOut a len) .id

end

/-- What is fetched, over another environment. -/
def Fetched.withEnv (e : Env) : Fetched → Fetched
  | .wait => .wait
  | .run i s => .run i (s.withEnv e)
  | .bad => .bad

theorem fetch_withEnv (s : State) (e : Env) : (s.withEnv e).fetch = s.fetch.withEnv e := by
  show ({ s with env := e } : State).fetch = _
  simp only [State.fetch]
  split
  · rfl
  · split
    · rfl
    · split <;> rfl

/-- One step. -/
theorem step_follows {s : State} {e : Env} (hd : e.draws = s.env.draws)
    (ha : ∀ call, (s.withEnv e).answer call = s.answer call) : ResultFollows (step s) (step (s.withEnv e)) := by
  unfold step
  refine ite_follows (.next ⟨e, hd, rfl⟩) (ite_follows ?_ (.refused _ _))
  rw [fetch_withEnv]
  cases hf : s.fetch with
  | wait => exact .next ⟨e, hd, rfl⟩
  | bad => exact .refused _ _
  | run i t =>
    rcases fetch_run hf with ⟨_, -, -, rfl⟩ | ⟨-, _, more, -, -, rfl⟩
    · exact exec_follows hd ha i
    · exact exec_follows (s := { s with host := more }) hd ha i

/-! ### The obligations -/

/-- Settles O19: under an environment that answers alike, every step is the same step over that environment. -/
theorem blockSeesOnlyAnswers : Obligations.BlockSeesOnlyAnswers := by
  intro s t e hd ha ht
  obtain ⟨t', ht', e', -, rfl⟩ := step_follows hd ha t ht
  exact ⟨_, ht', ⟨rfl, rfl, rfl, rfl, rfl, rfl, rfl⟩, rfl, rfl⟩

/-- Settles O20: a failing call raises, a call before the last is followed by the next one, and after the last the
request's lines make no call of their own. -/
theorem everyFrameMakesItsNextCall : Obligations.EveryFrameMakesItsNextCall := by
  intro s req i beat rest call hinv hs hcall
  have h := atCall_of_inv hinv hs hcall
  cases ha : s.answer call with
  | fail =>
    obtain ⟨r, htr⟩ : ∃ r, ((s.called call).raise req .transportFailure).trace =
      (s.called call).trace ++ [.response r] := ⟨_, rfl⟩
    exact ⟨_, [.response r], h.exec_fail ha, htr.trans (by simp [ha]), rfl, rfl, rfl, rfl,
      fun _ => ⟨rfl, _, _, rfl⟩, nofun⟩
  | ok bytes =>
    have hlt := (List.getElem?_eq_some_iff.mp hcall).1
    rcases Nat.lt_or_eq_of_le (Nat.succ_le_of_lt hlt) with hb | hb
    · obtain ⟨u, hu, he⟩ := h.exec_more ha hb
      obtain ⟨more, htr, hno⟩ := hu.kept.trace
      exact ⟨_, more, he, by simp [htr, ha], hno, hu.kept.config, hu.kept.host, hu.kept.resetPin, nofun,
        fun _ _ _ => rfl⟩
    · obtain ⟨-, u, hu, he⟩ := h.exec_last ha hb
      obtain ⟨t, ht, hset⟩ := settle_after_frame hinv hs hu.kept
      obtain ⟨more, htr, hno⟩ := hset.trace
      exact ⟨t, more, he.trans ht, by simp [htr, hu.trace, ha], hno, hset.config.trans hu.kept.config,
        hset.host.trans hu.kept.host, hset.pin.trans hu.kept.resetPin, nofun, fun _ _ hlt' => by omega⟩

/-- Settles O22: the frame's own end writes `SR` or `ID` (`DoneOk`), and the lines after it leave both alone
(`Settled`). -/
theorem lastCallOfAFrameCompletesIt : Obligations.LastCallOfAFrameCompletesIt := by
  intro s req i beat rest call bytes hinv hs hcall hb ha
  obtain ⟨hcs, u, hu, he⟩ := (atCall_of_inv hinv hs hcall).exec_last ha hb
  obtain ⟨t, ht, hset⟩ := settle_after_frame hinv hs hu.kept
  exact ⟨hcs, t, he.trans ht, fun r hr => (hset.beat r hr).1, hset.sr.trans hu.sr, hset.id.trans hu.id,
    hset.rx.trans hu.rx, hset.out.trans hu.out⟩

/-- Settles O25: the three calls of a command frame, one after the other, each of which changes nothing but the
environment and the history. -/
theorem commandFramesRunWhole : Obligations.CommandFramesRunWhole := by
  intro s req i rest hat h1 h2 h3 hears
  obtain ⟨hp, hc, hs, hhost, hcfg⟩ := hat
  have hi : IsCommand i := ⟨hhost, h1, h2, h3⟩
  have hrun : s.runs := ⟨hp, hc⟩
  obtain ⟨tx, hcalls⟩ := frameCalls_command s.config s.width hi
  have hscript : s.env.script = silent ++ s.env.script.drop 3 := by
    rw [← show s.env.script.take 3 = silent from hears, List.take_append_drop]
  have at0 : s.AtCall req i 0 rest (.chipSelect s.config.csLine.val true) := ⟨hs, hhost, hcfg, by rw [hcalls]; rfl⟩
  obtain ⟨s1, hs1, m1, at1⟩ := command_more hi hrun at0 hscript (by rw [hcalls]; rfl)
  obtain ⟨s2, hs2, m2, at2⟩ := command_more hi (m1.block.runs hrun) at1 (by rw [m1.script, hscript]; rfl)
    (by rw [m1.block.frameCalls, hcalls]; rfl)
  have b2 : s.sameBlock s2 := m1.block.trans m2.block
  obtain ⟨s3, hs3, m3⟩ := command_last hi (b2.runs hrun) at2 (by rw [m2.script, m1.script, hscript]; rfl)
    (by rw [b2.frameCalls, hcalls]; rfl)
  refine ⟨s3, ?_, b2.trans m3.block, ?_, ?_, ?_⟩
  · rw [run_succ_of_step 2 hs1, run_succ_of_step 1 hs2, run_one, hs3]
  · simp only [m3.script, m2.script, m1.script, ← List.drop_one, List.drop_drop]
  · simp [m3.trace, m2.trace, m1.trace, hcalls]
  · simp [m3.trace, m2.trace, m1.trace]

end Sys2Proof.Machine

namespace Sys2Proof.Machine

/-! ### The invariant, part by part -/

theorem State.inv_iff {s : State} :
    s.inv = true ↔ s.cfgOk = true ∧ s.seqOk = true ∧ Memory.wf s.env.dev.mem = true := by
  simp only [State.inv, Bool.and_eq_true, and_assoc]

/-- `CFG` has a value exactly when `PROBED = 1` (R22). -/
theorem cfg_isSome_of_inv {s : State} (h : s.inv = true) : s.cfg.isSome = s.probed := by
  obtain ⟨hc, -, -⟩ := State.inv_iff.mp h
  cases hp : s.probed with
  | true =>
    obtain ⟨f, _, hf, -⟩ := cfgOk_probed hc hp
    simp [hf]
  | false =>
    unfold State.cfgOk at hc
    cases hf : s.cfg with
    | none => rfl
    | some f =>
      simp only [hf, hp, Bool.false_and] at hc
      split at hc <;> cases hc

/-- A transport call keeps the invariant. -/
theorem called_inv {s : State} (h : s.inv = true) (call : Call) : (s.called call).inv = true := by
  obtain ⟨hc, hq, hm⟩ := State.inv_iff.mp h
  exact State.inv_iff.mpr ⟨hc, hq, State.wf_envAfter hm call⟩

/-- So does the receipt of bytes. -/
theorem State.Kept.inv {s t : State} (h : State.Kept s t) (hs : s.inv = true) : t.inv = true := by
  simpa [State.inv, State.cfgOk, State.seqOk, h.config, h.probed, h.cfg, h.seq, h.env] using hs

/-- A block that goes to `IDLE` with `PROBED` and `CFG` in order meets the invariant. -/
theorem inv_of_idle {s : State} (hc : s.cfgOk = true) (hs : s.seq = .idle)
    (hm : Memory.wf s.env.dev.mem = true) : s.inv = true :=
  State.inv_iff.mpr ⟨hc, by simp [State.seqOk, hs], hm⟩

/-- The end of a request keeps the invariant. -/
theorem respond_inv {s : State} (h : s.inv = true) (e : Status) (z : Option Word) (o : Option (List Byte)) :
    (s.respond e z o).inv = true := by
  obtain ⟨hc, -, hm⟩ := State.inv_iff.mp h
  exact inv_of_idle hc rfl hm

/-- The invariant does not look at how many calls of the frame have been made. -/
theorem inv_nextBeat {s : State} {r : Running} (h : s.inv = true) (hs : s.seq = .running r) (n : Nat) :
    ({ s with seq := .running { r with beat := n } } : State).inv = true := by
  obtain ⟨hc, hq, hm⟩ := State.inv_iff.mp h
  unfold State.seqOk at hq
  rw [hs] at hq
  exact State.inv_iff.mpr ⟨hc, hq, hm⟩

/-! ### What one step can do

Every step that answers a next state from the invariant is of one of three kinds (`Stepped`): the reset event, a step
out of `IDLE`, or one transport call of the running request. The statements about all steps are read off it. -/

/-- From `s` to `t` no transport call was made, and `t` meets the invariant. -/
structure State.Continues (s t : State) : Prop where
  inv : t.inv = true
  cs : t.env.cs = s.env.cs
  script : t.env.script = s.env.script
  dev : t.env.dev = s.env.dev
  trace : ∃ more, t.trace = s.trace ++ more ∧ callsOf more = []

theorem State.Continues.refl {s : State} (h : s.inv = true) : State.Continues s s :=
  ⟨h, rfl, rfl, rfl, [], by simp, rfl⟩

theorem State.Continues.respond {s : State} (h : s.inv = true) (e : Status) (z : Option Word)
    (o : Option (List Byte)) : State.Continues s (s.respond e z o) :=
  ⟨respond_inv h e z o, rfl, rfl, rfl, _, State.respond_trace .., rfl⟩

theorem Settled.continues {req : Instr} {s t : State} (h : Settled req s t) : State.Continues s t :=
  ⟨h.inv, h.cs, h.script, h.dev, h.trace⟩

/-- Bytes received, and then lines of the pseudocode. -/
theorem State.Kept.continues {s u t : State} (h : State.Kept s u) (k : State.Continues u t) :
    State.Continues s t := by
  obtain ⟨m, hm, cm⟩ := h.trace
  obtain ⟨m', hm', cm'⟩ := k.trace
  exact ⟨k.inv, k.cs.trans (by rw [h.env]), k.script.trans (by rw [h.env]), k.dev.trans (by rw [h.env]),
    m ++ m', by simp [hm', hm], by simp [cm, cm']⟩

/-- The request `req` was a `PROBE` and has ended with `Ok`, setting `PROBED` (R129). -/
def ProbeEnds (req : Instr) (s t : State) : Prop :=
  req = .probe ∧ s.probed = false ∧ t.probed = true ∧ t.seq = .idle ∧ ∃ z, t.resp = some ⟨.ok, z, none⟩

/-- What a step from `s` to `t` did. -/
inductive Stepped (s : State) : State → Prop
  /-- The reset event (R300). -/
  | reset : s.resetPin = true → Stepped s s.onReset
  /-- In `IDLE`: a wait, or the next request taken off the port (R27(b), R303). -/
  | idle {t : State} : s.resetPin = false → s.seq = .idle → State.Continues s t → State.SameProbe s t →
      (t.host = s.host ∨ t.host = s.host.tail) → Stepped s t
  /-- One transport call of the running request and the reaction to its answer (R27(d)). -/
  | running {r : Running} {call : Call} {t : State} : s.resetPin = false → s.seq = .running r →
      State.Continues (s.called call) t → t.host = s.host → (State.SameProbe s t ∨ ProbeEnds r.req s t) →
      Stepped s t

/-! ### The acceptance of a request -/

/-- The result is a next state, reached without a transport call, with `PROBED`, `CFG` and the port as they were. -/
def Answers (s : State) (r : Result) : Prop :=
  ∃ t, r = .next t ∧ State.Continues s t ∧ State.SameProbe s t ∧ t.host = s.host

theorem Answers.respond {s : State} (h : s.inv = true) (e : Status) (z : Option Word) (o : Option (List Byte)) :
    Answers s (.next (s.respond e z o)) :=
  ⟨_, rfl, .respond h e z o, ⟨rfl, rfl⟩, rfl⟩

theorem Answers.ite {s : State} {p : Prop} [Decidable p] {a b : Result} (ha : p → Answers s a)
    (hb : ¬ p → Answers s b) : Answers s (if p then a else b) := by
  split
  · exact ha ‹_›
  · exact hb ‹_›

/-- A request of a probed block other than `PROBE` sets out on its lines. -/
theorem Answers.settle {s : State} {req : Instr} {ts : List Task} (h : s.inv = true) (hreq : req.isHost = true)
    (hne : req ≠ .probe) (hp : s.probed = true) (hr : restOk s.config.identityTable.length true ts = true) :
    Answers s (settle req ts s) := by
  obtain ⟨hc, -, hm⟩ := State.inv_iff.mp h
  obtain ⟨t, ht, hset⟩ := settle_good req hreq ts s hc (hp ▸ hr) hm (by simp [hne, hp])
  have hsame : State.SameProbe s t := hset.probe.resolve_right fun ⟨hno, _⟩ => by simp [hp] at hno
  exact ⟨t, ht, hset.continues, hsame, hset.host⟩

/-- In the invariant a probed block has the `CFG` that the request's own lines read (R260). -/
theorem Answers.withProbed {s : State} {req : Instr} {k : FlashConfig → Descriptor → Result} (h : s.inv = true)
    (hk : s.probed = true → ∀ f d, Answers s (k f d)) : Answers s (withProbed req s k) := by
  cases hp : s.probed with
  | false =>
    rw [withProbed_no hp]
    exact .respond h ..
  | true =>
    obtain ⟨f, d, -, -, -, hd⟩ := cfgOk_probed (State.inv_iff.mp h).1 hp
    rw [withProbed_yes hp hd]
    exact hk hp f d

/-- In `IDLE` the acceptance of a request works on a state without a pending response. -/
theorem Answers.accept {s : State} {k : State → Result} (h : s.inv = true) (hs : s.seq = .idle)
    (hk : s.accepted.inv = true → Answers s.accepted (k s.accepted)) : Answers s (accept s k) := by
  rw [accept_idle hs]
  obtain ⟨t, ht, hc, hp, hh⟩ := hk h
  exact ⟨t, ht, ⟨hc.inv, hc.cs, hc.script, hc.dev, hc.trace⟩, ⟨hp.probed, hp.cfg⟩, hh⟩

/-- The lines of a `WRITE` fit a probed block. -/
theorem writeLines_restOk (n : Nat) (aai : Bool) (addr len : Word) :
    restOk n true (if aai then writeAAI addr len else writePages addr len) = true := by
  cases aai <;> rfl

/-- In `IDLE` every host request, and every record of a reserved code, answers a next state. -/
theorem exec_host_answers {s : State} (h : s.inv = true) (hs : s.seq = .idle) {i : Instr} (hi : i.isHost = true) :
    Answers s (exec i s) := by
  unfold exec
  cases i with
  | probe =>
    refine .accept h hs fun ha => .ite (fun _ => .respond ha ..) fun hp => ?_
    have hno : s.probed = false := by simpa using hp
    refine ⟨s.accepted.sending .probe .rdid [.identify], rfl, ⟨?_, rfl, rfl, rfl, [], by simp, rfl⟩, ⟨rfl, rfl⟩,
      rfl⟩
    obtain ⟨hc, -, hm⟩ := State.inv_iff.mp ha
    refine State.inv_iff.mpr ⟨hc, ?_, hm⟩
    simp [State.seqOk, restOk, frameOk, Instr.isHost, Instr.addressed, hno]
  | getsize => exact .accept h hs fun ha => .withProbed ha fun _ _ _ => .respond ha ..
  | read addr len =>
    exact .accept h hs fun ha => .withProbed ha fun hp _ _ => .ite (fun _ => .respond ha ..)
      fun _ => .settle ha rfl (by simp) hp rfl
  | erase addr len =>
    exact .accept h hs fun ha => .withProbed ha fun hp _ _ => .ite (fun _ => .respond ha ..)
      fun _ => .ite (fun _ => .respond ha ..) fun _ => .settle ha rfl (by simp) hp rfl
  | chiperase =>
    exact .accept h hs fun ha => .ite (fun hp => .settle ha rfl (by simp) hp rfl) fun _ => .respond ha ..
  | write addr data =>
    exact .accept h hs fun ha => .withProbed ha fun hp _ _ => .ite (fun _ => .respond ha ..)
      fun _ => .settle ha rfl (by simp) hp (writeLines_restOk ..)
  | reserved67 seven => exact ⟨s, rfl, .refl h, ⟨rfl, rfl⟩, rfl⟩
  | _ => cases hi

/-! ### One call of a running request -/

/-- One call of the running frame, whatever the position in it and the answer: the request goes on or ends, and only
the lines after a frame of `PROBE` can change `PROBED`. -/
theorem exec_running_good {s : State} {r : Running} (h : s.inv = true) (hs : s.seq = .running r) :
    ∃ call t, exec r.frame s = .next t ∧ State.Continues (s.called call) t ∧ t.host = s.host ∧
      (State.SameProbe s t ∨ ProbeEnds r.req s t) := by
  obtain ⟨req, i, beat, rest⟩ := r
  obtain ⟨-, -, -, hprobe, hi, ha, -, -⟩ := inv_running h hs
  obtain ⟨tx, rxs, got, done, P⟩ := played i s hi ha
  let call := frameCall s.config.csLine.val tx rxs beat
  refine ⟨call, ?_⟩
  have hcall := called_inv h call
  cases hans : s.answer call with
  | fail =>
    exact ⟨_, P.exec.trans (playFrame_fail hs hans), .respond hcall .., rfl, .inl ⟨rfl, rfl⟩⟩
  | ok bytes =>
    by_cases hb : beat < lastBeat rxs
    · have hk := (P.got call bytes (s.called call)).kept
      have hnext := inv_nextBeat (hk.inv hcall) (hk.seq.trans hs) (beat + 1)
      exact ⟨_, P.exec.trans (playFrame_more hs hb hans),
        hk.continues ⟨hnext, rfl, rfl, rfl, [], (List.append_nil _).symm, rfl⟩, hk.host, .inl ⟨hk.probed, hk.cfg⟩⟩
    · have hk := (P.done (s.called call)).kept
      obtain ⟨t, ht, hset⟩ := settle_after_frame h hs hk
      refine ⟨t, (P.exec.trans (playFrame_last hs (Nat.not_lt.mp hb) hans)).trans ht,
        hk.continues hset.continues, hset.host.trans hk.host, ?_⟩
      rcases hset.probe with hsame | ⟨hno, hyes, hidle, z, hz⟩
      · exact .inl ⟨hsame.probed.trans hk.probed, hsame.cfg.trans hk.cfg⟩
      · have hno' : s.probed = false := hk.probed ▸ hno
        obtain rfl : req = .probe := by simpa [hno'] using hprobe
        exact .inr ⟨rfl, hno', hyes, hidle, z, hz⟩

/-! ### The step -/

/-- The port decodes to host requests and reserved codes only (R81, R100). -/
theorem decodeHost_isHost {q : HostRecord} {i : Instr} (h : decodeHost q = .ok i) : i.isHost = true := by
  unfold decodeHost at h
  split_ifs at h <;> cases h <;> rfl

/-- A record is refused only in `IDLE`, when it does not decode. -/
theorem fetch_bad {s : State} (h : s.fetch = .bad) :
    s.seq = .idle ∧ ∃ q more e, s.host = q :: more ∧ decodeHost q = .reject e := by
  unfold State.fetch at h
  split at h
  · cases h
  · refine ⟨by assumption, ?_⟩
    split at h
    · cases h
    · split at h
      · cases h
      · exact ⟨_, _, _, by assumption, by assumption⟩

/-- While a request runs there is always something to run. -/
theorem fetch_wait {s : State} (h : s.fetch = .wait) : s.seq = .idle := by
  unfold State.fetch at h
  split at h
  · cases h
  · assumption

/-- In the invariant a step answers a next state, reached in one of the three ways, or refuses the configuration or
the record presented. -/
theorem step_from_inv {s : State} (h : s.inv = true) :
    (∃ t, step s = .next t ∧ Stepped s t) ∨
    (s.resetPin = false ∧ configRuns s.config = false ∧ step s = .refused .badConfig) ∨
    (s.resetPin = false ∧ s.fetch = .bad ∧ step s = .refused .badRecord) := by
  rcases step_cases s with ⟨hp, he⟩ | hbad | ⟨hp, -, ⟨hf, he⟩ | ⟨hf, he⟩ | ⟨i, u, hf, he⟩⟩
  · exact .inl ⟨_, he, .reset hp⟩
  · exact .inr (.inl hbad)
  · exact .inl ⟨s, he, .idle hp (fetch_wait hf) (.refl h) ⟨rfl, rfl⟩ (.inl rfl)⟩
  · exact .inr (.inr ⟨hp, hf, he⟩)
  · rcases fetch_run hf with ⟨r, hs, rfl, rfl⟩ | ⟨hs, q, more, hh, hd, rfl⟩
    · obtain ⟨call, t, ht, hc, hhost, hprobe⟩ := exec_running_good h hs
      exact .inl ⟨t, he.trans ht, .running hp hs hc hhost hprobe⟩
    · obtain ⟨t, ht, hc, hsame, hhost⟩ :=
        exec_host_answers (s := { s with host := more }) h hs (decodeHost_isHost hd)
      exact .inl ⟨t, he.trans ht, .idle hp hs ⟨hc.inv, hc.cs, hc.script, hc.dev, hc.trace⟩
        ⟨hsame.probed, hsame.cfg⟩ (.inr (by rw [hh]; exact hhost))⟩

/-- Every step from the invariant to a next state is of one of the three kinds. -/
theorem stepped_of_step {s t : State} (h : s.inv = true) (ht : step s = .next t) : Stepped s t := by
  rcases step_from_inv h with ⟨u, hu, hs⟩ | ⟨-, -, he⟩ | ⟨-, -, he⟩
  · obtain rfl := Host.Outcome.next.inj (hu.symm.trans ht)
    exact hs
  · cases he.symm.trans ht
  · cases he.symm.trans ht

/-- All three kinds keep the invariant. -/
theorem Stepped.inv {s t : State} (h : s.inv = true) (hst : Stepped s t) : t.inv = true := by
  cases hst with
  | reset hp => exact inv_of_idle rfl rfl (State.inv_iff.mp h).2.2
  | idle _ _ hc => exact hc.inv
  | running _ _ hc => exact hc.inv

/-! ### The obligations about every step -/

/-- Settles O9: the invariant is part of what every step leaves (`Stepped.inv`). -/
theorem stepKeepsTheInvariant : Obligations.StepKeepsTheInvariant :=
  fun _ _ hinv ht => (stepped_of_step hinv ht).inv hinv

/-- Settles O10: in the invariant a step only stops by refusing the configuration or the record. -/
theorem invariantStatesNeverFault : Obligations.InvariantStatesNeverFault := by
  intro s hinv hok
  rcases step_from_inv hinv with ⟨t, ht, -⟩ | ⟨hp, hc, -⟩ | ⟨hp, hf, -⟩
  · exact ⟨t, ht⟩
  · simp [hp, hc] at hok
  · obtain ⟨hs, q, more, e, hh, hd⟩ := fetch_bad hf
    rcases hok with hreset | ⟨-, hdec⟩
    · simp [hp] at hreset
    · obtain ⟨i, hi⟩ := hdec hs q more hh
      cases hi.symm.trans hd

/-- Settles O12: `CFG` and `PROBED` agree in the invariant; a step leaves both, or resets both, or sets both at the
end of a `PROBE`. -/
theorem configIsValidExactlyWhenProbed : Obligations.ConfigIsValidExactlyWhenProbed := by
  intro s t hinv ht
  have hst := stepped_of_step hinv ht
  have hs := cfg_isSome_of_inv hinv
  refine ⟨⟨hs, cfg_isSome_of_inv (hst.inv hinv)⟩, ?_⟩
  cases hst with
  | reset hp =>
    refine ⟨fun _ hno => by simp [hp] at hno, fun hne hsame => hne ?_⟩
    have hnone : s.cfg = none := by simpa [← hsame] using hs
    exact hnone.symm
  | idle _ _ _ hsame => exact ⟨fun _ _ => hsame.cfg, fun hne => absurd hsame.cfg hne⟩
  | running _ _ _ _ hprobe =>
    rcases hprobe with hsame | ⟨-, hno, hyes, -⟩
    · exact ⟨fun _ _ => hsame.cfg, fun hne => absurd hsame.cfg hne⟩
    · exact ⟨fun hyes' => by simp [hno] at hyes', fun _ => by simp [hno, hyes]⟩

/-- Settles O13: of the three kinds of step only the reset event clears `PROBED`, and only the end of a `PROBE` sets
it. -/
theorem probedIsSetByProbeAndClearedByReset : Obligations.ProbedIsSetByProbeAndClearedByReset := by
  intro s t hinv ht
  cases stepped_of_step hinv ht with
  | reset hp => exact ⟨fun _ _ => hp, fun _ => nofun⟩
  | idle _ _ _ hsame =>
    exact ⟨fun h1 h2 => by simp [hsame.probed, h1] at h2, fun h1 h2 => by simp [hsame.probed, h1] at h2⟩
  | running _ hs _ _ hprobe =>
    rcases hprobe with hsame | ⟨hreq, hno, hyes, hidle, z, hz⟩
    · exact ⟨fun h1 h2 => by simp [hsame.probed, h1] at h2, fun h1 h2 => by simp [hsame.probed, h1] at h2⟩
    · exact ⟨fun h1 => by simp [hno] at h1, fun _ _ => ⟨_, z, hs, hreq, hidle, hz⟩⟩

/-- Settles O14: the one call is the one of the running frame; lines of the pseudocode, the reset event and the
acceptance of a request make none. -/
theorem oneTransportCallPerRunningStep : Obligations.OneTransportCallPerRunningStep := by
  intro s t hinv ht
  cases stepped_of_step hinv ht with
  | reset hp => exact ⟨[], by simp, fun _ => ⟨rfl, rfl, rfl, rfl⟩, fun _ hno => by simp [hp] at hno⟩
  | idle _ hs hc =>
    obtain ⟨more, htr, hno⟩ := hc.trace
    exact ⟨more, htr, fun _ => ⟨hno, hc.cs, hc.script, hc.dev⟩, fun r _ hr => by simp [hs] at hr⟩
  | @running r call _ hp hs hc =>
    obtain ⟨more, htr, hno⟩ := hc.trace
    refine ⟨.call call (s.answer call) :: more, by simp [htr], fun hor => by simp [hp, hs] at hor, fun _ _ _ => ?_⟩
    exact ⟨call, more, rfl, hno, hc.cs, hc.script.trans (State.envAfter_script s call), hc.dev⟩

/-- Settles O15: only a step out of `IDLE` can take a record, and `accept` refuses while a request runs. -/
theorem runningBlockAcceptsNothing : Obligations.RunningBlockAcceptsNothing := by
  refine ⟨fun s t hinv ht => ?_, fun s r addr len data hs => ?_⟩
  · cases stepped_of_step hinv ht with
    | reset hp => exact ⟨fun _ _ => rfl, .inl rfl⟩
    | idle _ hs _ _ hhost => exact ⟨fun r hr => by simp [hs] at hr, hhost.imp_right fun hh => ⟨hs, hh⟩⟩
    | running _ _ _ hhost => exact ⟨fun _ _ => hhost, .inl hhost⟩
  · simp [exec, execProbe, execGetsize, execRead, execErase, execChiperase, execWrite, accept_running hs]

/-! ### A call inside a frame -/

/-- Only a frame has transport calls. -/
theorem isHost_of_frameCalls {c : Config} {w : AddrWidth} {i : Instr} {n : Nat} {call : Call}
    (h : (frameCalls c w i)[n]? = some call) : i.isHost = false := by
  cases i with
  | probe | getsize | read | erase | chiperase | write | reserved67 => cases h
  | _ => rfl

/-- Without a `CFG` an addressed frame stops. -/
theorem cfg_isSome_of_exec {s t : State} {i : Instr} (h : exec i s = .next t) (hi : i.addressed = true) :
    s.cfg.isSome = true := by
  rw [Option.isSome_iff_ne_none]
  intro hc
  cases i with
  | se4k | se4kPmc | be32k | be64k | pp | aaiFirst | readFrame =>
    simp [exec, execSe4k, execSe4kPmc, execBe32k, execBe64k, execPp, execAaiFirst, execReadFrame, cmdA, cmdAD,
      withWidth, hc] at h
  | _ => cases hi

/-- What a call of the `READ` frame brings changes `A`, `N`, `P` and the output vector only (R28). -/
theorem keepOut_work (addr len : Word) (c : Call) (b : List Byte) (u : State) :
    (keepOut addr len c b u).work =
      { u.work with
        a := (keepOut addr len c b u).work.a, n := (keepOut addr len c b u).work.n
        p := (keepOut addr len c b u).work.p, out := (keepOut addr len c b u).work.out } := by
  cases c <;> rfl

/-- A call inside a `READ` frame that succeeds brings what `keepOut` takes. -/
theorem State.AtCall.exec_readFrame_more {s : State} {req : Instr} {a len : Word} {beat : Nat} {rest : List Task}
    {call : Call} {bytes : List Byte} (h : s.AtCall req (.readFrame a len) beat rest call)
    (ha : s.answer call = .ok bytes)
    (hb : beat + 1 < (frameCalls s.config s.width (.readFrame a len)).length) :
    exec (.readFrame a len) s =
      .next { keepOut a len call bytes (s.called call) with
              seq := .running ⟨req, .readFrame a len, beat + 1, rest⟩ } := by
  have hexec : exec (.readFrame a len) s = playFrame (s.config.op.read :: addrBytes s.width a)
      (readChunks s.config.fixed.readChunk len.toNat) (keepOut a len) id s := by
    simp only [exec, execReadFrame, withWidth_some (h.cfg rfl)]
  obtain ⟨rfl, -⟩ := frameCall_of_calls (rxs := readChunks s.config.fixed.readChunk len.toNat) h.call
  have hbeat : beat < lastBeat (readChunks s.config.fixed.readChunk len.toNat) := by
    simp only [frameCalls, encode, rxCalls, List.length_append, List.length_map, List.length_cons,
      List.length_nil] at hb
    unfold lastBeat
    omega
  exact hexec.trans (playFrame_more h.seq hbeat ha)

/-- Settles O21: a failing call keeps all registers; one that succeeds does what `GotOk` allows, and in a `READ` frame
what `keepOut` does. -/
theorem callsInsideAFrameKeepTheRegisters : Obligations.CallsInsideAFrameKeepTheRegisters := by
  intro s t req i beat rest call hs hcall hb ht
  have h : s.AtCall req i beat rest call := ⟨hs, isHost_of_frameCalls hcall, cfg_isSome_of_exec ht, hcall⟩
  cases ha : s.answer call with
  | fail =>
    obtain rfl := Host.Outcome.next.inj (ht.symm.trans (h.exec_fail ha))
    exact ⟨rfl, rfl, rfl, rfl, rfl, rfl, rfl, rfl, fun _ _ _ => rfl, fun _ => ⟨rfl, fun _ => rfl⟩, fun _ => rfl⟩
  | ok bytes =>
    have hread : (∃ a len, i = .readFrame a len) →
        t.work = { s.work with a := t.work.a, n := t.work.n, p := t.work.p, out := t.work.out } := by
      rintro ⟨a, len, rfl⟩
      obtain rfl := Host.Outcome.next.inj (ht.symm.trans (h.exec_readFrame_more ha hb))
      exact keepOut_work ..
    obtain ⟨u, hu, he⟩ := h.exec_more ha hb
    obtain rfl := Host.Outcome.next.inj (ht.symm.trans he)
    exact ⟨hu.kept.config, hu.kept.probed, hu.kept.cfg, hu.kept.host, hu.kept.resetPin, hu.kept.q, hu.sr, hu.id,
      fun h1 h2 h3 => (congrArg State.work (hu.none h1 h2 h3) :),
      fun hreg => ⟨hu.rx hreg, fun hno => (congrArg State.work (hu.reg hno hreg) :)⟩, hread⟩

/-! ### Reset, and what a step runs -/

/-- Settles O2: the invariant part by part, and the two checks of the default configuration. -/
theorem resetMeetsTheInvariant : Obligations.ResetMeetsTheInvariant :=
  ⟨inv_of_idle rfl rfl rfl, by decide, by decide⟩

/-- The record of a well-formed host request reads back as that request (R80, R81). -/
theorem decodeHost_of_encode {c : Config} {w : AddrWidth} {i : Instr} {q : HostRecord} (hi : i.wf c = true)
    (h : encode c w i = .host q) : decodeHost q = .ok i := by
  cases i with
  | write addr data =>
    obtain rfl := Encoded.host.inj h
    have hlen : data.length < 2 ^ 32 := of_decide_eq_true hi
    simpa [decodeHost] using (Nat.mod_eq_of_lt hlen).symm
  | reserved67 seven =>
    obtain rfl := Encoded.host.inj h
    cases seven <;> rfl
  | probe | getsize | read | erase | chiperase =>
    obtain rfl := Encoded.host.inj h
    rfl
  | _ => cases h

section
variable {s : State} {q : HostRecord} {more : List HostRecord}

/-- With a record presented, what is fetched is the request it encodes, if it encodes one. -/
theorem fetch_idle (hs : s.seq = .idle) (hh : s.host = q :: more) :
    (∀ i, decodeHost q = .ok i → s.fetch = .run i { s with host := more }) ∧
    (∀ e, decodeHost q = .reject e → s.fetch = .bad) := by
  constructor <;> intro _ hd <;> simp only [State.fetch, hs, hh, hd]

/-- In `IDLE` a step is `exec` of the request presented, with the record off the port. -/
theorem step_presented (hrun : s.runs) (hs : s.seq = .idle) (hh : s.host = q :: more) {i : Instr}
    (hd : decodeHost q = .ok i) : step s = exec i { s with host := more } := by
  obtain ⟨hp, hc⟩ := hrun
  simp [step, hp, hc, (fetch_idle hs hh).1 i hd]

/-- A record that is no request is refused. -/
theorem step_badRecord (hrun : s.runs) (hs : s.seq = .idle) (hh : s.host = q :: more) {e : DecodeError}
    (hd : decodeHost q = .reject e) : step s = .refused .badRecord := by
  obtain ⟨hp, hc⟩ := hrun
  simp [step, hp, hc, (fetch_idle hs hh).2 e hd]

/-- In `IDLE` with nothing presented the block waits (R303). -/
theorem step_waits (hrun : s.runs) (hs : s.seq = .idle) (hh : s.host = []) : step s = .next s := by
  obtain ⟨hp, hc⟩ := hrun
  simp [step, hp, hc, State.fetch, hs, hh]

end

/-- Settles O3: clause by clause, the step on each kind of state. -/
theorem stepRunsTheNextInstruction : Obligations.StepRunsTheNextInstruction := by
  refine ⟨fun s hp => ?_, fun s hp hc => ?_, fun s hp hc => ⟨fun r hs => ?_, fun hs hh => ?_,
    fun hs q more hh => ⟨fun i hd => ?_, fun e hd => ?_, fun w i hi he => ?_⟩⟩⟩
  · simp [step, hp]
  · simp [step, hp, hc]
  · exact step_running ⟨hp, hc⟩ hs
  · exact step_waits ⟨hp, hc⟩ hs hh
  · exact step_presented ⟨hp, hc⟩ hs hh hd
  · exact step_badRecord ⟨hp, hc⟩ hs hh hd
  · exact step_presented ⟨hp, hc⟩ hs hh (decodeHost_of_encode hi he)

end Sys2Proof.Machine

namespace Sys2Proof.Machine

/-! ### Address bytes (R55) -/

theorem addrBytes_concat (b3 b2 b1 b0 : Byte) :
    addrBytes .four (b3 ++ b2 ++ b1 ++ b0) = [b3, b2, b1, b0] ∧
    addrBytes .three (b3 ++ b2 ++ b1 ++ b0) = [b2, b1, b0] := by
  have h3 : (b3 ++ b2 ++ b1 ++ b0).extractLsb' 24 8 = b3 := by ext i hi; grind
  have h2 : (b3 ++ b2 ++ b1 ++ b0).extractLsb' 16 8 = b2 := by ext i hi; grind
  have h1 : (b3 ++ b2 ++ b1 ++ b0).extractLsb' 8 8 = b1 := by ext i hi; grind
  have h0 : (b3 ++ b2 ++ b1 ++ b0).extractLsb' 0 8 = b0 := by ext i hi; grind
  simp [addrBytes, h3, h2, h1, h0]

theorem takeAddr_addrBytes_four (a : Word) (rest : List Byte) :
    takeAddr .four (addrBytes .four a ++ rest) = some (a, rest) := by
  have : a.extractLsb' 24 8 ++ a.extractLsb' 16 8 ++ a.extractLsb' 8 8 ++ a.extractLsb' 0 8 = a := by
    ext i hi
    grind
  exact congrArg (fun x => some (x, rest)) this

theorem takeAddr_addrBytes_three (a : Word) (rest : List Byte) :
    takeAddr .three (addrBytes .three a ++ rest) = some (a &&& 0x00FFFFFF, rest) := by
  have hmask : ∀ i (hi : i < 32), (0x00FFFFFF : Word)[i] = decide (i < 24) := by decide
  have : (0 : Byte) ++ a.extractLsb' 16 8 ++ a.extractLsb' 8 8 ++ a.extractLsb' 0 8 = a &&& 0x00FFFFFF := by
    ext i hi
    rw [BitVec.getElem_and, hmask i hi]
    grind
  exact congrArg (fun x => some (x, rest)) this

/-- An address that fits the three bytes loses nothing. -/
theorem and_low24 {a : Word} (h : a.toNat < 2 ^ 24) : a &&& 0x00FFFFFF = a := by
  apply BitVec.eq_of_toNat_eq
  rw [BitVec.toNat_and]
  exact (Nat.and_two_pow_sub_one_eq_mod _ 24).trans (Nat.mod_eq_of_lt h)

/-- An address field reads back as the address it was written from, if that fits it. -/
theorem takeAddr_addrBytes {w : AddrWidth} {a : Word} (h : w = .three → a.toNat < 2 ^ 24) (rest : List Byte) :
    takeAddr w (addrBytes w a ++ rest) = some (a, rest) := by
  cases w with
  | three => rw [takeAddr_addrBytes_three, and_low24 (h rfl)]
  | four => exact takeAddr_addrBytes_four a rest

/-- What is read as an address field is one. -/
theorem eq_addrBytes_of_takeAddr {w : AddrWidth} {body rest : List Byte} {a : Word}
    (h : takeAddr w body = some (a, rest)) : body = addrBytes w a ++ rest := by
  unfold takeAddr at h
  split at h
  · cases h
    simp [(addrBytes_concat ..).2]
  · cases h
    simp [(addrBytes_concat ..).1]
  · cases h

/-! ### Frames read back (R84 to R92) -/

/-! Each format, both ways: what it reads, and that it reads what is written in it. -/

theorem decodeC0_ok {f : FrameWord} {body : List Byte} {i j : Instr} :
    decodeC0 f body i = .ok j ↔ body = [] ∧ f.rx = 0 ∧ i = j := by
  unfold decodeC0
  split <;> simp_all

theorem decodeC1_ok {f : FrameWord} {body : List Byte} {k : Byte → Instr} {j : Instr} :
    decodeC1 f body k = .ok j ↔ ∃ d, body = [d] ∧ f.rx = 0 ∧ k d = j := by
  unfold decodeC1
  split
  · split <;> simp_all
  · simp_all

theorem decodeR_ok {f : FrameWord} {body : List Byte} {n : Nat} {i j : Instr} :
    decodeR f body n i = .ok j ↔ body = [] ∧ f.rx = n ∧ i = j := by
  unfold decodeR
  split <;> simp_all

theorem decodeA_ok {w : AddrWidth} {f : FrameWord} {body : List Byte} {k : Word → Instr} {j : Instr} :
    decodeA w f body k = .ok j ↔ ∃ a, takeAddr w body = some (a, []) ∧ f.rx = 0 ∧ k a = j := by
  unfold decodeA
  split
  · split <;> simp_all
  · simp_all

theorem decodeAD_ok {w : AddrWidth} {f : FrameWord} {body : List Byte} {k : Word → List Byte → Instr} {j : Instr} :
    decodeAD w f body k = .ok j ↔ ∃ a d ds, takeAddr w body = some (a, d :: ds) ∧ f.rx = 0 ∧ k a (d :: ds) = j := by
  unfold decodeAD
  split
  · split <;> simp_all
  · simp_all

theorem decodeAR_ok {w : AddrWidth} {f : FrameWord} {body : List Byte} {j : Instr} :
    decodeAR w f body = .ok j ↔
      ∃ a, takeAddr w body = some (a, []) ∧ f.rx < 2 ^ 32 ∧ .readFrame a (BitVec.ofNat 32 f.rx) = j := by
  unfold decodeAR
  split
  · split <;> simp_all
  · simp_all

/-- Two bytes are too few for an address field. -/
theorem takeAddr_two (w : AddrWidth) (d0 d1 : Byte) : takeAddr w [d0, d1] = none := by
  cases w <;> rfl

theorem decodeAAI_ok {w : AddrWidth} {f : FrameWord} {body : List Byte} {j : Instr} :
    decodeAAI w f body = .ok j ↔ f.rx = 0 ∧
      ((∃ d0 d1, body = [d0, d1] ∧ .aaiNext d0 d1 = j) ∨
        ∃ a d0 d1, takeAddr w body = some (a, [d0, d1]) ∧ .aaiFirst a d0 d1 = j) := by
  unfold decodeAAI
  split
  · split <;> simp_all [takeAddr_two]
  · split
    · split <;> simp_all
    · simp_all

section
variable {c : Config} (h : c.op.distinct = true)
include h

/-- With different opcode bytes a well-formed frame whose address fits is read back. -/
theorem decodeFrame_encode {w : AddrWidth} {i : Instr} {f : FrameWord} (hwf : i.wf c = true) (hfits : i.fits w = true)
    (he : encode c w i = .frame f) : decodeFrame c w f = .ok i := by
  -- every opcode byte differs from those the decoder tests before it
  have hne := List.nodup_reverse.mpr (of_decide_eq_true h : c.op.all.Nodup)
  simp [Opcodes.all] at hne
  have field : ∀ {a : Word}, (Instr.se4k a).fits w = true →
      ∀ rest, takeAddr w (addrBytes w a ++ rest) = some (a, rest) := fun ha =>
    takeAddr_addrBytes fun hw => by subst hw; exact of_decide_eq_true ha
  cases i with
  | probe | getsize | read | erase | chiperase | write | reserved67 => cases he
  | rdid | rdsr =>
    cases he
    simp [decodeFrame, hne, decodeR_ok]
  | wren | wrdi | en4b | ex4b | exhb | ce =>
    cases he
    simp [decodeFrame, hne, decodeC0_ok]
  | wrsr d | brwr d | wrear d =>
    cases he
    simp [decodeFrame, hne, decodeC1_ok]
  | se4k a | se4kPmc a | be32k a | be64k a =>
    cases he
    have ha := field hfits []
    rw [List.append_nil] at ha
    simp [decodeFrame, hne, decodeA_ok, ha]
  | pp a d =>
    cases he
    have hd : 1 ≤ d.length := by simp [Instr.wf] at hwf; omega
    obtain ⟨v, vs, rfl⟩ := List.exists_cons_of_length_pos hd
    simp [decodeFrame, hne, decodeAD_ok, field hfits]
  | aaiFirst a d0 d1 =>
    cases he
    simp [decodeFrame, hne, decodeAAI_ok, field hfits]
  | aaiNext d0 d1 =>
    cases he
    simp [decodeFrame, hne, decodeAAI_ok]
  | readFrame a len =>
    cases he
    have ha := field hfits []
    rw [List.append_nil] at ha
    simp [decodeFrame, hne, decodeAR_ok, ha, len.isLt]

/-- The opcode of `RDSR` is read as nothing else. -/
theorem decodeFrame_rdsr (w : AddrWidth) (body : List Byte) (n : Nat) :
    decodeFrame c w ⟨c.op.rdsr :: body, n⟩ = decodeR ⟨c.op.rdsr :: body, n⟩ body 1 .rdsr := by
  have hne := List.nodup_reverse.mpr (of_decide_eq_true h : c.op.all.Nodup)
  simp [Opcodes.all] at hne
  simp [decodeFrame, hne]

end

section
variable {c : Config} {w : AddrWidth} {op : Byte} {body : List Byte} {n : Nat}

/-- The opcode of `RDID`, the first one tested, is read as nothing else. -/
theorem decodeFrame_rdid : decodeFrame c w ⟨c.op.rdid :: body, n⟩ =
    decodeR ⟨c.op.rdid :: body, n⟩ body c.fixed.idLen .rdid := if_pos rfl

/-- Only a frame with the opcode of `RDID` is read as `RDID`. -/
theorem opcode_of_decode_rdid (h : decodeFrame c w ⟨op :: body, n⟩ = .ok .rdid) : op = c.op.rdid := by
  simp [decodeFrame, ite_eq_iff, decodeC0_ok, decodeC1_ok, decodeR_ok, decodeA_ok, decodeAD_ok, decodeAAI_ok,
    decodeAR_ok] at h
  obtain ⟨hop, -⟩ := h
  exact hop

/-- Only a frame with the opcode of `RDSR` is read as `RDSR`. -/
theorem opcode_of_decode_rdsr (h : decodeFrame c w ⟨op :: body, n⟩ = .ok .rdsr) : op = c.op.rdsr := by
  simp [decodeFrame, ite_eq_iff, decodeC0_ok, decodeC1_ok, decodeR_ok, decodeA_ok, decodeAD_ok, decodeAAI_ok,
    decodeAR_ok] at h
  obtain ⟨-, -, -, hop, -⟩ := h
  exact hop

end

/-! ### What the reference device reads and does at deassert (R74) -/

section
variable {c : Config} {d : Device} {i : Instr} (h : c.op.distinct = true)
include h

/-- A frame that is no register read is read with the bytes received. -/
theorem Device.reading_of_current (hi : d.current c d.rxCount = .ok i) (h1 : i ≠ .rdid) (h2 : i ≠ .rdsr) :
    d.reading c = .ok i := by
  unfold Device.current at hi
  cases hf : d.frame with
  | nil => rw [hf] at hi; cases hi
  | cons op body =>
    rw [hf] at hi
    have n1 : d.current c c.fixed.idLen ≠ .ok .rdid := by
      intro hc
      rw [Device.current, hf] at hc
      rw [opcode_of_decode_rdid hc, decodeFrame_rdid, decodeR_ok] at hi
      obtain ⟨-, -, rfl⟩ := hi
      exact h1 rfl
    have n2 : d.current c 1 ≠ .ok .rdsr := by
      intro hc
      rw [Device.current, hf] at hc
      rw [opcode_of_decode_rdsr hc, decodeFrame_rdsr h, decodeR_ok] at hi
      obtain ⟨-, -, rfl⟩ := hi
      exact h2 rfl
    rw [Device.reading, if_neg n1, if_neg n2, Device.current, hf, hi]

/-- `RDID` is read as such whatever number of bytes is clocked. -/
theorem Device.reading_rdid (hf : d.frame = [c.op.rdid]) : d.reading c = .ok .rdid := by
  rw [Device.reading, Device.current, hf, decodeFrame_encode h (i := .rdid) rfl rfl rfl, if_pos rfl]

/-- So is `RDSR`. -/
theorem Device.reading_rdsr (hf : d.frame = [c.op.rdsr]) : d.reading c = .ok .rdsr := by
  have hno : d.current c c.fixed.idLen ≠ .ok .rdid := by
    rw [Device.current, hf, decodeFrame_rdsr h]
    simp [decodeR_ok]
  have hyes : d.current c 1 = .ok .rdsr := by
    rw [Device.current, hf, decodeFrame_encode h (i := .rdsr) rfl rfl rfl]
  rw [Device.reading, if_neg hno, if_pos hyes]

end

section
variable {c : Config} {d : Device} {i : Instr} (hr : d.reading c = .ok i)
include hr

/-- A device that is not busy reacts to the frame it has read. -/
theorem Device.deselect_ready (hb : d.busyPolls = 0) :
    d.deselect c = ({ d with frame := [], rxCount := 0 } : Device).react c i := by
  simp [Device.deselect, hr, hb]

/-- A busy one ignores it. -/
theorem Device.deselect_busy (hb : 0 < d.busyPolls) (hi : i ≠ .rdsr) :
    d.deselect c = { d with frame := [], rxCount := 0 } := by
  simp [Device.deselect, hr, hb, hi]

/-- Unless it is a status read, which counts the busy count down. -/
theorem Device.deselect_busy_rdsr (hb : 0 < d.busyPolls) (hi : i = .rdsr) :
    d.deselect c = { d with frame := [], rxCount := 0, busyPolls := d.busyPolls - 1 } := by
  simp [Device.deselect, hr, hb, hi]

end

/-- A frame of the bytes `tx` that receives nothing, as the device sees its three calls. -/
theorem Device.take_frame (c : Config) (d : Device) (line : Nat) (tx : List Byte) :
    ((d.take c 1 (.chipSelect line true)).take c tx.length (.writeOnly tx)).take c 1 (.chipSelect line false) =
      ({ d with frame := tx, rxCount := 0 } : Device).deselect c := by
  simp [Device.take]

/-! ### A command frame sent to the attached device -/

/-- The device `d` answers the calls made in `s`. -/
structure State.ServedBy (s : State) (d : Device) : Prop where
  attached : s.env.attached = true
  script : s.env.script = []
  dev : s.env.dev = d

/-- The attached device fails no call on a line that exists, and sees all of it (log entry 2). -/
theorem State.ServedBy.called {s : State} {d : Device} {call : Call} (h : s.ServedBy d)
    (hl : call.badLine s.config = false) (q : Seq) : (∃ bytes, s.answer call = .ok bytes) ∧
      ({ s.called call with seq := q } : State).ServedBy (d.take s.config call.size call) := by
  obtain ⟨ha, hs, rfl⟩ := h
  obtain ⟨bytes, he⟩ : ∃ bytes, s.env.answer s.config call = (.ok bytes, call.size) := by
    simp [Env.answer, ha, hs, hl]
  have hok : s.answer call = .ok bytes := congrArg Prod.fst he
  exact ⟨⟨bytes, hok⟩, by simp [State.envAfter_ok hok, ha], by simp [hs],
    by simp [State.envAfter_ok hok, ha, he]⟩

/-- The bytes of a command frame, and its three calls. -/
theorem encode_command (c : Config) (w : AddrWidth) {i : Instr} (h : IsCommand i) :
    ∃ tx, encode c w i = .frame ⟨tx, 0⟩ ∧
      frameCalls c w i = [.chipSelect c.csLine.val true, .writeOnly tx, .chipSelect c.csLine.val false] := by
  obtain ⟨hi, h1, h2, h3⟩ := h
  cases i with
  | probe | getsize | read | erase | chiperase | write | reserved67 => cases hi
  | rdid => exact absurd rfl h1
  | rdsr => exact absurd rfl h2
  | readFrame a len => exact absurd rfl (h3 a len)
  | wren | wrdi | wrsr | en4b | ex4b | brwr | exhb | wrear | se4k | se4kPmc | be32k | be64k | ce | pp | aaiFirst
  | aaiNext => exact ⟨_, rfl, rfl⟩

/-- The block's own calls are on a line that exists. -/
theorem State.AtCall.badLine {s : State} {req i : Instr} {beat : Nat} {rest : List Task} {call : Call}
    (h : s.AtCall req i beat rest call) (hrun : s.runs) : call.badLine s.config = false := by
  obtain ⟨tx, rxs, got, done, P⟩ := played i s h.frame h.cfg
  obtain ⟨rfl, -⟩ := frameCall_of_calls (P.calls ▸ h.call)
  exact frameCall_badLine (configRuns_fixed hrun.2) ..

section
variable {s : State} {req i : Instr} {beat : Nat} {rest : List Task} {call : Call} {d : Device}
  (hi : IsCommand i) (hrun : s.runs) (h : s.AtCall req i beat rest call) (hd : s.ServedBy d)
include hi hrun h hd

/-- A call of a command frame before the last one, served by the device. -/
theorem served_more {next : Call} (hn : (frameCalls s.config s.width i)[beat + 1]? = some next) :
    ∃ t, step s = .next t ∧ s.sameBlock t ∧ t.AtCall req i (beat + 1) rest next ∧
      t.ServedBy (d.take s.config call.size call) := by
  obtain ⟨⟨bytes, ha⟩, hserved⟩ := hd.called (h.badLine hrun) (.running ⟨req, i, beat + 1, rest⟩)
  obtain ⟨u, hu, he⟩ := h.exec_more ha (List.getElem?_eq_some_iff.mp hn).1
  obtain rfl := hu.none hi.rdid hi.rdsr hi.read
  exact ⟨_, (step_running hrun h.seq).trans he, (State.Made.called s call _).block, ⟨rfl, h.frame, h.cfg, hn⟩, hserved⟩

/-- The last call of a command frame, served by the device. -/
theorem served_last (hb : beat + 1 = (frameCalls s.config s.width i).length) :
    ∃ t, step s = settle req rest t ∧ s.sameBlock t ∧ t.ServedBy (d.take s.config call.size call) := by
  obtain ⟨⟨bytes, ha⟩, hserved⟩ := hd.called (h.badLine hrun) s.seq
  obtain ⟨-, u, hu, he⟩ := h.exec_last ha hb
  obtain rfl := hu.other hi.rdsr hi.rdid
  exact ⟨_, (step_running hrun h.seq).trans he, (State.Made.called s call s.seq).block, hserved⟩

end

/-- Settles O8, from the address field read back at each width and the bytes of a concatenation. -/
theorem addressBytesAreMostSignificantFirst : Obligations.AddressBytesAreMostSignificantFirst := fun a rest =>
  ⟨rfl, rfl, takeAddr_addrBytes_four a rest, takeAddr_addrBytes_three a rest, addrBytes_concat⟩

/-- Settles O56: the three calls put the frame's bytes before the device, which reads them back as the frame
(`decodeFrame_encode`) and reacts at the deassert. -/
theorem attachedDeviceReactsToTheFrame : Obligations.AttachedDeviceReactsToTheFrame := by
  intro s req i rest hat h1 h2 h3 hatt hscr hdist hwf hfits hw hb
  obtain ⟨hp, hc, hs, hhost, hcfg⟩ := hat
  have hi : IsCommand i := ⟨hhost, h1, h2, h3⟩
  have hrun : s.runs := ⟨hp, hc⟩
  obtain ⟨tx, henc, hcalls⟩ := encode_command s.config s.width hi
  have at0 : s.AtCall req i 0 rest (.chipSelect s.config.csLine.val true) := ⟨hs, hhost, hcfg, by rw [hcalls]; rfl⟩
  obtain ⟨s1, hs1, b1, at1, d1⟩ := served_more hi hrun at0 ⟨hatt, hscr, rfl⟩ (by rw [hcalls]; rfl)
  obtain ⟨s2, hs2, b2, at2, d2⟩ := served_more hi (b1.runs hrun) at1 d1 (by rw [b1.frameCalls, hcalls]; rfl)
  have b02 := b1.trans b2
  obtain ⟨s3, hs3, b3, d3⟩ := served_last hi (b02.runs hrun) at2 d2 (by rw [b02.frameCalls, hcalls]; rfl)
  refine ⟨s3, ?_, b02.trans b3, ?_⟩
  · rw [run_succ_of_step 2 hs1, run_succ_of_step 1 hs2, run_one, hs3]
  · have hcur : ({ s.env.dev with frame := tx, rxCount := 0 } : Device).current s.config 0 = .ok i := by
      rw [← decodeFrame_encode hdist hwf hfits henc, ← hw]
      rfl
    have hread := Device.reading_of_current hdist hcur h1 h2
    rw [d3.dev, b1.1, b02.1]
    exact (Device.take_frame ..).trans (Device.deselect_ready hread hb)

end Sys2Proof.Machine

namespace Sys2Proof.Machine

/-! ### Stretches of the array that are programmed (R74) -/

/-- From `m` to `m'` the bytes `vs` have been programmed from `lo` on, each into the byte that stood there. -/
structure Memory.Programmed (m m' : Memory) (lo : Nat) (vs : List Byte) : Prop where
  wf : Memory.wf m' = true
  inside : ∀ k v, vs[k]? = some v → Memory.read m' (lo + k) = Memory.read m (lo + k) &&& v
  outside : ∀ x, x < lo ∨ lo + vs.length ≤ x → Memory.read m' x = Memory.read m x

theorem Memory.Programmed.nil {m : Memory} (h : Memory.wf m = true) (lo : Nat) : Memory.Programmed m m lo [] :=
  ⟨h, by simp, fun _ _ => rfl⟩

/-- One byte after the other. -/
theorem Memory.Programmed.append {m m' m'' : Memory} {lo hi : Nat} {vs ws : List Byte}
    (h : Memory.Programmed m m' lo vs) (hhi : lo + vs.length = hi) (h' : Memory.Programmed m' m'' hi ws) :
    Memory.Programmed m m'' lo (vs ++ ws) := by
  subst hhi
  refine ⟨h'.wf, fun k v hk => ?_, fun x hx => ?_⟩
  · by_cases hlt : k < vs.length
    · rw [List.getElem?_append_left hlt] at hk
      rw [h'.outside _ (by omega), h.inside k v hk]
    · rw [List.getElem?_append_right (by omega)] at hk
      have := h'.inside _ v hk
      rw [show lo + vs.length + (k - vs.length) = lo + k by omega] at this
      rw [this, h.outside _ (by omega)]
  · rw [List.length_append] at hx
    rw [h'.outside x (by omega), h.outside x (by omega)]

/-- In an erased span the bytes programmed stand there afterwards. -/
theorem Memory.Programmed.read_of_erased {m m' : Memory} {lo : Nat} {vs : List Byte}
    (h : Memory.Programmed m m' lo vs) (he : ∀ k < vs.length, Memory.read m (lo + k) = 0xFF) {k : Nat} {v : Byte}
    (hk : vs[k]? = some v) : Memory.read m' (lo + k) = v := by
  rw [h.inside k v hk, he k (List.getElem?_eq_some_iff.mp hk).1]
  exact BitVec.allOnes_and

/-- The device's own write of one byte. -/
theorem Device.program_programmed {d : Device} {t lo : Nat} (h : Memory.wf d.mem = true) (ht : t % d.cap = lo)
    (v : Byte) : Memory.Programmed d.mem (d.program t v).mem lo [v] := by
  subst ht
  refine ⟨Device.wf_program h t v, fun k u hk => ?_, fun x hx => ?_⟩
  · obtain ⟨rfl, rfl⟩ : k = 0 ∧ v = u := by simpa [List.getElem?_singleton] using hk
    exact Memory.read_write_same _ _ h
  · exact Device.read_program_out (by simp at hx; omega) v

/-- The bytes of a page program whose targets follow one another. -/
theorem Device.programPage_programmed {S a : Nat} : ∀ (vs : List Byte) (i : Nat) {d : Device},
    Memory.wf d.mem = true → (∀ k < vs.length, pageTarget S a (i + k) % d.cap = a + i + k) →
    Memory.Programmed d.mem (Device.programPage S a i vs d).mem (a + i) vs
  | [], _, _, h, _ => .nil h _
  | v :: vs, i, d, h, ht => by
    have first := Device.program_programmed h (ht 0 (by simp)) v
    refine first.append rfl (Device.programPage_programmed vs (i + 1) first.wf fun k hk => ?_)
    rw [Nat.add_right_comm i 1 k]
    exact (ht (k + 1) (by simpa using hk)).trans (by omega)

/-- A page program touches nothing but the array. -/
theorem Device.programPage_eq (S a : Nat) : ∀ (vs : List Byte) (i : Nat) (d : Device),
    Device.programPage S a i vs d = { d with mem := (Device.programPage S a i vs d).mem }
  | [], _, _ => rfl
  | v :: vs, i, d => Device.programPage_eq S a vs (i + 1) (d.program (pageTarget S a i) v)

/-- Inside a page the targets follow one another (R74, R213). -/
theorem pageTarget_of_inside {S a n k : Nat} (h : a % S + n ≤ S) (hk : k < n) : pageTarget S a k = a + k := by
  have hmod : (a + k) % S = a % S + k := by
    rw [Nat.add_mod, Nat.mod_eq_of_lt (show k < S by omega), Nat.mod_eq_of_lt (by omega)]
  have := Nat.mod_le a S
  unfold pageTarget
  omega

/-- `PP` with the latch set: a page program and the start of the internal cycle. -/
theorem Device.react_pp (c : Config) {d : Device} (hw : d.wel = true) (a : Word) (v : List Byte) :
    d.react c (.pp a v) = { d with
      mem := (Device.programPage c.pageSize (d.phys a) 0 v d).mem, wel := false, busyPolls := d.busyAfter } := by
  simp only [Device.react, hw, if_true]
  rw [Device.programPage_eq]
  rfl

/-- A page program that stays in one page and inside the array. -/
theorem Device.programPage_inside {S a : Nat} {d : Device} {v : List Byte} (h : Memory.wf d.mem = true)
    (hp : a % S + v.length ≤ S) (hcap : a + v.length ≤ d.cap) :
    Memory.Programmed d.mem (Device.programPage S a 0 v d).mem a v :=
  Device.programPage_programmed v 0 h fun k hk => by
    rw [Nat.zero_add, pageTarget_of_inside hp hk, Nat.mod_eq_of_lt (by omega), Nat.add_zero]

/-- Settles O57: inside a page the bytes go to the addresses that follow the frame's address. -/
theorem pageProgramAndsIntoTheArray : Obligations.PageProgramAndsIntoTheArray := by
  intro c d a v hwf _ hp hcap
  refine ⟨fun hw => ?_, fun hw => by simp [Device.react, hw]⟩
  rw [Device.react_pp c hw]
  refine ⟨fun k hk => ?_, rfl, rfl⟩
  have hv : v[k]? = some (v.getD k 0) := by simp [hk]
  exact (Device.programPage_inside hwf hp hcap).inside k _ hv

/-! ### A write to the reference device, frame by frame (R71) -/

/-- The device after some frames, each of which it was ready for. -/
def Device.reacts (c : Config) (d : Device) (is : List Instr) : Device := is.foldl (fun d i => d.react c i) d

theorem Device.reacts_cons (c : Config) (d : Device) (i : Instr) (is : List Instr) :
    d.reacts c (i :: is) = (d.react c i).reacts c is := rfl

theorem Device.reacts_append (c : Config) (d : Device) (is js : List Instr) :
    d.reacts c (is ++ js) = (d.reacts c is).reacts c js := List.foldl_append

/-- In 3-byte mode with the low bank selected and at most 16 MiB, a frame's address is an address of the array. -/
structure Device.LowBank (d : Device) : Prop where
  wf : Memory.wf d.mem = true
  mode4 : d.mode4 = false
  ear : d.ear = 0
  cap : d.cap ≤ 2 ^ 24

theorem Device.LowBank.phys {d : Device} (h : d.LowBank) {a : Word} (ha : a.toNat < d.cap) : d.phys a = a.toNat := by
  simp [Device.phys, Device.width, h.mode4, h.ear, Nat.mod_eq_of_lt ha]

/-- An address further on in the array does not wrap. -/
theorem Device.LowBank.toNat_add {d : Device} (h : d.LowBank) {a : Word} {n : Nat} (ha : a.toNat + n ≤ d.cap) :
    (a + BitVec.ofNat 32 n).toNat = a.toNat + n := by
  have := h.cap
  simp
  omega

/-- From `d` to `d'` the device has programmed `vs` from `lo` on, and takes addresses as before. -/
structure Device.Wrote (d d' : Device) (lo : Nat) (vs : List Byte) : Prop where
  mem : Memory.Programmed d.mem d'.mem lo vs
  cap : d'.cap = d.cap
  mode4 : d'.mode4 = d.mode4
  ear : d'.ear = d.ear

theorem Device.Wrote.append {d d' d'' : Device} {lo hi : Nat} {vs ws : List Byte} (h : d.Wrote d' lo vs)
    (hhi : lo + vs.length = hi) (h' : d'.Wrote d'' hi ws) : d.Wrote d'' lo (vs ++ ws) :=
  ⟨h.mem.append hhi h'.mem, h'.cap.trans h.cap, h'.mode4.trans h.mode4, h'.ear.trans h.ear⟩

theorem Device.Wrote.lowBank {d d' : Device} {lo : Nat} {vs : List Byte} (h : d.Wrote d' lo vs) (hd : d.LowBank) :
    d'.LowBank :=
  ⟨h.mem.wf, h.mode4.trans hd.mode4, h.ear.trans hd.ear, h.cap ▸ hd.cap⟩

/-- One program with its `WREN` before and its poll after it (R212). -/
theorem Device.LowBank.wrote_chunk (c : Config) {d : Device} (h : d.LowBank) {a : Word} {v : List Byte}
    (h1 : 1 ≤ v.length) (hp : a.toNat % c.pageSize + v.length ≤ c.pageSize) (hcap : a.toNat + v.length ≤ d.cap) :
    d.Wrote (d.reacts c [.wren, .pp a v, .rdsr]) a.toNat v ∧ (d.reacts c [.wren, .pp a v, .rdsr]).aai = d.aai := by
  have hphys : d.phys a = a.toNat := h.phys (by omega)
  have he : d.reacts c [.wren, .pp a v, .rdsr] = ({ d with wel := true } : Device).react c (.pp a v) := rfl
  rw [he, Device.react_pp c rfl]
  refine ⟨⟨?_, rfl, rfl, rfl⟩, rfl⟩
  show Memory.Programmed d.mem (Device.programPage c.pageSize (d.phys a) 0 v { d with wel := true }).mem _ _
  rw [hphys]
  exact Device.programPage_inside (d := { d with wel := true }) h.wf hp hcap

/-- The chunk loop (R211). -/
theorem Device.LowBank.wrote_pages (c : Config) (hS : 1 ≤ c.pageSize) : ∀ (fuel : Nat) (a : Word) (data : List Byte)
    {d : Device}, d.LowBank → data.length ≤ fuel → a.toNat + data.length ≤ d.cap →
    d.Wrote (d.reacts c (pageFrames c.pageSize fuel a data)) a.toNat data
  | 0, a, [], d, h, _, _ => ⟨.nil h.wf _, rfl, rfl, rfl⟩
  | fuel + 1, a, [], d, h, _, _ => ⟨.nil h.wf _, rfl, rfl, rfl⟩
  | fuel + 1, a, v :: vs, d, h, hfuel, hcap => by
    have hmod := Nat.mod_lt a.toNat hS
    set n := min (vs.length + 1) (c.pageSize - a.toNat % c.pageSize) with hn
    have hlen : ((v :: vs).take n).length = n := by simp; omega
    have hrest : ((v :: vs).drop n).length = vs.length + 1 - n := by simp
    rw [List.length_cons] at hfuel hcap
    obtain ⟨hw, -⟩ := h.wrote_chunk c (a := a) (v := (v :: vs).take n) (by omega) (by omega) (by omega)
    have ha : (a + BitVec.ofNat 32 n).toNat = a.toNat + n := h.toNat_add (by omega)
    have ih := Device.LowBank.wrote_pages c hS fuel (a + BitVec.ofNat 32 n) ((v :: vs).drop n) (hw.lowBank h)
      (by omega) (by rw [hw.cap]; omega)
    rw [show pageFrames c.pageSize (fuel + 1) a (v :: vs) = [.wren, .pp a ((v :: vs).take n), .rdsr] ++
      pageFrames c.pageSize fuel (a + BitVec.ofNat 32 n) ((v :: vs).drop n) from rfl, Device.reacts_append]
    have := hw.append (by rw [hlen, ha]) ih
    rwa [List.take_append_drop] at this

end Sys2Proof.Machine

namespace Sys2Proof.Machine

/-- The two bytes of a burst. -/
theorem Device.program_pair {d : Device} (h : Memory.wf d.mem = true) {t : Nat} (ht : t + 2 ≤ d.cap) (d0 d1 : Byte) :
    Memory.Programmed d.mem ((d.program t d0).program (t + 1) d1).mem t [d0, d1] := by
  have first := Device.program_programmed h (Nat.mod_eq_of_lt (show t < d.cap by omega)) d0
  exact first.append rfl (Device.program_programmed first.wf (Nat.mod_eq_of_lt (show t + 1 < d.cap by omega)) d1)

/-- The device expects a burst for the address `a`: the first one of a sequence, or a later one (R74). -/
def Device.ExpectsBurst (d : Device) (first : Bool) (a : Word) : Prop :=
  if first then d.wel = true ∧ d.aai = false else d.aai = true ∧ d.aaiAddr = a

/-- One burst: two bytes programmed, and the next one expected two bytes further on (R218, R219). -/
theorem Device.LowBank.wrote_burst (c : Config) {d : Device} (h : d.LowBank) {first : Bool} {a : Word}
    (he : d.ExpectsBurst first a) (hcap : a.toNat + 2 ≤ d.cap) (d0 d1 : Byte) :
    let d' := d.react c (if first then .aaiFirst a d0 d1 else .aaiNext d0 d1)
    d.Wrote d' a.toNat [d0, d1] ∧ d'.ExpectsBurst false (a + 2) := by
  have hmem := Device.program_pair h.wf hcap d0 d1
  cases first with
  | true =>
    obtain ⟨hwel, haai⟩ : d.wel = true ∧ d.aai = false := he
    have hnext : BitVec.ofNat 32 (a.toNat + 2) = a + 2 := by simp [BitVec.ofNat_add]
    simp only [if_true, Device.react, hwel, haai, and_self, h.phys (show a.toNat < d.cap by omega)]
    exact ⟨⟨hmem, rfl, rfl, rfl⟩, rfl, hnext⟩
  | false =>
    obtain ⟨haai, rfl⟩ : d.aai = true ∧ d.aaiAddr = a := he
    simp only [Bool.false_eq_true, if_false, Device.react, haai, if_true]
    exact ⟨⟨hmem, rfl, rfl, rfl⟩, haai, rfl⟩

/-- The bursts of a sequence, its end, and the trailing byte (R216). -/
theorem Device.LowBank.wrote_bursts (c : Config) (hS : 1 ≤ c.pageSize) : ∀ (first : Bool) (a : Word)
    (data : List Byte) {d : Device}, d.LowBank → d.ExpectsBurst first a → a.toNat + data.length ≤ d.cap →
    d.Wrote (d.reacts c (burstFrames first a data)) a.toNat data ∧ (d.reacts c (burstFrames first a data)).aai = false
  | first, a, d0 :: d1 :: ds, d, h, he, hcap => by
    simp only [List.length_cons] at hcap
    obtain ⟨hw, he'⟩ := h.wrote_burst c he (by omega) d0 d1
    have ha : (a + 2).toNat = a.toNat + 2 := h.toNat_add (n := 2) (by omega)
    obtain ⟨hws, haai⟩ := Device.LowBank.wrote_bursts c hS false (a + 2) ds (hw.lowBank h) he'
      (by rw [hw.cap, ha]; omega)
    exact ⟨hw.append ha.symm hws, haai⟩
  | first, a, [v], d, h, _, hcap => by
    obtain ⟨hw, haai⟩ := Device.LowBank.wrote_chunk c (d := d.react c .wrdi) ⟨h.wf, h.mode4, h.ear, h.cap⟩
      (a := a) (v := [v]) le_rfl (Nat.mod_lt _ hS) hcap
    exact ⟨⟨hw.mem, hw.cap, hw.mode4, hw.ear⟩, haai⟩
  | first, a, [], d, h, _, _ => ⟨⟨.nil h.wf _, rfl, rfl, rfl⟩, rfl⟩

/-- The frames of `WriteAAI` (R216). -/
theorem Device.LowBank.wrote_aai (c : Config) (hS : 1 ≤ c.pageSize) {d : Device} (h : d.LowBank) (haai : d.aai = false)
    {addr : Word} {data : List Byte} (hcap : addr.toNat + data.length ≤ d.cap) :
    d.Wrote (d.reacts c (aaiFrames addr data)) addr.toNat data ∧ (d.reacts c (aaiFrames addr data)).aai = false := by
  -- the `WREN` before the bursts
  have bursts : ∀ (a : Word) (vs : List Byte) {e : Device}, e.LowBank → e.aai = false → a.toNat + vs.length ≤ e.cap →
      e.Wrote (e.reacts c (.wren :: burstFrames true a vs)) a.toNat vs ∧
        (e.reacts c (.wren :: burstFrames true a vs)).aai = false := fun a vs e he hno hle => by
    obtain ⟨hw, hend⟩ := Device.LowBank.wrote_bursts c hS true a vs (d := { e with wel := true })
      ⟨he.wf, he.mode4, he.ear, he.cap⟩ ⟨rfl, hno⟩ hle
    exact ⟨⟨hw.mem, hw.cap, hw.mode4, hw.ear⟩, hend⟩
  cases data with
  | nil => exact bursts addr [] h haai hcap
  | cons v vs =>
    by_cases hodd : addr.toNat % 2 = 1
    · rw [List.length_cons] at hcap
      obtain ⟨hw, hno⟩ := h.wrote_chunk c (a := addr) (v := [v]) le_rfl (Nat.mod_lt _ hS) (by simp; omega)
      have ha : (addr + 1).toNat = addr.toNat + 1 := h.toNat_add (n := 1) (by omega)
      obtain ⟨hws, hend⟩ := bursts (addr + 1) vs (hw.lowBank h) (hno.trans haai) (by rw [hw.cap, ha]; omega)
      simp only [aaiFrames, hodd, if_true, List.append_assoc, Device.reacts_append]
      exact ⟨hw.append ha.symm hws, hend⟩
    · simp only [aaiFrames, hodd, if_false]
      exact bursts addr (v :: vs) h haai hcap

/-- What is programmed into an erased span stands there, and a `READ` frame of the span answers it (R71, R242). -/
theorem Device.Wrote.reads_back {c : Config} {d d' : Device} {addr : Word} {data : List Byte}
    (hw : d.Wrote d' addr.toNat data) (h : d.LowBank) (hdist : c.op.distinct = true)
    (hcap : addr.toNat + data.length ≤ d.cap) (haddr : addr.toNat < 2 ^ 24)
    (he : ∀ k < data.length, Memory.read d.mem (addr.toNat + k) = 0xFF) :
    (∀ k < data.length, Memory.read d'.mem (addr.toNat + k) = data.getD k 0) ∧
    ({ d' with frame := c.op.read :: addrBytes .three addr, rxCount := 0, busyPolls := 0 } : Device).answer c
      data.length = some data := by
  have hread : ∀ {k v}, data[k]? = some v → Memory.read d'.mem (addr.toNat + k) = v := hw.mem.read_of_erased he
  refine ⟨fun k hk => hread (by simp [hk]), ?_⟩
  set e : Device := { d' with frame := c.op.read :: addrBytes .three addr, rxCount := 0, busyPolls := 0 }
  have hlow : e.LowBank := by
    obtain ⟨h1, h2, h3, h4⟩ := hw.lowBank h
    exact ⟨h1, h2, h3, h4⟩
  have hcur : e.current c e.rxCount = .ok (.readFrame addr 0) := by
    have hwidth : e.width = .three := by simp [Device.width, hlow.mode4]
    rw [Device.current, hwidth]
    exact decodeFrame_encode hdist (i := .readFrame addr 0) rfl (decide_eq_true haddr) rfl
  have hreading := Device.reading_of_current hdist hcur (by simp) (by simp)
  simp only [Device.answer, hreading]
  refine congrArg some (List.ext_getElem (by simp) fun k hk hk' => ?_)
  have hecap : e.cap = d.cap := hw.cap
  have hphys : e.phys addr = addr.toNat := hlow.phys (by omega)
  simp only [List.getElem_map, List.getElem_range, hphys]
  rw [show addr.toNat + e.rxCount + k = addr.toNat + k from rfl, Nat.mod_eq_of_lt (by omega)]
  exact hread (List.getElem?_eq_getElem hk')

/-- Settles O59: the chunk loop programs the span (`Device.LowBank.wrote_pages`), which was erased. -/
theorem pageWriteThenReadGivesTheData : Obligations.PageWriteThenReadGivesTheData := by
  intro c d addr data hwf hS hdist hmode hear hcap hmax haddr he
  have h : d.LowBank := ⟨hwf, hmode, hear, hmax⟩
  have hw := h.wrote_pages c hS data.length addr data le_rfl hcap
  exact ⟨_, rfl, hw.reads_back h hdist hcap haddr he⟩

/-- Settles O60: so do the bursts with the single bytes at the ends (`Device.LowBank.wrote_aai`). -/
theorem autoIncrementWriteThenReadGivesTheData : Obligations.AutoIncrementWriteThenReadGivesTheData := by
  intro c d addr data hwf hS hdist hmode hear haai hcap hmax haddr he
  have h : d.LowBank := ⟨hwf, hmode, hear, hmax⟩
  obtain ⟨hw, hend⟩ := h.wrote_aai c hS haai hcap
  exact ⟨_, rfl, hend, hw.reads_back h hdist hcap haddr he⟩

/-! ### Registers and erases of the device -/

/-- The status byte as a number (R73). -/
theorem Device.toNat_status (d : Device) : d.status.toNat =
    d.srHigh.toNat * 4 + (if d.wel then 2 else 0) + (if 0 < d.busyPolls then 1 else 0) := by
  have two : ∀ (x : BitVec 6) (p q : Bool), (x ++ BitVec.ofBool p ++ BitVec.ofBool q).toNat =
      x.toNat * 4 + (if p then 2 else 0) + (if q then 1 else 0) := by
    intro x p q
    rw [BitVec.toNat_append, BitVec.toNat_append, ← Nat.shiftLeft_add_eq_or_of_lt (BitVec.isLt _),
      ← Nat.shiftLeft_add_eq_or_of_lt (BitVec.isLt _), Nat.shiftLeft_eq, Nat.shiftLeft_eq]
    cases p <;> cases q <;> simp <;> omega
  simpa [Device.status] using two d.srHigh d.wel (decide (0 < d.busyPolls))

/-- Bit 7 of a byte, as `BRWR` reads it (R176). -/
theorem getLsbD_seven (v : Byte) : v.getLsbD 7 = decide (128 ≤ v.toNat) := by
  rw [← BitVec.msb_eq_getLsbD_last v, BitVec.msb_eq_decide]

/-- The four erase frames with the size of their regions (R74, R193). -/
theorem Device.react_erase (c : Config) {d : Device} {i : Instr} {a : Word} {g : Nat}
    (hi : (i, g) ∈ [(.se4k a, 4096), (.se4kPmc a, 4096), (.be32k a, 32768),
      (.be64k a, if d.blk256 then 262144 else 65536)]) : d.react c i = d.eraseRegion g a := by
  simp only [List.mem_cons, Prod.mk.injEq, List.not_mem_nil, or_false] at hi
  obtain ⟨rfl, rfl⟩ | ⟨rfl, rfl⟩ | ⟨rfl, rfl⟩ | ⟨rfl, rfl⟩ := hi <;> rfl

/-- Settles O58, clause by clause: the registers, the answers and the busy rule by what the device has read, the erases
by the region they clear. -/
theorem registerAndEraseFramesReactOnTheDevice : Obligations.RegisterAndEraseFramesReactOnTheDevice := by
  refine ⟨fun c d v hfix => ?_, fun c d n hdist hfix => ⟨fun hf => ?_, fun hf hb hrx => ?_, fun hf hb => ?_⟩,
    fun c d i hr => ⟨Device.deselect_busy hr, Device.deselect_ready hr⟩, fun c d i a g hi => ?_⟩
  · have hbit : v.getLsbD c.fixed.bank4bBit = decide (128 ≤ v.toNat) := by
      rw [hfix]
      exact getLsbD_seven v
    refine ⟨rfl, rfl, fun hw => ?_, fun hw => ?_, rfl, rfl, ?_, rfl, fun hw => ?_, fun hw => ?_⟩
    · simp [Device.react, Device.startCycle, hw]
    · simp [Device.react, hw]
    · simp [Device.react, hbit]
    · simp [Device.react, hw]
    · simp [Device.react, hw]
  · exact ⟨d.status, by simp only [Device.answer, Device.reading_rdsr hdist hf], d.toNat_status⟩
  · simp only [Device.answer, Device.reading_rdid hdist hf, hb, hrx, Nat.zero_add]
    rfl
  · exact Device.deselect_busy_rdsr (Device.reading_rdsr hdist hf) hb rfl
  · rw [Device.react_erase c hi]
    refine ⟨fun hw => ?_, fun hw => by simp [Device.eraseRegion, Device.react, hw]⟩
    simp only [Device.eraseRegion, Device.react, hw, if_true]
    exact ⟨fun x h1 h2 => Memory.read_erase_in ⟨h1, h2⟩, fun _ => rfl, rfl, rfl⟩
end Sys2Proof.Machine

namespace Sys2Proof.Machine

/-! ### Where a step can change the array -/

/-- Of what reaches the device, only a deassert changes the array, where the frame collected stores (R74). -/
theorem Device.read_take_ne {c : Config} {d : Device} {took x : Nat} {call : Call}
    (h : Memory.read (d.take c took call).mem x ≠ Memory.read d.mem x) :
    ∃ line j, call = .chipSelect line false ∧ d.reading c = .ok j ∧ d.stores c j x = true := by
  cases call with
  | writeOnly bytes => exact absurd rfl h
  | readOnly n => exact absurd rfl h
  | chipSelect line level =>
    cases level with
    | true =>
      simp only [Device.take] at h
      split at h <;> exact absurd rfl h
    | false =>
      have hne : Memory.read (d.deselect c).mem x ≠ Memory.read d.mem x := by
        simp only [Device.take] at h
        split at h
        · exact absurd rfl h
        · exact h
      cases hr : d.reading c with
      | reject e =>
        simp only [Device.deselect, hr] at hne
        exact absurd rfl hne
      | ok j =>
        refine ⟨line, j, rfl, rfl, ?_⟩
        rcases Nat.eq_zero_or_pos d.busyPolls with hb | hb
        · rw [Device.deselect_ready hr hb] at hne
          by_contra hs
          have hno : ({ d with frame := [], rxCount := 0 } : Device).stores c j x = false :=
            Bool.eq_false_of_not_eq_true hs
          exact hne (Device.read_react_out hno)
        · by_cases hj : j = .rdsr
          · rw [Device.deselect_busy_rdsr hr hb hj] at hne
            exact absurd rfl hne
          · rw [Device.deselect_busy hr hb hj] at hne
            exact absurd rfl hne

/-- A call of a running request changes the array only where the frame collected stores, at a deassert, or where the
frame being sent stores, when it fails (R62). -/
theorem State.read_envAfter_ne {s : State} {r : Running} {call : Call} {x : Nat} (hs : s.seq = .running r)
    (h : Memory.read (s.envAfter call).dev.mem x ≠ Memory.read s.env.dev.mem x) :
    s.env.attached = true ∧
    ((∃ line j, call = .chipSelect line false ∧ s.env.dev.reading s.config = .ok j ∧
      s.env.dev.stores s.config j x = true) ∨
     s.answer call = .fail ∧ s.env.dev.stores s.config r.frame x = true) := by
  cases hatt : s.env.attached with
  | false =>
    refine absurd ?_ h
    cases ha : s.answer call with
    | ok bytes => simp [State.envAfter_ok ha, hatt]
    | fail => simp [State.envAfter_fail_dev ha hs, hatt]
  | true =>
    refine ⟨rfl, ?_⟩
    cases ha : s.answer call with
    | ok bytes =>
      simp only [State.envAfter_ok ha, Env.after_dev, hatt, if_true] at h
      exact .inl (Device.read_take_ne h)
    | fail =>
      simp only [State.envAfter_fail_dev ha hs, Env.after_dev, hatt, if_true] at h
      cases hst : s.env.dev.stores s.config r.frame x with
      | true => exact .inr ⟨rfl, rfl⟩
      | false =>
        refine .inl (Device.read_take_ne (took := (s.env.answer s.config call).2) fun he => h ?_)
        exact (Device.read_scramble_out (Config.freeByte s.env.draws) _ hst).trans he

/-! ### What a step does to the device, in any state

No invariant is assumed: the request under way may be anything. -/

/-- From `s` to `t` no transport call was made. -/
structure State.MadeNone (s t : State) : Prop where
  dev : t.env.dev = s.env.dev
  trace : ∃ more, t.trace = s.trace ++ more ∧ callsOf more = []

/-- The end of a request makes no call. -/
theorem State.MadeNone.respond {s u : State} (h : s.MadeNone u) (e : Status) (z : Option Word)
    (o : Option (List Byte)) : s.MadeNone (u.respond e z o) := by
  obtain ⟨more, hm, hno⟩ := h.trace
  exact ⟨h.dev, more ++ [_], by rw [State.respond_trace, hm, List.append_assoc], by simp [hno]⟩

/-- Neither do the lines of the pseudocode. -/
theorem State.Worked.madeNone {s t : State} (h : State.Worked s t) : s.MadeNone t :=
  ⟨congrArg Env.dev h.env, h.trace⟩

theorem settle_madeNone {req : Instr} {ts : List Task} {s t : State} (h : settle req ts s = .next t) :
    s.MadeNone t := by
  rcases settle_cases req ts s with ⟨u, hu, he | ⟨e, he⟩ | ⟨f, us, he⟩⟩ | he <;> cases he.symm.trans h
  · exact hu.madeNone.respond ..
  · exact hu.madeNone.respond ..
  · obtain ⟨hdev, htrace⟩ := hu.madeNone
    exact ⟨hdev, htrace⟩

/-- The result, if it is a next state, was reached without a transport call. -/
def CallFree (s : State) (r : Result) : Prop := ∀ t, r = .next t → s.MadeNone t

theorem CallFree.next {s t : State} (h : s.MadeNone t) : CallFree s (.next t) := by
  intro u hu
  cases hu
  exact h

theorem CallFree.self (s : State) : CallFree s (.next s) :=
  .next (State.Worked.refl s).madeNone

theorem CallFree.respond {s : State} {e : Status} {z : Option Word} {o : Option (List Byte)} :
    CallFree s (.next (s.respond e z o)) :=
  .next ((State.Worked.refl s).madeNone.respond ..)

theorem CallFree.fault (s : State) (f : Fault) : CallFree s (.fault f) := by
  intro t ht
  cases ht

theorem CallFree.refused (s : State) (r : Refusal) : CallFree s (.refused r) := by
  intro t ht
  cases ht

theorem CallFree.settle {s : State} {req : Instr} {ts : List Task} : CallFree s (Machine.settle req ts s) :=
  fun _ ht => settle_madeNone ht

theorem CallFree.ite {s : State} {p : Prop} [Decidable p] {a b : Result} (ha : CallFree s a) (hb : CallFree s b) :
    CallFree s (if p then a else b) := by
  split
  · exact ha
  · exact hb

theorem CallFree.withProbed {s : State} {req : Instr} {k : FlashConfig → Descriptor → Result}
    (hk : ∀ f d, CallFree s (k f d)) : CallFree s (Machine.withProbed req s k) := by
  unfold Machine.withProbed
  refine .ite ?_ .respond
  split
  · exact hk _ _
  · exact .fault _ _

theorem CallFree.accept {s : State} {k : State → Result} (hk : CallFree s.accepted (k s.accepted)) :
    CallFree s (Machine.accept s k) := by
  cases hs : s.seq with
  | idle =>
    rw [accept_idle hs]
    intro t ht
    obtain ⟨hdev, htrace⟩ := hk t ht
    exact ⟨hdev, htrace⟩
  | running r => rw [accept_running hs]; exact .refused _ _

/-- A host request makes no transport call in the step that takes it. -/
theorem exec_host_callFree {s : State} {i : Instr} (hi : i.isHost = true) : CallFree s (exec i s) := by
  unfold exec
  cases i with
  | probe => exact .accept (.ite .respond .settle)
  | getsize => exact .accept (.withProbed fun _ _ => .respond)
  | read addr len => exact .accept (.withProbed fun _ _ => .ite .respond .settle)
  | erase addr len => exact .accept (.withProbed fun _ _ => .ite .respond (.ite .respond .settle))
  | chiperase => exact .accept (.ite .settle .respond)
  | write addr data => exact .accept (.withProbed fun _ _ => .ite .respond .settle)
  | reserved67 seven => exact .self s
  | _ => cases hi

/-- From `s` to `t` the machine made the one call `call`. -/
structure State.MadeOne (s : State) (call : Call) (t : State) : Prop where
  dev : t.env.dev = (s.envAfter call).dev
  calls : callsOf t.trace = callsOf s.trace ++ [call]

/-- The receipt of bytes after the call, and then work that makes no call. -/
theorem State.Kept.madeOne {s u t : State} {call : Call} (h : State.Kept (s.called call) u) (k : u.MadeNone t) :
    s.MadeOne call t := by
  obtain ⟨m, hm, hno⟩ := h.trace
  obtain ⟨m', hm', hno'⟩ := k.trace
  exact ⟨k.dev.trans (congrArg Env.dev h.env), by simp [hm', hm, hno, hno']⟩

/-- A frame that answers a next state has made one call, wherever in the frame the request stands. -/
theorem exec_frame_madeOne {s t : State} {r : Running} (hs : s.seq = .running r) (hi : r.frame.isHost = false)
    (ht : exec r.frame s = .next t) : ∃ call, s.MadeOne call t := by
  obtain ⟨tx, rxs, got, done, P⟩ := played r.frame s hi (cfg_isSome_of_exec ht)
  let call := frameCall s.config.csLine.val tx rxs r.beat
  refine ⟨call, ?_⟩
  rw [P.exec] at ht
  cases ha : s.answer call with
  | fail =>
    cases (playFrame_fail hs ha).symm.trans ht
    exact (State.Kept.refl _).madeOne ((State.Worked.refl _).madeNone.respond ..)
  | ok bytes =>
    by_cases hb : r.beat < lastBeat rxs
    · cases (playFrame_more hs hb ha).symm.trans ht
      exact (P.got call bytes _).kept.madeOne ⟨rfl, [], (List.append_nil _).symm, rfl⟩
    · rw [playFrame_last hs (Nat.not_lt.mp hb) ha] at ht
      exact (P.done (s.called call)).kept.madeOne (settle_madeNone ht)

/-- A step to a next state makes no call, or one call of the request under way. -/
theorem step_madeNone_or_one {s t : State} (ht : step s = .next t) :
    t.env.dev = s.env.dev ∨ ∃ r call, s.seq = .running r ∧ s.MadeOne call t := by
  rcases step_cases s with ⟨-, he⟩ | ⟨-, -, he⟩ | ⟨-, -, ⟨-, he⟩ | ⟨-, he⟩ | ⟨i, u, hf, he⟩⟩
  · cases he.symm.trans ht
    exact .inl rfl
  · cases he.symm.trans ht
  · cases he.symm.trans ht
    exact .inl rfl
  · cases he.symm.trans ht
  · rw [he] at ht
    rcases fetch_run hf with ⟨r, hs, rfl, rfl⟩ | ⟨-, q, more, -, hd, rfl⟩
    · cases hi : r.frame.isHost with
      | true => exact .inl (exec_host_callFree hi t ht).dev
      | false =>
        obtain ⟨call, hmade⟩ := exec_frame_madeOne hs hi ht
        exact .inr ⟨r, call, hs, hmade⟩
    · exact .inl (exec_host_callFree (decodeHost_isHost hd) t ht).dev

/-- Settles O55: a step that changes the array has made a call of the request under way, which changes it at a
deassert or by failing (`State.read_envAfter_ne`). -/
theorem flashChangesOnlyWhereAFrameStores : Obligations.FlashChangesOnlyWhereAFrameStores := by
  intro s t x ht hne
  rcases step_madeNone_or_one ht with hdev | ⟨r, call, hs, hdev, hcalls⟩
  · exact absurd (by rw [hdev]) hne
  · rw [hdev] at hne
    obtain ⟨hatt, ⟨line, j, rfl, hj, hst⟩ | ⟨hfail, hst⟩⟩ := State.read_envAfter_ne hs hne
    · exact ⟨hatt, .inl ⟨j, line, hj, hst, hcalls⟩⟩
    · exact ⟨hatt, .inr ⟨r, call, hs, hfail, hst, hcalls⟩⟩

end Sys2Proof.Machine

namespace Sys2Proof.Machine

/-! ### The two encodings read back (R80, R81, R84 to R92) -/

/-- Settles O6: the record of a host request and the bytes of a frame each read back as what they were written from. -/
theorem decodeOfEncodeIsTheInstruction : Obligations.DecodeOfEncodeIsTheInstruction := by
  intro c w i hdist hwf hfits
  cases he : encode c w i with
  | host q => exact decodeHost_of_encode hwf he
  | frame f => exact decodeFrame_encode hdist hwf hfits he

/-! ### A frame read is the frame written (R84 to R92) -/

/-- Whatever instruction the decoder's answer `d` gives for the frame `f`, that frame is its written form. -/
def ReadsWritten (c : Config) (w : AddrWidth) (f : FrameWord) (d : Decoded) : Prop :=
  ∀ i, d = .ok i → encode c w i = .frame f

section
variable {c : Config} {w : AddrWidth} {op x : Byte} {body : List Byte} {n : Nat}

theorem ReadsWritten.ite {f : FrameWord} {p : Prop} [Decidable p] {a b : Decoded} (ha : p → ReadsWritten c w f a)
    (hb : ReadsWritten c w f b) : ReadsWritten c w f (if p then a else b) := by
  split
  · exact ha ‹_›
  · exact hb

theorem ReadsWritten.reject (f : FrameWord) (e : DecodeError) : ReadsWritten c w f (.reject e) := nofun

/-! Each format, for an opcode `x` whose instruction is written in that format. -/

theorem ReadsWritten.c0 {j : Instr} (he : encode c w j = .frame ⟨[x], 0⟩) (hop : op = x) :
    ReadsWritten c w ⟨op :: body, n⟩ (decodeC0 ⟨op :: body, n⟩ body j) := by
  intro i h
  obtain ⟨rfl, rfl, rfl⟩ := decodeC0_ok.mp h
  rw [he, hop]

theorem ReadsWritten.c1 {k : Byte → Instr} (he : ∀ d, encode c w (k d) = .frame ⟨[x, d], 0⟩) (hop : op = x) :
    ReadsWritten c w ⟨op :: body, n⟩ (decodeC1 ⟨op :: body, n⟩ body k) := by
  intro i h
  obtain ⟨d, rfl, rfl, rfl⟩ := decodeC1_ok.mp h
  rw [he, hop]

theorem ReadsWritten.r {m : Nat} {j : Instr} (he : encode c w j = .frame ⟨[x], m⟩) (hop : op = x) :
    ReadsWritten c w ⟨op :: body, n⟩ (decodeR ⟨op :: body, n⟩ body m j) := by
  intro i h
  obtain ⟨rfl, rfl, rfl⟩ := decodeR_ok.mp h
  rw [he, hop]

theorem ReadsWritten.a {k : Word → Instr} (he : ∀ a, encode c w (k a) = .frame ⟨x :: addrBytes w a, 0⟩)
    (hop : op = x) : ReadsWritten c w ⟨op :: body, n⟩ (decodeA w ⟨op :: body, n⟩ body k) := by
  intro i h
  obtain ⟨a, ha, rfl, rfl⟩ := decodeA_ok.mp h
  rw [he, hop, eq_addrBytes_of_takeAddr ha, List.append_nil]

theorem ReadsWritten.ad {k : Word → List Byte → Instr}
    (he : ∀ a d, encode c w (k a d) = .frame ⟨x :: (addrBytes w a ++ d), 0⟩) (hop : op = x) :
    ReadsWritten c w ⟨op :: body, n⟩ (decodeAD w ⟨op :: body, n⟩ body k) := by
  intro i h
  obtain ⟨a, d, ds, ha, rfl, rfl⟩ := decodeAD_ok.mp h
  rw [he, hop, eq_addrBytes_of_takeAddr ha]

theorem ReadsWritten.aai (hop : op = c.op.aai) :
    ReadsWritten c w ⟨op :: body, n⟩ (decodeAAI w ⟨op :: body, n⟩ body) := by
  intro i h
  obtain ⟨rfl, ⟨d0, d1, rfl, rfl⟩ | ⟨a, d0, d1, ha, rfl⟩⟩ := decodeAAI_ok.mp h
  · rw [encode, hop]
  · rw [encode, hop, eq_addrBytes_of_takeAddr ha]

theorem ReadsWritten.ar (hop : op = c.op.read) :
    ReadsWritten c w ⟨op :: body, n⟩ (decodeAR w ⟨op :: body, n⟩ body) := by
  intro i h
  obtain ⟨a, ha, hn, rfl⟩ := decodeAR_ok.mp h
  rw [encode, hop, eq_addrBytes_of_takeAddr ha, List.append_nil, BitVec.toNat_ofNat, Nat.mod_eq_of_lt hn]

end

/-- The decoder's tests, one opcode after the other. -/
theorem decodeFrame_readsWritten (c : Config) (w : AddrWidth) (f : FrameWord) :
    ReadsWritten c w f (decodeFrame c w f) := by
  obtain ⟨tx, n⟩ := f
  cases tx with
  | nil => exact .reject _ _
  | cons op body =>
    exact
      .ite (.r rfl) <|               -- `RDID`
      .ite (.c0 rfl) <|              -- `WREN`
      .ite (.c0 rfl) <|              -- `WRDI`
      .ite (.r rfl) <|               -- `RDSR`
      .ite (.c1 fun _ => rfl) <|     -- `WRSR`
      .ite (.c0 rfl) <|              -- `EN4B`
      .ite (.c0 rfl) <|              -- `EX4B`
      .ite (.c1 fun _ => rfl) <|     -- `BRWR`
      .ite (.c0 rfl) <|              -- `EXHB`
      .ite (.c1 fun _ => rfl) <|     -- `WREAR`
      .ite (.a fun _ => rfl) <|      -- `SE4K`
      .ite (.a fun _ => rfl) <|      -- `SE4K_PMC`
      .ite (.a fun _ => rfl) <|      -- `BE32K`
      .ite (.a fun _ => rfl) <|      -- `BE64K`
      .ite (.c0 rfl) <|              -- `CE`
      .ite (.ad fun _ _ => rfl) <|   -- `PP`
      .ite .aai <|                   -- `AAI`
      .ite .ar <|                    -- `READ`
      .reject _ _

/-- Only a frame is written as one. -/
theorem isHost_of_encode {c : Config} {w : AddrWidth} {f : FrameWord} {i : Instr} (h : encode c w i = .frame f) :
    i.isHost = false := by
  cases i with
  | probe | getsize | read | erase | chiperase | write | reserved67 => cases h
  | _ => rfl

/-- A first byte that is no opcode parameter has no reading (R94, R101). -/
theorem decodeFrame_unknown {c : Config} {op : Byte} (h : op ∉ c.op.all) (w : AddrWidth) (body : List Byte)
    (n : Nat) : decodeFrame c w ⟨op :: body, n⟩ = .reject .unknownOpcode := by
  simp only [Opcodes.all, List.cons_append, List.nil_append, List.mem_cons, List.not_mem_nil, or_false, not_or] at h
  simp [decodeFrame, h]

/-- Settles O7: format by format for the frames that are read, and no test of the decoder met for the others. -/
theorem frameHasOneReading : Obligations.FrameHasOneReading := by
  refine ⟨fun c w f i h => ?_, fun c w f b hb hno => ?_⟩
  · have he := decodeFrame_readsWritten c w f i h
    exact ⟨he, isHost_of_encode he⟩
  · obtain ⟨tx, n⟩ := f
    obtain ⟨body, rfl⟩ := List.head?_eq_some_iff.mp hb
    exact decodeFrame_unknown hno w body n

/-! ### What the calls of a running request are (R54, R94) -/

/-- The call is one the block may make: it selects `CS_LINE`, sends bytes that begin with an opcode parameter, or
receives. -/
def Call.IsOfFrame (c : Config) : Call → Prop
  | .chipSelect line _ => line = c.csLine.val
  | .writeOnly bytes => ∃ op ∈ c.op.all, bytes.head? = some op
  | .readOnly _ => True

/-- Every call of every frame is one, wherever in the frame the request stands. -/
theorem Played.isOfFrame {i : Instr} {s : State} {tx : List Byte} {rxs : List Nat}
    {got : Call → List Byte → State → State} {done : State → State} (P : Played i s tx rxs got done)
    (beat : Nat) : (frameCall s.config.csLine.val tx rxs beat).IsOfFrame s.config := by
  unfold frameCall
  split
  · rfl
  · exact P.opcode
  · split
    · trivial
    · rfl

/-- From `s` to `t` only such calls were made. -/
def State.SentFrames (s t : State) : Prop :=
  ∃ more, t.trace = s.trace ++ more ∧ ∀ call ∈ callsOf more, call.IsOfFrame s.config

theorem State.SentFrames.of_noCall {s t : State} (h : ∃ more, t.trace = s.trace ++ more ∧ callsOf more = []) :
    s.SentFrames t := by
  obtain ⟨more, hm, hno⟩ := h
  exact ⟨more, hm, by simp [hno]⟩

/-- One such call, the receipt of bytes, and then work that makes no call. -/
theorem State.SentFrames.of_call {s u t : State} {call : Call} (hcall : call.IsOfFrame s.config)
    (h : State.Kept (s.called call) u) (k : ∃ more, t.trace = u.trace ++ more ∧ callsOf more = []) :
    s.SentFrames t := by
  obtain ⟨m, hm, hno⟩ := h.trace
  obtain ⟨m', hm', hno'⟩ := k
  exact ⟨.call call (s.answer call) :: (m ++ m'), by simp [hm', hm], by simp [hno, hno', hcall]⟩

/-- A frame that answers a next state has made one of its calls. -/
theorem exec_frame_sentFrames {s t : State} {r : Running} (hs : s.seq = .running r) (hi : r.frame.isHost = false)
    (ht : exec r.frame s = .next t) : s.SentFrames t := by
  obtain ⟨tx, rxs, got, done, P⟩ := played r.frame s hi (cfg_isSome_of_exec ht)
  have hcall := P.isOfFrame r.beat
  rw [P.exec] at ht
  cases ha : s.answer (frameCall s.config.csLine.val tx rxs r.beat) with
  | fail =>
    cases (playFrame_fail hs ha).symm.trans ht
    exact .of_call hcall (.refl _) ((State.Worked.refl _).madeNone.respond ..).trace
  | ok bytes =>
    by_cases hb : r.beat < lastBeat rxs
    · cases (playFrame_more hs hb ha).symm.trans ht
      exact .of_call hcall (P.got _ bytes _).kept ⟨[], (List.append_nil _).symm, rfl⟩
    · rw [playFrame_last hs (Nat.not_lt.mp hb) ha] at ht
      exact .of_call hcall (P.done _).kept (settle_madeNone ht).trace

/-- In the invariant every step makes only calls of frames. -/
theorem step_sentFrames {s t : State} (hinv : s.inv = true) (ht : step s = .next t) : s.SentFrames t := by
  rcases step_cases s with ⟨-, he⟩ | ⟨-, -, he⟩ | ⟨-, -, ⟨-, he⟩ | ⟨-, he⟩ | ⟨i, u, hf, he⟩⟩
  · cases he.symm.trans ht
    exact .of_noCall ⟨[], by simp, rfl⟩
  · cases he.symm.trans ht
  · cases he.symm.trans ht
    exact .of_noCall ⟨[], by simp, rfl⟩
  · cases he.symm.trans ht
  · rw [he] at ht
    rcases fetch_run hf with ⟨r, hs, rfl, rfl⟩ | ⟨-, q, more, -, hd, rfl⟩
    · obtain ⟨-, -, -, -, hi, -⟩ := inv_running hinv hs
      exact exec_frame_sentFrames hs hi ht
    · exact .of_noCall (exec_host_callFree (decodeHost_isHost hd) t ht).trace

/-- Settles O16: the calls of a step are calls of frames (`step_sentFrames`). -/
theorem sentFramesBeginWithAnOpcode : Obligations.SentFramesBeginWithAnOpcode := by
  intro s t hinv ht
  obtain ⟨more, hm, hall⟩ := step_sentFrames hinv ht
  exact ⟨more, hm, fun _ hb => hall _ hb, fun _ _ hl => hall _ hl⟩

/-! ### A whole register read (R87, R121, R152) -/

/-- An answer with all the bytes asked for is those bytes. -/
theorem completeBytes_length_self (k : Nat) (bytes : List Byte) : completeBytes k bytes.length bytes = bytes := by
  refine List.ext_getElem? fun j => ?_
  by_cases hj : j < bytes.length <;> simp [completeBytes, hj]

/-- The state with these bytes received. -/
def State.received (s : State) (bytes : List Byte) : State := { s with work := { s.work with rx := bytes } }

@[simp] theorem State.received_env (s : State) (bytes : List Byte) : (s.received bytes).env = s.env := rfl
@[simp] theorem State.received_trace (s : State) (bytes : List Byte) : (s.received bytes).trace = s.trace := rfl

theorem State.sameBlock.received {s t : State} (h : s.sameBlock t) (bytes : List Byte) :
    (s.received bytes).sameBlock (t.received bytes) := by
  obtain ⟨h1, h2, h3, h4, h5, h6, h7⟩ := h
  exact ⟨h1, h2, h3, congrArg (fun k : Work => { k with rx := bytes }) h4, h5, h6, h7⟩

section
variable {s : State} {req i : Instr} {beat n : Nat} {rest : List Task} {op : Byte} {done : State → State}
  {given : List Byte} {more : List Scripted} (he : exec i s = cmdRd op n done s) (hrun : s.runs)
  (hs : s.seq = .running ⟨req, i, beat, rest⟩) (hr : s.env.script = .reply given :: more)
include he hrun hs hr

/-- A call of a register read before the last one: what it brings is taken. -/
theorem regRead_more {call : Call} (hc : frameCall s.config.csLine.val [op] [n] beat = call) (hb : beat < 3) :
    ∃ t, step s = .next t ∧ (keepRx call (completeBytes s.env.draws call.rxLen given) s).Made call t ∧
      t.seq = .running ⟨req, i, beat + 1, rest⟩ := by
  subst hc
  have ha := State.answer_reply hr (frameCall_badLine (configRuns_fixed hrun.2) [op] [n] beat)
  refine ⟨_, ((step_running hrun hs).trans he).trans (playFrame_more hs hb ha), ?_, rfl⟩
  cases frameCall s.config.csLine.val [op] [n] beat <;> exact .called _ _ _

/-- Its last call: the bytes received are assigned, and the request's next lines run. -/
theorem regRead_last (hb : beat = 3) :
    ∃ t, step s = settle req rest (done t) ∧ s.Made (.chipSelect s.config.csLine.val false) t := by
  subst hb
  have ha := State.answer_reply hr (frameCall_badLine (configRuns_fixed hrun.2) [op] [n] 3)
  exact ⟨_, ((step_running hrun hs).trans he).trans (playFrame_last hs le_rfl ha), .called s _ s.seq⟩

end

theorem keepRx_received (s : State) (k : Nat) (bytes : List Byte) :
    keepRx (.readOnly bytes.length) (completeBytes k bytes.length bytes) s = s.received bytes := by
  rw [completeBytes_length_self]
  rfl

/-- The four calls of a register read bring its bytes, and nothing else of the block changes. -/
theorem regRead_runs {s : State} {req i : Instr} {rest : List Task} {op : Byte} {done : State → State}
    {bytes : List Byte} (he : ∀ u : State, u.config = s.config → exec i u = cmdRd op bytes.length done u)
    (hat : s.atFrame req i rest) (hears : s.hears (reading bytes)) :
    ∃ t, run 4 s = settle req rest (done t) ∧ (s.received bytes).sameBlock t ∧
      t.env.script = s.env.script.drop 4 ∧
      callsOf t.trace = callsOf s.trace ++ [.chipSelect s.config.csLine.val true, .writeOnly [op],
        .readOnly bytes.length, .chipSelect s.config.csLine.val false] := by
  obtain ⟨hp, hc, hs, -, -⟩ := hat
  have hrun : s.runs := ⟨hp, hc⟩
  have hscript : s.env.script = reading bytes ++ s.env.script.drop 4 := by
    rw [← show s.env.script.take 4 = reading bytes from hears, List.take_append_drop]
  obtain ⟨s1, hs1, (m1 : s.Made _ s1), q1⟩ :=
    regRead_more (call := .chipSelect s.config.csLine.val true) (he s rfl) hrun hs hscript rfl (by decide)
  have b1 : s.sameBlock s1 := m1.block
  obtain ⟨s2, hs2, (m2 : s1.Made _ s2), q2⟩ :=
    regRead_more (call := .writeOnly [op]) (he s1 b1.1) (b1.runs hrun) q1 (by rw [m1.script, hscript]; rfl) rfl
      (by decide)
  have b2 : s.sameBlock s2 := b1.trans m2.block
  obtain ⟨s3, hs3, m3, q3⟩ :=
    regRead_more (call := .readOnly bytes.length) (he s2 b2.1) (b2.runs hrun) q2
      (by rw [m2.script, m1.script, hscript]; rfl) rfl (by decide)
  rw [Call.rxLen, keepRx_received] at m3
  have b3 : (s.received bytes).sameBlock s3 := (b2.received bytes).trans m3.block
  obtain ⟨s4, hs4, m4⟩ :=
    regRead_last (he s3 b3.1) (b3.runs hrun) q3
      (by rw [m3.script, State.received_env, m2.script, m1.script, hscript]; rfl) rfl
  refine ⟨s4, ?_, b3.trans m4.block, ?_, ?_⟩
  · rw [run_succ_of_step 3 hs1, run_succ_of_step 2 hs2, run_succ_of_step 1 hs3, run_one, hs4]
  · simp only [m4.script, m3.script, State.received_env, m2.script, m1.script, ← List.drop_one, List.drop_drop]
  · simp [m4.trace, m3.trace, m2.trace, m1.trace, b3.1, State.received]

/-- A byte string is read most significant byte first (R122). -/
theorem toNat_append_byte {n : Nat} (x : BitVec n) (b : Byte) : (x ++ b).toNat = x.toNat * 256 + b.toNat := by
  rw [BitVec.toNat_append, ← Nat.shiftLeft_add_eq_or_of_lt b.isLt, Nat.shiftLeft_eq]

/-- The byte received becomes `SR` (R152). -/
def State.takeSr (s : State) : State := { s with work := { s.work with sr := s.work.rx.headD 0 } }

/-- The five bytes received become `ID` (R121). -/
def State.takeId (s : State) : State := { s with work := { s.work with id := IdBytes.ofList s.work.rx } }

theorem exec_rdsr (s : State) : exec .rdsr s = cmdRd s.config.op.rdsr 1 State.takeSr s := rfl

theorem exec_rdid (s : State) : exec .rdid s = cmdRd s.config.op.rdid s.config.fixed.idLen State.takeId s := rfl

/-- Settles O26: the four calls by `regRead_runs`, and then the register that the end of each frame writes. -/
theorem registerReadsRunWhole : Obligations.RegisterReadsRunWhole := by
  refine ⟨fun s req rest b hat hears => ?_, fun s req rest b0 b1 b2 b3 b4 hat hears => ?_⟩
  · obtain ⟨t, hrun, ⟨hc, hp, hf, hw, hblock⟩, hscript, hcalls⟩ :=
      regRead_runs (op := s.config.op.rdsr) (fun u hu => by rw [exec_rdsr, hu]; rfl) hat hears
    exact ⟨t.takeSr, hrun, ⟨hc, hp, hf, by rw [State.takeSr, hw]; rfl, hblock⟩, hscript, hcalls⟩
  · have hlen : s.config.fixed.idLen = [b0, b1, b2, b3, b4].length := by rw [configRuns_fixed hat.2.1]; rfl
    obtain ⟨t, hrun, ⟨hc, hp, hf, hw, hblock⟩, hscript, hcalls⟩ :=
      regRead_runs (op := s.config.op.rdid) (fun u hu => by rw [exec_rdid, hu, hlen]) hat hears
    have hid : t.takeId.work.id = ⟨b0, b1, b2, b3, b4⟩ := by rw [State.takeId, hw]; rfl
    refine ⟨t.takeId, hrun, ⟨hc, hp, hf, by rw [State.takeId, hw]; rfl, hblock⟩, ?_, ?_, hscript, ?_⟩
    · rw [hid, IdBytes.jedec, toNat_append_byte, toNat_append_byte, Nat.add_mul, Nat.mul_assoc]
    · rw [hid, IdBytes.ext, toNat_append_byte]
    · rw [← hlen] at hcalls
      exact hcalls

/-! ### Records and frames written out -/

/-- Settles O4: ten closed words, one by one. -/
theorem wordsFromTheSpecDecode : Obligations.WordsFromTheSpecDecode := by
  refine ⟨?_, ?_, ?_, ?_, ?_, ?_, ?_, ?_, ?_, ?_⟩ <;> decide

/-- Settles O5: the decoder's tests of the operation code, and for a `WRITE` the test of its length. -/
theorem operationCodesDecode : Obligations.OperationCodesDecode :=
  fun _ _ _ => ⟨rfl, rfl, rfl, rfl, rfl, fun h => if_pos h, fun h => if_neg h, rfl, rfl⟩

/-! ### The reserved codes (R100) -/

/-- Settles O43: `exec` of a reserved code is the identity, and the step takes the record off the port before it. -/
theorem reservedCodesAreIgnored : Obligations.ReservedCodesAreIgnored := by
  refine ⟨fun _ _ => rfl, fun s b ⟨hp, hc, hs, q, more, hh, hd⟩ => ?_⟩
  rw [step_presented ⟨hp, hc⟩ hs hh hd, hh]
  rfl

end Sys2Proof.Machine

namespace Sys2Proof.Machine

/-! ### Runs in pieces -/

/-- A run of `m + n` steps goes on from where the first `m` have led. -/
theorem run_add_of_run {s t : State} {m : Nat} (n : Nat) (h : run m s = .next t) : run (m + n) s = run n t := by
  induction m generalizing s with
  | zero =>
    cases h
    rw [Nat.zero_add]
  | succ m ih =>
    rw [Nat.succ_add]
    simp only [run] at h ⊢
    cases hs : step s with
    | next u =>
      rw [hs] at h
      exact ih h
    | fault r => rw [hs] at h; cases h
    | refused r => rw [hs] at h; cases h

/-- The answers `a ++ b` are `a` and then, once these are used up, `b`. -/
theorem State.hears_append {s : State} {a b : List Scripted} (h : s.hears (a ++ b)) :
    s.hears a ∧ (s.env.script.drop a.length).take b.length = b := by
  unfold State.hears at h ⊢
  rw [List.length_append, List.take_add] at h
  exact List.append_inj h (by have := congrArg List.length h; simp at this ⊢; omega)

/-- A step takes nothing out of the history (R66). -/
theorem step_trace {s t : State} (ht : step s = .next t) : ∃ more, t.trace = s.trace ++ more := by
  rcases step_cases s with ⟨-, he⟩ | ⟨-, -, he⟩ | ⟨-, -, ⟨-, he⟩ | ⟨-, he⟩ | ⟨i, u, hf, he⟩⟩
  · cases he.symm.trans ht
    exact ⟨[], by simp⟩
  · cases he.symm.trans ht
  · cases he.symm.trans ht
    exact ⟨[], by simp⟩
  · cases he.symm.trans ht
  · rw [he] at ht
    have huse : u.trace = s.trace := by
      rcases fetch_run hf with ⟨r, -, -, rfl⟩ | ⟨-, q, more, -, -, rfl⟩ <;> rfl
    cases hi : i.isHost with
    | true =>
      obtain ⟨more, hm, -⟩ := (exec_host_callFree hi t ht).trace
      exact ⟨more, hm.trans (by rw [huse])⟩
    | false =>
      rcases fetch_run hf with ⟨r, hs, rfl, rfl⟩ | ⟨-, q, more, -, hd, -⟩
      · obtain ⟨more, hm, -⟩ := exec_frame_sentFrames hs hi ht
        exact ⟨more, hm⟩
      · cases hi.symm.trans (decodeHost_isHost hd)

/-- Neither does a run. -/
theorem run_trace {s t : State} {n : Nat} (h : run n s = .next t) : ∃ more, t.trace = s.trace ++ more := by
  induction n generalizing s with
  | zero =>
    cases h
    exact ⟨[], by simp⟩
  | succ n ih =>
    simp only [run] at h
    cases hs : step s with
    | next u =>
      rw [hs] at h
      obtain ⟨m, hm⟩ := step_trace hs
      obtain ⟨m', hm'⟩ := ih h
      exact ⟨m ++ m', by rw [hm', hm, List.append_assoc]⟩
    | fault r => rw [hs] at h; cases h
    | refused r => rw [hs] at h; cases h

theorem State.sameSetup.refl (s : State) : s.sameSetup s := ⟨rfl, rfl, rfl, rfl⟩

theorem State.sameSetup.config {s t : State} (h : s.sameSetup t) : t.config = s.config := h.1

theorem State.sameSetup.cfg {s t : State} (h : s.sameSetup t) : t.cfg = s.cfg := h.2.2.1

/-- A block about to take a request runs. -/
theorem State.presents.runs {s : State} {i : Instr} (h : s.presents i) : s.runs := ⟨h.1, h.2.1⟩

theorem State.sameSetup.trans {s t u : State} (h : s.sameSetup t) (k : t.sameSetup u) : s.sameSetup u := by
  obtain ⟨h1, h2, h3, h4⟩ := h
  obtain ⟨k1, k2, k3, k4⟩ := k
  exact ⟨k1.trans h1, k2.trans h2, k3.trans h3, k4.trans h4⟩

theorem State.sameSetup.runs {s t : State} (h : s.sameSetup t) (hrun : s.runs) : t.runs := by
  obtain ⟨hc, -, -, hp⟩ := h
  exact ⟨hp.trans hrun.1, hc ▸ hrun.2⟩

theorem State.sameSetup.frameCalls {s t : State} (h : s.sameSetup t) (i : Instr) :
    frameCalls t.config t.width i = frameCalls s.config s.width i := by
  obtain ⟨hc, -, hf, -⟩ := h
  simp only [State.width, hc, hf]

/-- A block that differs in its working registers at most has the same setup. -/
theorem State.sameBlock.sameSetup {s t : State} {w : Work} (h : ({ s with work := w } : State).sameBlock t) :
    s.sameSetup t := by
  obtain ⟨hc, hp, hf, -, -, -, hpin⟩ := h
  exact ⟨hc, hp, hf, hpin⟩

/-! ### Inside a frame -/

/-- A call before the last one that succeeds leaves the setup as it is, whichever of the nineteen frames it is in. -/
theorem State.AtCall.step_inside {s : State} {req i : Instr} {beat : Nat} {rest : List Task} {call next : Call}
    {given : List Byte} {more : List Scripted} (h : s.AtCall req i beat rest call) (hrun : s.runs)
    (hr : s.env.script = .reply given :: more) (hn : (frameCalls s.config s.width i)[beat + 1]? = some next) :
    ∃ t, step s = .next t ∧ s.sameSetup t ∧ t.env.script = more ∧ t.AtCall req i (beat + 1) rest next := by
  obtain ⟨bytes, ha⟩ := h.answer_reply hrun hr
  obtain ⟨u, hu, he⟩ := h.exec_more ha (List.getElem?_eq_some_iff.mp hn).1
  have hsame : s.sameSetup { u with seq := .running ⟨req, i, beat + 1, rest⟩ } :=
    ⟨hu.kept.config, hu.kept.probed, hu.kept.cfg, hu.kept.resetPin⟩
  refine ⟨_, (step_running hrun h.seq).trans he, hsame, ?_, rfl, h.frame, fun ha => ?_, ?_⟩
  · show u.env.script = more
    rw [hu.kept.env, State.called_env, State.envAfter_script, hr, List.tail_cons]
  · rw [hsame.cfg]
    exact h.cfg ha
  · rw [hsame.frameCalls, hn]

/-- So do any number of them. -/
theorem State.AtCall.run_inside {req i : Instr} {rest : List Task} (given : List (List Byte)) {s : State} {beat : Nat}
    {call : Call} {more : List Scripted} (h : s.AtCall req i beat rest call) (hrun : s.runs)
    (hr : s.env.script = given.map .reply ++ more)
    (hb : beat + given.length < (frameCalls s.config s.width i).length) :
    ∃ t, run given.length s = .next t ∧ s.sameSetup t := by
  induction given generalizing s beat call with
  | nil => exact ⟨s, rfl, .refl s⟩
  | cons g gs ih =>
    rw [List.length_cons] at hb
    obtain ⟨t, ht, hsame, hscript, hat⟩ := h.step_inside hrun hr (List.getElem?_eq_getElem (by omega))
    obtain ⟨u, hu, hsame'⟩ := ih hat (hsame.runs hrun) hscript (by rw [hsame.frameCalls]; omega)
    exact ⟨u, (run_succ_of_step _ ht).trans hu, hsame.trans hsame'⟩

/-! ### A request, frame by frame

A request is followed from its acceptance on: where it stands after so many steps (`Stands`), what the next frame does
to that, and, in the obligations, which lines come then. -/

/-- `n` steps from `s` lead to the lines `ts` of the request `req`, to be done in `u`: the frames `sent` have been sent,
the setup is that of `s`, and the answers to come are `answers`. -/
structure Stands (s : State) (n : Nat) (req : Instr) (sent : List Instr) (answers : List Scripted) (ts : List Task)
    (u : State) : Prop where
  steps : run n s = settle req ts u
  setup : s.sameSetup u
  calls : callsOf u.trace = callsOf s.trace ++ framesCalls s.config s.width sent
  hears : u.hears answers

section
variable {s u : State} {n : Nat} {req i : Instr} {sent : List Instr} {more : List Scripted} {ts : List Task}

/-- Lines that make no call lead from one standpoint to another. -/
theorem Stands.lines {answers : List Scripted} {us : List Task} (h : Stands s n req sent answers ts u)
    (he : settle req ts u = settle req us u) : Stands s n req sent answers us u :=
  ⟨h.steps.trans he, h.setup, h.calls, h.hears⟩

/-- What a whole frame gives, whichever it is. -/
theorem Stands.frame {v : State} {a : List Scripted} (h : Stands s n req sent (a ++ more) (.send i :: ts) u)
    (hrun : run a.length (u.sending req i ts) = settle req ts v) (hsetup : u.sameSetup v)
    (hscript : v.env.script = u.env.script.drop a.length)
    (hcalls : callsOf v.trace = callsOf u.trace ++ frameCalls u.config u.width i) :
    Stands s (n + a.length) req (sent ++ [i]) more ts v where
  steps := (run_add_of_run _ h.steps).trans hrun
  setup := h.setup.trans hsetup
  calls := by
    rw [hcalls, h.calls, h.setup.frameCalls]
    simp [framesCalls]
  hears := by
    rw [State.hears, hscript]
    exact (State.hears_append h.hears).2

/-- At a frame without an address nothing more is needed for its calls to be made. -/
theorem Stands.atFrame {answers : List Scripted} (h : Stands s n req sent answers (.send i :: ts) u) (hrun : s.runs)
    (hi : i.isHost = false) (ha : i.addressed = false) : (u.sending req i ts).atFrame req i ts := by
  obtain ⟨hp, hc⟩ := h.setup.runs hrun
  exact ⟨hp, hc, rfl, hi, by simp [ha]⟩

theorem isCommand_wren : IsCommand .wren := ⟨rfl, nofun, nofun, nofun⟩

theorem isCommand_wrsr (d : Byte) : IsCommand (.wrsr d) := ⟨rfl, nofun, nofun, nofun⟩

/-- A command frame. -/
theorem Stands.command (h : Stands s n req sent (silent ++ more) (.send i :: ts) u) (hrun : s.runs)
    (hi : IsCommand i) (ha : i.addressed = false) : ∃ v, Stands s (n + 3) req (sent ++ [i]) more ts v := by
  obtain ⟨v, hv, hblock, hscript, hcalls, -⟩ := commandFramesRunWhole (u.sending req i ts) req i ts
    (h.atFrame hrun hi.frame ha) hi.rdid hi.rdsr hi.read (State.hears_append h.hears).1
  exact ⟨v, h.frame hv (State.sameBlock.sameSetup (w := u.work) hblock) hscript hcalls⟩

/-- A status read brings its byte to `SR`. -/
theorem Stands.rdsr {b : Byte} (h : Stands s n req sent (reading [b] ++ more) (.send .rdsr :: ts) u) (hrun : s.runs) :
    ∃ v, Stands s (n + 4) req (sent ++ [.rdsr]) more ts v ∧ v.work.sr = b := by
  obtain ⟨v, hv, hblock, hscript, hcalls⟩ := registerReadsRunWhole.1 (u.sending req .rdsr ts) req ts b
    (h.atFrame hrun rfl rfl) (State.hears_append h.hears).1
  have hsetup := hblock.sameSetup
  obtain ⟨-, -, -, hwork, -⟩ := hblock
  exact ⟨v, h.frame hv hsetup hscript hcalls, by rw [hwork]⟩

/-- `RDID` brings its five bytes to `ID`. -/
theorem Stands.rdid {b0 b1 b2 b3 b4 : Byte}
    (h : Stands s n req sent (reading [b0, b1, b2, b3, b4] ++ more) (.send .rdid :: ts) u) (hrun : s.runs) :
    ∃ v, Stands s (n + 4) req (sent ++ [.rdid]) more ts v ∧ v.work.id = ⟨b0, b1, b2, b3, b4⟩ ∧ v.resp = u.resp := by
  obtain ⟨v, hv, hblock, -, -, hscript, hcalls⟩ := registerReadsRunWhole.2 (u.sending req .rdid ts) req ts b0 b1 b2 b3
    b4 (h.atFrame hrun rfl rfl) (State.hears_append h.hears).1
  have hsetup := hblock.sameSetup
  obtain ⟨-, -, -, hwork, hresp, -⟩ := hblock
  exact ⟨v, h.frame hv hsetup hscript hcalls, by rw [hwork], hresp⟩

/-- Inside a frame the setup is still that of `s`. -/
theorem Stands.inside {given : List (List Byte)}
    (h : Stands s n req sent (given.map .reply ++ more) (.send i :: ts) u) (hrun : s.runs) (hi : i.isHost = false)
    (ha : i.addressed = false) (hlen : given.length < (frameCalls s.config s.width i).length) :
    ∃ t, run (n + given.length) s = .next t ∧ s.sameSetup t := by
  have hcalls : frameCalls u.config u.width i = frameCalls s.config s.width i := h.setup.frameCalls i
  have hat : (u.sending req i ts).AtCall req i 0 ts (frameCalls s.config s.width i)[0] :=
    ⟨rfl, hi, by simp [ha], (congrArg (·[0]?) hcalls).trans (List.getElem?_eq_getElem _)⟩
  have hscript : u.env.script = given.map .reply ++ u.env.script.drop given.length := by
    have hfirst := (State.hears_append h.hears).1
    rw [State.hears, List.length_map] at hfirst
    rw [← hfirst, List.take_append_drop]
  obtain ⟨t, ht, hsame⟩ := hat.run_inside given (h.setup.runs hrun) hscript
    (by rw [Nat.zero_add]; exact hcalls ▸ hlen)
  exact ⟨t, (run_add_of_run _ h.steps).trans ht, h.setup.trans hsame⟩

end

end Sys2Proof.Machine

namespace Sys2Proof.Machine

/-! ### The lines of `PROBE` (R120) -/

/-- All zeros or all ones in the three JEDEC bytes is no chip, and nothing else is (R123). -/
theorem noChip_bytes (b0 b1 b2 : Byte) :
    noChip (b0 ++ b1 ++ b2) = true ↔ b0 = 0 ∧ b1 = 0 ∧ b2 = 0 ∨ b0 = 0xFF ∧ b1 = 0xFF ∧ b2 = 0xFF := by
  have h0 := b0.isLt
  have h1 := b1.isLt
  have h2 := b2.isLt
  have hval : (b0 ++ b1 ++ b2).toNat = (b0.toNat * 256 + b1.toNat) * 256 + b2.toNat := by
    rw [toNat_append_byte, toNat_append_byte]
  simp only [noChip, Bool.or_eq_true, beq_iff_eq, ← BitVec.toNat_inj, hval, BitVec.reduceToNat]
  omega

/-- The lookup gives the record it names (R124). -/
theorem identityTable_of_lookup {c : Config} {j : JedecId} {e : ExtId} {i : Nat} {d : Descriptor}
    (h : lookup c j e = some (i, d)) : c.identityTable[i]? = some d :=
  (lookupFrom_some h).2

/-- The commit of a record of the table ends the request (R129, R130). -/
theorem settle_commit {req : Instr} {u : State} {i : Nat} {d : Descriptor} (h : u.config.identityTable[i]? = some d) :
    settle req [.commit i] u = .next ((u.commit i d).returnOk req) := by
  simp [settle, react, commitLine, h]

section
variable {u : State}

/-- A blank identification ends the `PROBE` before any lookup (R123). -/
theorem settle_identify_blank (hno : noChip u.work.id.jedec = true) :
    settle .probe [.identify] u = .next (u.raise .probe .noDevice) := by
  simp [settle, react, identify, hno]

variable (hno : noChip u.work.id.jedec = false)
include hno

/-- So does one that is not in the table (R124). -/
theorem settle_identify_miss (hl : lookup u.config u.work.id.jedec u.work.id.ext = none) :
    settle .probe [.identify] u = .next (u.raise .probe .unrecognizedDevice) := by
  simp [settle, react, identify, hno, hl]

variable {i : Nat} {d : Descriptor} (hl : lookup u.config u.work.id.jedec u.work.id.ext = some (i, d))
include hl

/-- The full unlock (R127). -/
theorem settle_identify_unlock (hd : d.srUnlock = true) :
    settle .probe [.identify] u = settle .probe [.send .wren, .send (.wrsr 0x00), .commit i] u := by
  simp [settle, react, identify, hno, hl, hd]

/-- Exposed block-protection bits are read first (R128). -/
theorem settle_identify_exposed (hd : d.srUnlock = false) (hx : exposesBp d = true) :
    settle .probe [.identify] u = settle .probe [.send .rdsr, .clearBp (bpMask u.config d), .commit i] u := by
  simp [settle, react, identify, hno, hl, hd, hx]

/-- With nothing to unlock the commit comes at once (R129). -/
theorem settle_identify_plain (hd : d.srUnlock = false) (hx : exposesBp d = false) :
    settle .probe [.identify] u = settle .probe [.commit i] u := by
  rw [settle_commit (identityTable_of_lookup hl)]
  simp [settle, react, identify, hno, hl, hd, hx]

end

/-- After an identification that is not blank the block has raised `UnrecognizedDevice`, goes on without a response, or
has returned `Ok`; none of these is `NoDevice` (R123). -/
theorem settle_identify_other {u : State} (hno : noChip u.work.id.jedec = false) (hresp : u.resp = none) :
    ∃ t, settle .probe [.identify] u = .next t ∧ ∀ r, t.resp = some r → r.status ≠ .noDevice := by
  cases hl : lookup u.config u.work.id.jedec u.work.id.ext with
  | none => exact ⟨_, settle_identify_miss hno hl, by simp⟩
  | some p =>
    obtain ⟨i, d⟩ := p
    cases hd : d.srUnlock with
    | true => exact ⟨_, settle_identify_unlock hno hl hd, by simp [hresp]⟩
    | false =>
      cases hx : exposesBp d with
      | true => exact ⟨_, settle_identify_exposed hno hl hd hx, by simp [hresp]⟩
      | false =>
        have hc := settle_commit (req := .probe) (identityTable_of_lookup hl)
        exact ⟨_, (settle_identify_plain hno hl hd hx).trans hc, by simp⟩

section
variable {req : Instr} {ts : List Task} {u : State}

/-- No masked bit set: nothing is written (R128). -/
theorem settle_clearBp_clear {sr mask : Byte} (hsr : u.work.sr = sr) (h : sr &&& mask = 0) :
    settle req (.clearBp mask :: ts) u = settle req ts u := by
  simp [settle, react, clearBp, hsr, h]

/-- A masked bit set: the byte read is written back with the mask cleared, and the device polled (R128). -/
theorem settle_clearBp_set {sr mask : Byte} (hsr : u.work.sr = sr) (h : sr &&& mask ≠ 0) :
    settle req (.clearBp mask :: ts) u =
      settle req (.send .wren :: .send (.wrsr (sr &&& ~~~mask)) :: .send .rdsr :: .pollTest 0 :: ts) u := by
  subst hsr
  have hr : clearBp u mask = .send u .wren [.send (.wrsr (u.work.sr &&& ~~~mask)), .send .rdsr, .pollTest 0] := if_neg h
  rw [settle, react, hr]
  rfl

/-- A status byte with bit 0 clear ends a poll (R155). -/
theorem settle_pollTest_ready {b : Byte} {k : Nat} (hc : u.config.fixed = FixedNumbers.source) (hsr : u.work.sr = b)
    (h : b.toNat % 2 = 0) : settle req (.pollTest k :: ts) u = settle req ts u := by
  have hbit : busy u.config b = false := by
    simp [busy, hc, FixedNumbers.source, BitVec.getLsbD, Nat.testBit_zero, h]
  simp [settle, react, pollTest, hsr, hbit]

end

/-- In `IDLE` an unprobed block takes a `PROBE` and stands before `RDID` (R120, R133). -/
theorem exec_probe_unprobed {s : State} (hs : s.seq = .idle) (hp : s.probed = false) :
    exec .probe s = settle .probe [.send .rdid, .identify] s.accepted := by
  show execProbe s = _
  rw [execProbe, accept_idle hs, if_neg (by simp [hp])]

/-- A probed one answers at once (R132). -/
theorem exec_probe_probed {s : State} (hs : s.seq = .idle) (hp : s.probed = true) :
    exec .probe s = .next (s.accepted.returnOk .probe) := by
  show execProbe s = _
  rw [execProbe, accept_idle hs, if_pos (by simp [hp])]

/-- Five steps after a `PROBE` is presented to an unprobed block the identification is in `ID`, and the lines after
`RDID` are to be done. -/
theorem probe_identifies {s : State} {b0 b1 b2 b3 b4 : Byte} {more : List Scripted} (hpres : s.presents .probe)
    (hp : s.probed = false) (hears : s.hears (reading [b0, b1, b2, b3, b4] ++ more)) :
    ∃ u, Stands s 5 .probe [.rdid] more [.identify] u ∧ u.work.id.jedec = b0 ++ b1 ++ b2 ∧
      u.work.id.ext = b3 ++ b4 ∧ u.resp = none := by
  obtain ⟨hpin, hc, hs, q, rest, hh, hd⟩ := hpres
  let s0 : State := { s with host := rest }
  have start : Stands s 1 .probe [] (reading [b0, b1, b2, b3, b4] ++ more) [.send .rdid, .identify] s0.accepted :=
    ⟨by rw [run_one, step_presented ⟨hpin, hc⟩ hs hh hd, exec_probe_unprobed (s := s0) hs hp], .refl s,
      by simp [framesCalls, s0], hears⟩
  obtain ⟨u, hu, hid, hresp⟩ := start.rdid ⟨hpin, hc⟩
  exact ⟨u, hu, by rw [hid]; rfl, by rw [hid]; rfl, hresp⟩

/-- So they are when the identification is found in the table. -/
theorem probe_finds {s : State} {b0 b1 b2 b3 b4 : Byte} {more : List Scripted} {i : Nat} {d : Descriptor}
    (hpres : s.presents .probe) (hp : s.probed = false) (hears : s.hears (reading [b0, b1, b2, b3, b4] ++ more))
    (hno : noChip (b0 ++ b1 ++ b2) = false) (hl : lookup s.config (b0 ++ b1 ++ b2) (b3 ++ b4) = some (i, d)) :
    ∃ u, Stands s 5 .probe [.rdid] more [.identify] u ∧ noChip u.work.id.jedec = false ∧
      lookup u.config u.work.id.jedec u.work.id.ext = some (i, d) := by
  obtain ⟨u, h, hj, he, -⟩ := probe_identifies hpres hp hears
  exact ⟨u, h, hj ▸ hno, by rw [h.setup.config, hj, he, hl]⟩

section
variable {s u : State} {n i : Nat} {sent : List Instr} {more : List Scripted} {d : Descriptor}
  (h : Stands s n .probe sent more [.commit i] u) (hd : s.config.identityTable[i]? = some d)
include h hd

/-- A `PROBE` that stands before the commit ends with `Ok`, and has `PROBED` and `CFG` set (R129); the report stands
directly before the response (R130). -/
theorem Stands.commit_trace :
    ∃ t z, run n s = .next t ∧ t.seq = .idle ∧ t.resp = some ⟨.ok, z, none⟩ ∧ t.probed = true ∧
      t.cfg = some (derive s.config i d) ∧
      t.trace = u.trace ++ [.report d.name d.capacity (deriveEraseGran s.config d), .response ⟨.ok, z, none⟩] := by
  have hc := h.setup.config
  refine ⟨_, _, h.steps.trans (settle_commit (hc ▸ hd)), rfl, rfl, rfl, ?_, ?_⟩
  · simp [hc]
  · simp [hc, okOut]

theorem Stands.commit :
    ∃ t z, run n s = .next t ∧ t.seq = .idle ∧ t.resp = some ⟨.ok, z, none⟩ ∧ t.probed = true ∧
      t.cfg = some (derive s.config i d) ∧
      callsOf t.trace = callsOf s.trace ++ framesCalls s.config s.width sent := by
  obtain ⟨t, z, ht, hidle, hresp, hprobed, hcfg, htrace⟩ := h.commit_trace hd
  exact ⟨t, z, ht, hidle, hresp, hprobed, hcfg, by simp [htrace, h.calls]⟩

end

/-! ### The obligations about `PROBE` -/

/-- Settles O32: the lines after `RDID` on a blank identification, and on any other (`settle_identify_other`). -/
theorem blankIdentificationIsNoDevice : Obligations.BlankIdentificationIsNoDevice := by
  intro s b0 b1 b2 b3 b4 hpres hp hears
  obtain ⟨u, h, hj, -, hresp⟩ := probe_identifies (more := []) hpres hp (by simpa using hears)
  have hcalls : callsOf u.trace = callsOf s.trace ++ frameCalls s.config s.width .rdid := by
    simpa [framesCalls] using h.calls
  have hblank := noChip_bytes b0 b1 b2
  rw [← hj] at hblank
  cases hno : noChip u.work.id.jedec with
  | true =>
    refine ⟨_, h.steps.trans (settle_identify_blank hno), fun _ => ⟨rfl, h.setup, ⟨_, rfl⟩, by simpa using hcalls⟩,
      fun h0 h1 => ?_⟩
    exact absurd (hblank.mp hno) (not_or.mpr ⟨h0, h1⟩)
  | false =>
    obtain ⟨t, ht, hst⟩ := settle_identify_other hno hresp
    exact ⟨t, h.steps.trans ht, fun hb => absurd (hblank.mpr hb) (by simp [hno]), fun _ _ => hst⟩

/-- `Lookup` from index `k` on answers the place of the first record that matches (R124). -/
theorem lookupFrom_eq_some {j : JedecId} {e : ExtId} {k n : Nat} {l : List Descriptor} {d : Descriptor} :
    lookupFrom j e k l = some (k + n, d) ↔ l[n]? = some d ∧ (d.jedecId = j ∧ d.extId = e) ∧
      ∀ m < n, ∀ d', l[m]? = some d' → ¬(d'.jedecId = j ∧ d'.extId = e) := by
  induction l generalizing k n with
  | nil => simp [lookupFrom]
  | cons x xs ih =>
    by_cases hx : x.jedecId = j ∧ x.extId = e
    · rw [lookupFrom, if_pos hx]
      cases n with
      | zero =>
        simp only [Nat.add_zero, Option.some.injEq, Prod.mk.injEq, true_and, List.getElem?_cons_zero]
        exact ⟨fun h => ⟨h, h ▸ hx, nofun⟩, fun h => h.1⟩
      | succ n =>
        refine ⟨fun h => ?_, fun ⟨_, _, hfirst⟩ => absurd hx (hfirst 0 (Nat.succ_pos n) x rfl)⟩
        simp at h
    · rw [lookupFrom, if_neg hx]
      cases n with
      | zero =>
        refine ⟨fun h => absurd (lookupFrom_some h).1 (by omega), fun ⟨h, hd, _⟩ => ?_⟩
        cases h
        exact absurd hd hx
      | succ n =>
        rw [show k + (n + 1) = k + 1 + n by omega, ih, Nat.forall_lt_succ_left]
        simp only [List.getElem?_cons_succ, List.getElem?_cons_zero, Option.some.injEq, forall_eq', hx,
          not_false_eq_true, true_and]

/-- It answers none exactly when no record matches (R124). -/
theorem lookupFrom_eq_none {j : JedecId} {e : ExtId} {k : Nat} {l : List Descriptor} :
    lookupFrom j e k l = none ↔ ∀ d ∈ l, ¬(d.jedecId = j ∧ d.extId = e) := by
  induction l generalizing k with
  | nil => simp [lookupFrom]
  | cons x xs ih =>
    by_cases hx : x.jedecId = j ∧ x.extId = e
    · simp [lookupFrom, hx]
    · rw [lookupFrom, if_neg hx, ih, List.forall_mem_cons, and_iff_right hx]

/-- Settles O33: the lookup by induction on the table, and the miss from the lines after `RDID`. -/
theorem lookupIsExactAndAMissIsUnrecognized : Obligations.LookupIsExactAndAMissIsUnrecognized := by
  refine ⟨fun c j e => ⟨fun i d => ?_, lookupFrom_eq_none⟩, fun s b0 b1 b2 b3 b4 hpres hp hears hno hl => ?_⟩
  · have h := lookupFrom_eq_some (j := j) (e := e) (k := 0) (n := i) (l := c.identityTable) (d := d)
    rw [Nat.zero_add, and_assoc] at h
    exact h
  · obtain ⟨u, h, hj, he, -⟩ := probe_identifies (more := []) hpres hp (by simpa using hears)
    rw [← hj] at hno hl
    rw [← he, ← h.setup.config] at hl
    refine ⟨_, _, h.steps.trans (settle_identify_miss hno hl), rfl, rfl, h.setup, ?_⟩
    simpa [framesCalls] using h.calls

/-- Where some of a history is known to be old, the calls that are not in the old part are new ones. -/
theorem exists_new_events {old mid after new : List Event} {calls : List Call} (h : mid ++ after = old ++ new)
    (hc : callsOf mid = callsOf old ++ calls) (hne : calls ≠ []) :
    ∃ before, mid = old ++ before ∧ callsOf before = calls := by
  rcases List.append_eq_append_iff.mp h with ⟨x, rfl, -⟩ | ⟨x, rfl, -⟩
  · simp [hne] at hc
  · exact ⟨x, rfl, by simpa using hc⟩

/-- Settles O34: `RDID`, the two frames of the unlock and the commit; before the last call of the last frame the setup
is still the old one. -/
theorem probeUnlocksWithoutAPoll : Obligations.ProbeUnlocksWithoutAPoll := by
  intro s b0 b1 b2 b3 b4 i d hpres hp hno hl hd hears
  have hrun := hpres.runs
  have hdesc := identityTable_of_lookup hl
  obtain ⟨u, h5, hno', hl'⟩ := probe_finds (more := silent ++ (silent ++ [])) hpres hp (by simpa using hears) hno hl
  obtain ⟨u8, h8⟩ := (h5.lines (settle_identify_unlock hno' hl' hd)).command hrun isCommand_wren rfl
  obtain ⟨t10, ht10, -, hsame, hcfg10, -⟩ :=
    h8.inside (given := [[], []]) (more := [.reply []]) hrun rfl rfl (by simp [frameCalls, encode, rxCalls])
  obtain ⟨u11, h11⟩ := h8.command hrun (isCommand_wrsr _) rfl
  obtain ⟨t, z, ht, hidle, hresp, hprobed, hcfg, htrace⟩ := h11.commit_trace hdesc
  obtain ⟨new, hnew⟩ := run_trace ht
  obtain ⟨before, hbefore, hcalls⟩ := exists_new_events (htrace.symm.trans hnew) h11.calls
    (by simp [framesCalls, frameCalls, encode])
  exact ⟨⟨t10, ht10, hsame.trans hp, hcfg10⟩, t, z, before, ht, hidle, hresp, hprobed, hcfg,
    by rw [htrace, hbefore], hcalls⟩

theorem exposesBp_iff {d : Descriptor} : exposesBp d = true ↔ d.bp02 = true ∨ d.bp3 = true ∨ d.bp4 = true := by
  simp [exposesBp, or_assoc]

/-- Settles O35: after `RDID` the commit, or a status read; after that the commit, or the two frames of the clearing
and a poll. -/
theorem probeClearsExposedProtection : Obligations.ProbeClearsExposedProtection := by
  refine ⟨fun c d hc => by rw [bpMask, hc]; rfl, fun s b0 b1 b2 b3 b4 sr b i d hpres hp hno hl hd => ?_⟩
  have hrun := hpres.runs
  have hdesc := identityTable_of_lookup hl
  refine ⟨fun h02 h3 h4 hears => ?_, fun hx hsr hears => ?_, fun hx hsr hb hears => ?_⟩
  · obtain ⟨u, h5, hno', hl'⟩ := probe_finds (more := []) hpres hp (by simpa using hears) hno hl
    exact (h5.lines (settle_identify_plain hno' hl' hd (by simp [exposesBp, h02, h3, h4]))).commit hdesc
  · obtain ⟨u, h5, hno', hl'⟩ := probe_finds (more := reading [sr] ++ []) hpres hp (by simpa using hears) hno hl
    obtain ⟨v, h9, hv⟩ := (h5.lines (settle_identify_exposed hno' hl' hd (exposesBp_iff.mpr hx))).rdsr hrun
    rw [h5.setup.config] at h9
    exact (h9.lines (settle_clearBp_clear hv hsr)).commit hdesc
  · obtain ⟨u, h5, hno', hl'⟩ := probe_finds (more := reading [sr] ++ (silent ++ (silent ++ (reading [b] ++ []))))
      hpres hp (by simpa using hears) hno hl
    obtain ⟨v, h9, hv⟩ := (h5.lines (settle_identify_exposed hno' hl' hd (exposesBp_iff.mpr hx))).rdsr hrun
    rw [h5.setup.config] at h9
    obtain ⟨_, h12⟩ := (h9.lines (settle_clearBp_set hv hsr)).command hrun isCommand_wren rfl
    obtain ⟨_, h15⟩ := h12.command hrun (isCommand_wrsr _) rfl
    obtain ⟨t, ht, -, hsame, hcfg, -⟩ :=
      h15.inside (given := [[], [], [b]]) (more := [.reply []]) hrun rfl rfl (by simp [frameCalls, encode, rxCalls])
    obtain ⟨w, h19, hw⟩ := h15.rdsr hrun
    have hfix : w.config.fixed = FixedNumbers.source := by rw [h19.setup.config, configRuns_fixed hrun.2]
    exact ⟨⟨t, ht, hsame.trans hp, hcfg⟩, (h19.lines (settle_pollTest_ready hfix hw hb)).commit hdesc⟩

/-! ### The rest of the family -/

/-- Settles O30: the acceptance of a `PROBE` by a probed block ends it. -/
theorem secondProbeDoesNothing : Obligations.SecondProbeDoesNothing := by
  intro s hs hp
  exact ⟨_, _, exec_probe_probed hs hp, rfl, rfl, rfl, ⟨rfl, rfl, rfl, rfl⟩, rfl, rfl, rfl⟩

/-- Settles O31: the first line of an unprobed block's `PROBE` is the `RDID` frame. -/
theorem probeStartsWithRdid : Obligations.ProbeStartsWithRdid := by
  intro s hs hp
  exact ⟨_, _, exec_probe_unprobed hs hp, rfl, rfl, ⟨rfl, rfl, rfl, rfl⟩, rfl, rfl, rfl, rfl⟩

/-- In the invariant `CFG` is what `Derive` gives for the descriptor it refers to (R22). -/
theorem cfg_eq_derive {s : State} {f : FlashConfig} {d : Descriptor} (h : s.inv = true)
    (hd : s.probedDevice = some (f, d)) : f = derive s.config f.desc d := by
  obtain ⟨hc, -, -⟩ := State.inv_iff.mp h
  cases hf : s.cfg with
  | none => simp [State.probedDevice, hf] at hd
  | some g =>
    obtain ⟨g, d', -, -, hg, hpd⟩ := cfgOk_probed hc (by rw [← cfg_isSome_of_inv h, hf]; rfl)
    cases hpd.symm.trans hd
    exact hg

/-- The width is 4 above the threshold only (R125). -/
theorem deriveWidth_eq_four {c : Config} {d : Descriptor} :
    deriveWidth c d = .four ↔ c.fixed.addr4Threshold < d.capacity.toNat := by
  rw [deriveWidth, ite_eq_left_iff]
  simp

/-- Settles O36: `CFG` is `Derive` of the descriptor, whose lines are those of R125 and R126. -/
theorem configFollowsTheDescriptor : Obligations.ConfigFollowsTheDescriptor := by
  intro s f d hinv hfix hd _
  have hf := cfg_eq_derive hinv hd
  have hop : f.eraseOp = deriveEraseOp s.config d := by rw [hf]; rfl
  have hgran : f.eraseGran = deriveEraseGran s.config d := by rw [hf]; rfl
  have hwidth : f.addrWidth = deriveWidth s.config d := by rw [hf]; rfl
  have haai : f.aai = d.aai := by rw [hf]; rfl
  rw [hop, hgran, hwidth, deriveWidth_eq_four, deriveEraseOp, deriveEraseGran, hfix]
  refine ⟨Iff.rfl, haai, ?_, ?_, ?_, ?_, ?_⟩
  all_goals  -- each line of R126, under the flags that select it
    intros
    simp [FixedNumbers.source, *]

/-- Settles O37: the acceptance of a `GETSIZE` ends it, with the capacity or with `NotProbed`. -/
theorem getsizeAnswersTheCapacity : Obligations.GetsizeAnswersTheCapacity := by
  intro s hs
  have hexec : exec .getsize s =
      withProbed .getsize s.accepted fun _ d => .next (s.accepted.respond .ok (some d.capacity) none) := by
    show execGetsize s = _
    rw [execGetsize, accept_idle hs]
  refine ⟨fun f d hp hd => ?_, fun hp => ?_⟩
  · exact ⟨_, hexec.trans (withProbed_yes hp hd), rfl, rfl, rfl, ⟨rfl, rfl, rfl, rfl⟩, rfl, rfl, rfl⟩
  · exact ⟨_, _, hexec.trans (withProbed_no hp), rfl, rfl, rfl, ⟨rfl, rfl, rfl, rfl⟩, rfl⟩

end Sys2Proof.Machine

namespace Sys2Proof.Machine

/-! ### The lines of `PollUntilReady` (R155, R156) -/

/-- The busy bit of the source's block is bit 0 (R8 `BUSY_BIT`): the status byte is odd. -/
theorem busy_iff {c : Config} (hc : c.fixed = FixedNumbers.source) (b : Byte) :
    busy c b = true ↔ b.toNat % 2 = 1 := by
  simp [busy, hc, FixedNumbers.source, BitVec.getLsbD, Nat.testBit_zero]

theorem pollExhausted_iff {limit : Option Nat} {k : Nat} :
    pollExhausted limit k = true ↔ ∃ l, limit = some l ∧ l ≤ k := by
  cases limit <;> simp [pollExhausted]

theorem pollExhausted_eq_false_iff {limit : Option Nat} {k : Nat} :
    pollExhausted limit k = false ↔ ∀ l, limit = some l → k < l := by
  cases limit <;> simp [pollExhausted]

section
variable {req : Instr} {ts : List Task} {u : State} {b : Byte} {k : Nat}
  (hc : u.config.fixed = FixedNumbers.source) (hsr : u.work.sr = b) (hb : b.toNat % 2 = 1)
include hc hsr hb

/-- A busy answer below the limit is counted, and the status is read again (R155). -/
theorem settle_pollTest_again (hl : ∀ l, u.config.pollLimit = some l → k + 1 < l) :
    settle req (.pollTest k :: ts) u = settle req (.send .rdsr :: .pollTest (k + 1) :: ts) u := by
  simp [settle, react, pollTest, hsr, (busy_iff hc b).mpr hb, pollExhausted_eq_false_iff.mpr hl]

/-- A busy answer that reaches the limit ends the request (R156). -/
theorem settle_pollTest_timeout (hl : ∃ l, u.config.pollLimit = some l ∧ l ≤ k + 1) :
    settle req (.pollTest k :: ts) u = .next (u.raise req .timeout) := by
  simp [settle, react, pollTest, hsr, (busy_iff hc b).mpr hb, pollExhausted_iff.mpr hl]

end

/-! ### What a poll adds to the history -/

/-- From `s` to `t` no response was produced. -/
def State.AnswersNothing (s t : State) : Prop := ∃ more, t.trace = s.trace ++ more ∧ ∀ r, .response r ∉ more

theorem State.AnswersNothing.refl (s : State) : s.AnswersNothing s := ⟨[], by simp, by simp⟩

theorem State.AnswersNothing.trans {s t u : State} (h : s.AnswersNothing t) (k : t.AnswersNothing u) :
    s.AnswersNothing u := by
  obtain ⟨m, hm, hno⟩ := h
  obtain ⟨m', hm', hno'⟩ := k
  exact ⟨m ++ m', by rw [hm', hm, List.append_assoc], by simp [hno, hno']⟩

/-- A call is no response. -/
theorem State.Made.answersNothing {s t : State} {call : Call} (h : s.Made call t) : s.AnswersNothing t :=
  ⟨_, h.trace, by simp⟩

/-- The receipt of bytes adds nothing to the history. -/
theorem keepRx_trace (c : Call) (bytes : List Byte) (s : State) : (keepRx c bytes s).trace = s.trace := by
  cases c <;> rfl

/-- It leaves the setup. -/
theorem keepRx_sameSetup (c : Call) (bytes : List Byte) (s : State) : s.sameSetup (keepRx c bytes s) := by
  cases c <;> exact .refl s

/-- A call inside `RDSR` answers nothing; the third one brings the status byte. -/
theorem rdsr_more {s : State} {req : Instr} {beat : Nat} {rest : List Task} {given : List Byte}
    {more : List Scripted} (hrun : s.runs) (hs : s.seq = .running ⟨req, .rdsr, beat, rest⟩)
    (hr : s.env.script = .reply given :: more) (hb : beat < 3) :
    ∃ t, step s = .next t ∧ s.sameSetup t ∧ t.seq = .running ⟨req, .rdsr, beat + 1, rest⟩ ∧ t.env.script = more ∧
      s.AnswersNothing t ∧ (beat = 2 → t.work.rx = completeBytes s.env.draws 1 given) := by
  obtain ⟨t, ht, hmade, hseq⟩ := regRead_more (exec_rdsr s) hrun hs hr rfl hb
  refine ⟨t, ht, (keepRx_sameSetup ..).trans (State.sameBlock.sameSetup hmade.block), hseq, ?_, ?_, ?_⟩
  · rw [hmade.script, (keepRx_kept ..).env, hr, List.tail_cons]
  · obtain ⟨more, hm, hno⟩ := hmade.answersNothing
    exact ⟨more, hm.trans (by rw [keepRx_trace]), hno⟩
  · rintro rfl
    obtain ⟨-, -, -, hwork, -⟩ := hmade.block
    rw [hwork]
    rfl

/-- The four calls of `RDSR` answer nothing; the next lines run with its byte in `SR`. -/
theorem rdsr_answersNothing {s : State} {req : Instr} {rest : List Task} {b : Byte} (hrun : s.runs)
    (hs : s.seq = .running ⟨req, .rdsr, 0, rest⟩) (hears : s.hears (reading [b])) :
    ∃ t, run 4 s = settle req rest t ∧ s.sameSetup t ∧ t.work.sr = b ∧ s.AnswersNothing t := by
  have hscript : s.env.script = reading [b] ++ s.env.script.drop 4 := by
    rw [← show s.env.script.take 4 = reading [b] from hears, List.take_append_drop]
  obtain ⟨s1, hs1, u1, q1, e1, n1, -⟩ := rdsr_more hrun hs hscript (by decide)
  obtain ⟨s2, hs2, u2, q2, e2, n2, -⟩ := rdsr_more (u1.runs hrun) q1 e1 (by decide)
  have hsetup2 := u1.trans u2
  obtain ⟨s3, hs3, u3, q3, e3, n3, hrx⟩ := rdsr_more (hsetup2.runs hrun) q2 e2 (by decide)
  have hsetup3 := hsetup2.trans u3
  obtain ⟨s4, hs4, hmade⟩ := regRead_last (exec_rdsr s3) (hsetup3.runs hrun) q3 e3 rfl
  have hrx4 : s4.work.rx = [b] := by
    obtain ⟨-, -, -, hwork, -⟩ := hmade.block
    rw [hwork, hrx rfl]
    exact completeBytes_length_self _ [b]
  have u4 : s3.sameSetup s4 := State.sameBlock.sameSetup hmade.block
  refine ⟨s4.takeSr, ?_, (hsetup3.trans u4 : s.sameSetup s4), by simp [State.takeSr, hrx4],
    n1.trans (n2.trans (n3.trans hmade.answersNothing))⟩
  rw [run_succ_of_step 3 hs1, run_succ_of_step 2 hs2, run_succ_of_step 1 hs3, run_one, hs4]

/-! ### A poll, status read by status read -/

section
variable {s u : State} {n k : Nat} {req : Instr} {sent : List Instr} {more : List Scripted} {ts : List Task}

/-- A busy answer below the limit leads to the next status read of the same poll. -/
theorem Stands.busy {b : Byte} (h : Stands s n req sent (reading [b] ++ more) (.send .rdsr :: .pollTest k :: ts) u)
    (hrun : s.runs) (hb : b.toNat % 2 = 1) (hl : ∀ l, s.config.pollLimit = some l → k + 1 < l) :
    ∃ v, Stands s (n + 4) req (sent ++ [.rdsr]) more (.send .rdsr :: .pollTest (k + 1) :: ts) v ∧
      u.AnswersNothing v := by
  have hagain : ∀ {v : State}, s.sameSetup v → v.work.sr = b →
      settle req (.pollTest k :: ts) v = .next (v.sending req .rdsr (.pollTest (k + 1) :: ts)) := fun hv hsr =>
    settle_pollTest_again (hv.config ▸ configRuns_fixed hrun.2) hsr hb (hv.config ▸ hl)
  -- `Stands.rdsr` speaks of the calls in the history only; the next lines lead from its state and from that of
  -- `rdsr_answersNothing` to one and the same state, so the latter's history is that of both.
  obtain ⟨v, hv, hsr⟩ := h.rdsr hrun
  refine ⟨v, hv.lines (hagain hv.setup hsr), ?_⟩
  obtain ⟨w, hw, hsetup, hwsr, more, hm, hno⟩ := rdsr_answersNothing (s := u.sending req .rdsr (.pollTest k :: ts))
    (h.setup.runs hrun) rfl (State.hears_append h.hears).1
  have hsame : v.sending req .rdsr (.pollTest (k + 1) :: ts) = w.sending req .rdsr (.pollTest (k + 1) :: ts) :=
    Host.Outcome.next.inj <|
      calc Host.Outcome.next (v.sending req .rdsr (.pollTest (k + 1) :: ts))
        _ = settle req (.pollTest k :: ts) v := (hagain hv.setup hsr).symm
        _ = run (n + 4) s := hv.steps.symm
        _ = settle req (.pollTest k :: ts) w := (run_add_of_run 4 h.steps).trans hw
        _ = _ := hagain (h.setup.trans hsetup) hwsr
  exact ⟨more, (congrArg State.trace hsame).trans hm, hno⟩

/-- So do any number of them: the poll goes on until the limit is reached (R155, R156). -/
theorem Stands.busyAll {bs : List Byte}
    (h : Stands s n req sent (bs.flatMap (fun b => reading [b]) ++ more) (.send .rdsr :: .pollTest k :: ts) u)
    (hrun : s.runs) (hbs : ∀ b ∈ bs, b.toNat % 2 = 1) (hl : ∀ l, s.config.pollLimit = some l → k + bs.length < l) :
    ∃ v, Stands s (n + 4 * bs.length) req (sent ++ List.replicate bs.length .rdsr) more
        (.send .rdsr :: .pollTest (k + bs.length) :: ts) v ∧ u.AnswersNothing v := by
  induction bs generalizing n k sent u with
  | nil => exact ⟨u, by simpa using h, .refl u⟩
  | cons b bs ih =>
    rw [List.forall_mem_cons] at hbs
    rw [List.flatMap_cons, List.append_assoc] at h
    have hn : n + 4 * (b :: bs).length = n + 4 + 4 * bs.length := by simp; omega
    have hk : k + (b :: bs).length = k + 1 + bs.length := by simp; omega
    rw [hk] at hl
    obtain ⟨v, hv, hno⟩ := h.busy hrun hbs.1 fun l he => (Nat.le_add_right ..).trans_lt (hl l he)
    obtain ⟨w, hw, hno'⟩ := ih hv hbs.2 hl
    refine ⟨w, ?_, hno.trans hno'⟩
    rw [hn, hk, List.length_cons, List.replicate_succ, List.append_cons]
    exact hw

/-- From a state about to read the status in a poll: so many busy answers, so many frames and no response. -/
theorem State.atFrame.busyAll {bs : List Byte} (hat : s.atFrame req .rdsr (.pollTest k :: ts))
    (hears : s.hears (bs.flatMap (fun b => reading [b]) ++ more)) (hbs : ∀ b ∈ bs, b.toNat % 2 = 1)
    (hl : ∀ l, s.config.pollLimit = some l → k + bs.length < l) :
    ∃ v, Stands s (4 * bs.length) req (List.replicate bs.length .rdsr) more
        (.send .rdsr :: .pollTest (k + bs.length) :: ts) v ∧ s.AnswersNothing v := by
  obtain ⟨hpin, hc, hs, -⟩ := hat
  have hsame : s = s.sending req .rdsr (.pollTest k :: ts) := by rw [State.sending, ← hs]
  have start : Stands s 0 req [] (bs.flatMap (fun b => reading [b]) ++ more) (.send .rdsr :: .pollTest k :: ts) s :=
    ⟨congrArg _ hsame, .refl s, by simp [framesCalls], hears⟩
  simpa using start.busyAll ⟨hpin, hc⟩ hbs hl

end

/-! ### The obligations about `PollUntilReady` -/

/-- Settles O27: the closing chip select takes the byte to `SR`, and of that `pollTest` reads the busy bit only. -/
theorem pollLooksAtBitZeroOnly : Obligations.PollLooksAtBitZeroOnly := by
  intro s req k rest b more hfix hs hrx hans
  let u : State := (s.called (.chipSelect s.config.csLine.val false)).takeSr
  have hexec : exec .rdsr s = settle req (.pollTest k :: rest) u :=
    (exec_rdsr s).trans (playFrame_last hs le_rfl hans)
  have hsr : u.work.sr = b := by simp [u, State.takeSr, hrx]
  refine ⟨u, ⟨rfl, rfl, rfl, ?_, rfl, rfl, rfl⟩, by simp [u, State.takeSr], fun h0 => ?_, fun h1 hl => ?_,
    fun h1 hl => ?_⟩
  · rw [← hsr]
    rfl
  · exact hexec.trans (settle_pollTest_ready hfix hsr h0)
  · exact hexec.trans (settle_pollTest_again hfix hsr h1 hl)
  · exact hexec.trans (settle_pollTest_timeout hfix hsr h1 hl)

/-- Settles O28: without a limit no number of busy answers reaches it (`State.atFrame.busyAll`). -/
theorem pollNeverGivesUp : Obligations.PollNeverGivesUp := by
  intro s req k rest bs hat hnone hbs hears
  obtain ⟨v, h, more, hm, hno⟩ := hat.busyAll (more := []) (by simpa using hears) hbs (by simp [hnone])
  have hcalls := h.calls
  rw [hm, callsOf_append] at hcalls
  exact ⟨_, more, h.steps, rfl, hm, hno, List.append_cancel_left hcalls, h.setup⟩

/-- Settles O29: all busy answers but the last are below the limit, and the last one reaches it. -/
theorem pollLimitTimesOut : Obligations.PollLimitTimesOut := by
  intro s req rest bs l hat hlim hpos hbs hears
  have hrun : s.runs := ⟨hat.1, hat.2.1⟩
  refine ⟨?_, fun hlt => ?_⟩
  · rintro rfl
    cases bs using List.reverseRecOn with
    | nil => cases hpos
    | append_singleton init b =>
      simp only [List.length_append, List.length_singleton, List.flatMap_append, List.flatMap_singleton,
        List.forall_mem_append, List.forall_mem_singleton] at hears hlim hbs ⊢
      obtain ⟨v, h, -⟩ := hat.busyAll hears hbs.1 (by simp [hlim])
      obtain ⟨w, hw, hsr⟩ := Stands.rdsr (more := []) h hrun
      have hend : settle req (.pollTest (0 + init.length) :: rest) w = .next (w.raise req .timeout) :=
        settle_pollTest_timeout (hw.setup.config ▸ configRuns_fixed hrun.2) hsr hbs.2
          ⟨_, hw.setup.config ▸ hlim, by rw [Nat.zero_add]⟩
      refine ⟨w.raise req .timeout, _, _, hw.steps.trans hend, rfl, rfl, hw.setup, ?_⟩
      simpa [List.replicate_succ'] using hw.calls
  · obtain ⟨v, h, -⟩ := hat.busyAll (more := []) (by simpa using hears) hbs (by simpa [hlim])
    exact ⟨_, h.steps, by simp, h.setup⟩

end Sys2Proof.Machine

namespace Sys2Proof.Machine

/-! ### The phases of an addressed request (R170, R184)

The phase is read off the lines still to do. A step drops lines and adds only lines that mark no phase, so a mark that
is gone does not come back. -/

/-- The line marks no phase: it neither begins the body nor is the call of `SetAddressMode(0)`. -/
def Task.Unmarked (t : Task) : Prop := t.beginsBody = false ∧ t ≠ .setMode false

/-- Every frame but `READ` is sent by a line that marks no phase. -/
theorem Task.Unmarked.send {f : Instr} (h : ∀ a len, f ≠ .readFrame a len) : (Task.send f).Unmarked := by
  refine ⟨?_, nofun⟩
  cases f with
  | readFrame a len => exact absurd rfl (h a len)
  | _ => rfl

/-- The lines that poll mark no phase when the lines after them mark none (R155). -/
theorem Task.Unmarked.polled {after : List Task} (h : ∀ u ∈ after, u.Unmarked) :
    ∀ u ∈ polled after, u.Unmarked := by
  simp only [Machine.polled, List.forall_mem_cons]
  exact ⟨⟨rfl, nofun⟩, ⟨rfl, nofun⟩, h⟩

theorem eraseFrame_ne_readFrame (c : Config) (f : FlashConfig) (a b len : Word) :
    eraseFrame c f a ≠ .readFrame b len := by
  unfold eraseFrame
  split_ifs <;> nofun

/-- The frames of `SetAddressMode` carry no address. -/
theorem readFrame_not_mem_setModeFrames (c : Config) (w : AddrWidth) (j : JedecId) (en : Bool) (a len : Word) :
    .readFrame a len ∉ setModeFrames c w j en := fun h =>
  absurd (modeFrames_ok c w j en false _ h) Bool.false_ne_true

/-- The phase does not go back when every line still to do marks no phase or was to do before. -/
theorem Running.phase_rank_le {r r' : Running} (h : ∀ t ∈ r'.rest, t.Unmarked ∨ t ∈ r.rest) :
    r.phase.rank ≤ r'.phase.rank := by
  have hbody : r.rest.any Task.beginsBody = false → r'.rest.any Task.beginsBody = false := by
    simp only [List.any_eq_false]
    exact fun hno t ht => (h t ht).elim (fun hu => by simp [hu.1]) (hno t)
  have hexit : Task.setMode false ∉ r.rest → Task.setMode false ∉ r'.rest :=
    fun hno ht => (h _ ht).elim (fun hu => hu.2 rfl) hno
  unfold Running.phase
  cases hb : r.rest.any Task.beginsBody with
  | true => exact Nat.zero_le _
  | false =>
    by_cases hx : Task.setMode false ∈ r.rest
    · simp only [hbody hb, hx, List.contains_iff_mem, if_true, Bool.false_eq_true, if_false]
      split
      · exact le_rfl
      · exact Nat.le_succ 1
    · simp [hbody hb, hx, hexit hx]

/-- The lines a reaction puts before those that were still to do. -/
def Reaction.added : Reaction → List Task
  | .send _ _ us => us
  | .raise .. | .fall _ | .fault _ => []

/-- Every line a reaction adds marks no phase. -/
def Reaction.AddsUnmarked (x : Reaction) : Prop := ∀ u ∈ x.added, u.Unmarked

theorem Reaction.AddsUnmarked.of_added_nil {x : Reaction} (h : x.added = []) : x.AddsUnmarked := by
  simp [Reaction.AddsUnmarked, h]

/-- A frame other than `READ`, a poll, and lines that mark no phase. -/
theorem Reaction.AddsUnmarked.sendPolled {s : State} {f i : Instr} {after : List Task}
    (hi : ∀ a len, i ≠ .readFrame a len) (h : ∀ u ∈ after, u.Unmarked) :
    (Reaction.send s f (.send i :: polled after)).AddsUnmarked :=
  List.forall_mem_cons.mpr ⟨.send hi, .polled h⟩

theorem Reaction.AddsUnmarked.programChunk {s : State} {a : Word} {d : List Byte} {after : List Task}
    (h : ∀ u ∈ after, u.Unmarked) : (programChunk s a d after).AddsUnmarked :=
  .sendPolled nofun h

theorem Reaction.AddsUnmarked.sendAll {s : State} {fs : List Instr} (h : ∀ a len, .readFrame a len ∉ fs) :
    (sendAll s fs).AddsUnmarked := by
  cases fs with
  | nil => exact .of_added_nil rfl
  | cons f fs =>
    refine List.forall_mem_map.mpr fun g hg => .send ?_
    rintro a len rfl
    exact h a len (List.mem_cons_of_mem _ hg)

theorem Reaction.AddsUnmarked.withCfg {s : State} {k : FlashConfig → Descriptor → Reaction}
    (h : ∀ f d, (k f d).AddsUnmarked) : (withCfg s k).AddsUnmarked := by
  unfold Machine.withCfg
  split
  · exact h _ _
  · exact .of_added_nil rfl

theorem Reaction.AddsUnmarked.eraseLoop {s : State} {f : FlashConfig} {total : Word} :
    (eraseLoop s f total).AddsUnmarked := by
  unfold Machine.eraseLoop
  split
  · exact .of_added_nil rfl
  · exact .sendPolled (eraseFrame_ne_readFrame _ _ _) (List.forall_mem_singleton.mpr ⟨rfl, nofun⟩)

theorem Reaction.AddsUnmarked.pageLoop {s : State} {data : List Byte} : (pageLoop s data).AddsUnmarked := by
  unfold Machine.pageLoop
  dsimp only
  split
  · exact .of_added_nil rfl
  · exact .programChunk (List.forall_mem_singleton.mpr ⟨rfl, nofun⟩)

theorem Reaction.AddsUnmarked.aaiLoop {s : State} {data : List Byte} : (aaiLoop s data).AddsUnmarked := by
  unfold Machine.aaiLoop
  dsimp only
  split
  · exact Task.Unmarked.polled (List.forall_mem_singleton.mpr ⟨rfl, nofun⟩)
  · exact .of_added_nil rfl

/-- No line of the pseudocode adds one that marks a phase: `SetAddressMode(0)` and the first line of a body are there
from the acceptance of the request on, once each (R184). -/
theorem react_addsUnmarked (req : Instr) (s : State) (t : Task) : (react req s t).AddsUnmarked := by
  cases t with
  | send f => exact .of_added_nil rfl
  | identify =>
    simp only [react, identify]
    split
    · exact .of_added_nil rfl
    · split
      · exact .of_added_nil rfl
      · split_ifs
        · exact List.forall_mem_cons.mpr ⟨.send nofun, List.forall_mem_singleton.mpr ⟨rfl, nofun⟩⟩
        · exact List.forall_mem_cons.mpr ⟨⟨rfl, nofun⟩, List.forall_mem_singleton.mpr ⟨rfl, nofun⟩⟩
        · exact .of_added_nil rfl
  | clearBp mask =>
    simp only [react, clearBp]
    split
    · exact .of_added_nil rfl
    · exact .sendPolled nofun nofun
  | commit i =>
    simp only [react, commitLine]
    split <;> exact .of_added_nil rfl
  | pollTest k =>
    simp only [react, pollTest]
    split_ifs
    · exact .of_added_nil rfl
    · exact List.forall_mem_singleton.mpr ⟨rfl, nofun⟩
    · exact .of_added_nil rfl
  | setMode en =>
    simp only [react, setModeLine]
    exact .withCfg fun _ _ => .sendAll (readFrame_not_mem_setModeFrames _ _ _ _)
  | eraseBegin addr len =>
    simp only [react, eraseBegin]
    exact .withCfg fun _ _ => .eraseLoop
  | eraseNext total =>
    simp only [react, eraseNext]
    exact .withCfg fun _ _ => .eraseLoop
  | pageBegin addr len => exact .pageLoop
  | pageNext c => exact .pageLoop
  | aaiBegin addr len =>
    simp only [react, aaiBegin]
    split
    · exact .programChunk (List.forall_mem_singleton.mpr ⟨rfl, nofun⟩)
    · exact .of_added_nil rfl
  | aaiLead => exact .of_added_nil rfl
  | aaiLoop => exact .aaiLoop
  | aaiNext => exact .aaiLoop
  | aaiTail =>
    simp only [react, aaiTail]
    split
    · exact .programChunk nofun
    · exact .of_added_nil rfl

/-- The run down to the next frame leaves to do only lines that were to do before, and lines that mark no phase. -/
theorem settle_rest {req : Instr} {ts : List Task} {s t : State} {r : Running} (h : settle req ts s = .next t)
    (hr : t.seq = .running r) : ∀ u ∈ r.rest, u.Unmarked ∨ u ∈ ts := by
  induction ts generalizing s with
  | nil => cases h; cases hr
  | cons l ts ih =>
    have hadd := react_addsUnmarked req s l
    simp only [settle] at h
    cases hl : react req s l with
    | raise e v => rw [hl] at h; cases h; cases hr
    | fault e => rw [hl] at h; cases h
    | fall v =>
      rw [hl] at h
      exact fun u hu => (ih h u hu).imp_right (List.mem_cons_of_mem l)
    | send v f us =>
      rw [hl] at h hadd
      cases h
      cases hr
      exact fun u hu => (List.mem_append.mp hu).imp (hadd u) (List.mem_cons_of_mem l)

/-- A host request while one runs is refused, and the reserved codes do nothing (R82, R100, U10). -/
theorem exec_host_running {s t : State} {r : Running} {i : Instr} (hs : s.seq = .running r) (hi : i.isHost = true)
    (ht : exec i s = .next t) : t = s := by
  cases i with
  | reserved67 seven => cases ht; rfl
  | probe | getsize | read | erase | chiperase | write =>
    simp [exec, execProbe, execGetsize, execRead, execErase, execChiperase, execWrite, accept_running hs] at ht
  | _ => cases hi

/-- The lines to do after a step of a running request were to do before it, or mark no phase. -/
theorem exec_running_rest {s t : State} {r r' : Running} (hs : s.seq = .running r) (ht : exec r.frame s = .next t)
    (hr : t.seq = .running r') : ∀ u ∈ r'.rest, u.Unmarked ∨ u ∈ r.rest := by
  cases hi : r.frame.isHost with
  | true =>
    cases exec_host_running hs hi ht
    cases hs.symm.trans hr
    exact fun u hu => .inr hu
  | false =>
    obtain ⟨tx, rxs, got, done, P⟩ := played r.frame s hi (cfg_isSome_of_exec ht)
    rw [P.exec] at ht
    cases ha : s.answer (frameCall s.config.csLine.val tx rxs r.beat) with
    | fail =>
      cases (playFrame_fail hs ha).symm.trans ht
      cases hr
    | ok bytes =>
      by_cases hb : r.beat < lastBeat rxs
      · cases (playFrame_more hs hb ha).symm.trans ht
        cases hr
        exact fun u hu => .inr hu
      · rw [playFrame_last hs (Nat.not_lt.mp hb) ha] at ht
        exact settle_rest ht hr

/-- Without reset a step of a running request that answers a state is `exec` of its frame. -/
theorem exec_of_step_running {s t : State} {r : Running} (hp : s.resetPin = false) (hs : s.seq = .running r)
    (ht : step s = .next t) : exec r.frame s = .next t := by
  cases hc : configRuns s.config with
  | true => exact (step_running ⟨hp, hc⟩ hs).symm.trans ht
  | false => simp [step, hp, hc] at ht

/-- Settles O18: a step adds no line that marks a phase (`exec_running_rest`). -/
theorem phasesOnlyGoForward : Obligations.PhasesOnlyGoForward := fun _ _ _ _ hp ht hs hr =>
  Running.phase_rank_le (exec_running_rest hs (exec_of_step_running hp hs ht) hr)

/-! ### The frames of `SetAddressMode` (R171, R180, R182) -/

/-- On entry there is the main step alone. -/
theorem setModeFrames_enter (c : Config) (j : JedecId) :
    setModeFrames c .four j true = modeSwitch c (mfrClassOf c (mfrOf j)) true :=
  List.append_nil _

/-- On exit the exit-only step follows it (R180). -/
theorem setModeFrames_exit (c : Config) (j : JedecId) :
    setModeFrames c .four j false =
      modeSwitch c (mfrClassOf c (mfrOf j)) false ++ exitStep c (exitClassOf c (mfrOf j)) j := rfl

theorem exitStep_wrear_skip {c : Config} {j : JedecId} (h : j = c.wrearSkipId) : exitStep c .wrear j = [] :=
  if_pos h

theorem exitStep_wrear {c : Config} {j : JedecId} (h : j ≠ c.wrearSkipId) :
    exitStep c .wrear j = [.wren, .wrear 0x00, .wrdi] :=
  if_neg h

/-- The data byte of `BRWR` with the source's bit 7 (R176). -/
theorem bankByte_source {c : Config} (hc : c.fixed = FixedNumbers.source) (en : Bool) :
    c.bankByte en = if en then 0x80 else 0x00 := by
  rw [Config.bankByte, hc]
  rfl

/-- Settles O50: each row is the main step of its class and, on exit, the exit-only step of its exit class. -/
theorem addressModeFramesByClass : Obligations.AddressModeFramesByClass := by
  intro c j hc
  refine ⟨fun _ => rfl, fun hm => ?_, fun hm => ?_, fun hm he => ?_, fun hm he => ?_⟩
  all_goals rw [setModeFrames_enter, setModeFrames_exit, hm]
  case refine_1 | refine_2 =>
    exact ⟨rfl, fun he hj => by rw [he, exitStep_wrear hj]; rfl, fun he hj => by rw [he, exitStep_wrear_skip hj]; rfl,
      fun he => by rw [he]; rfl, fun he => by rw [he]; rfl⟩
  case refine_3 => simp [he, modeSwitch, exitStep, bankByte_source hc]
  case refine_4 =>
    rw [he]
    exact ⟨rfl, rfl⟩

end Sys2Proof.Machine

namespace Sys2Proof.Machine

/-! ### The erase frame (R126, R193) -/

/-- R126 gives one of the four erase opcodes. -/
theorem deriveEraseOp_mem (c : Config) (d : Descriptor) :
    deriveEraseOp c d ∈ [c.op.se4k, c.op.se4kPmc, c.op.be32k, c.op.be64k] := by
  unfold deriveEraseOp
  split_ifs <;> simp

/-- So does the `CFG` of a block in the invariant. -/
theorem eraseOp_mem {s : State} {f : FlashConfig} (h : s.inv = true) (hf : s.cfg = some f) :
    f.eraseOp ∈ [s.config.op.se4k, s.config.op.se4kPmc, s.config.op.be32k, s.config.op.be64k] := by
  obtain ⟨hc, -, -⟩ := State.inv_iff.mp h
  have hp : s.probed = true := by rw [← cfg_isSome_of_inv h, hf, Option.isSome_some]
  obtain ⟨g, d, hg, -, hder, -⟩ := cfgOk_probed hc hp
  obtain rfl := Option.some.inj (hf.symm.trans hg)
  rw [hder]
  exact deriveEraseOp_mem s.config d

/-- Where the configured opcode is an erase opcode, the erase frame is written with it (R88, R193). -/
theorem encode_eraseFrame {c : Config} {f : FlashConfig}
    (h : f.eraseOp ∈ [c.op.se4k, c.op.se4kPmc, c.op.be32k, c.op.be64k]) (w : AddrWidth) (a : Word) :
    encode c w (eraseFrame c f a) = .frame ⟨f.eraseOp :: addrBytes w a, 0⟩ := by
  unfold eraseFrame
  split_ifs with h4k hPmc h32k
  · rw [h4k]; rfl
  · rw [hPmc]; rfl
  · rw [h32k]; rfl
  · have h64k : f.eraseOp = c.op.be64k := by simpa [h4k, hPmc, h32k] using h
    rw [h64k]; rfl

/-- Settles O17: the configured opcode is one of the four, and selects the frame that is written with it. -/
theorem eraseFrameCarriesTheConfiguredOpcode : Obligations.EraseFrameCarriesTheConfiguredOpcode :=
  fun _ _ w a hinv hf => ⟨encode_eraseFrame (eraseOp_mem hinv hf) w a, eraseOp_mem hinv hf⟩

/-! ### Requests whose checks pass (R191, R195, R210, R241) -/

theorem State.sameSetup.probedDevice {s t : State} (h : s.sameSetup t) : t.probedDevice = s.probedDevice := by
  simp only [State.probedDevice, h.config, h.cfg]

/-- A probed block has a `CFG`. -/
theorem cfg_isSome_of_probedDevice {s : State} {f : FlashConfig} {d : Descriptor}
    (h : s.probedDevice = some (f, d)) : s.cfg.isSome = true := by
  cases hc : s.cfg with
  | none => simp [State.probedDevice, hc] at h
  | some g => rfl

/-- `CHIPERASE` has no check but that of the probe. -/
theorem exec_chiperase_accepted {s : State} (hs : s.seq = .idle) (hp : s.probed = true) :
    exec .chiperase s = settle .chiperase (.send .wren :: .send .ce :: polled []) s.accepted := by
  show execChiperase s = _
  rw [execChiperase, accept_idle hs, if_pos (by simp [hp])]

section
variable {s : State} {f : FlashConfig} {d : Descriptor} {addr len : Word} {data : List Byte}
  (hs : s.seq = .idle) (hp : s.probed = true) (hd : s.probedDevice = some (f, d))
include hs hp hd

theorem exec_read_accepted (hr : addr.toNat + len.toNat ≤ d.capacity.toNat) :
    exec (.read addr len) s =
      settle (.read addr len) [.setMode true, .send (.readFrame addr len), .setMode false] s.accepted := by
  have hin : ¬d.capacity.toNat < spanEnd addr len.toNat := Nat.not_lt.mpr hr
  show execRead addr len s = _
  rw [execRead, accept_idle hs, withProbed_yes (s := s.accepted) hp hd, if_neg hin]

theorem exec_erase_accepted (ha : misaligned f.eraseGran addr len = false)
    (hr : addr.toNat + len.toNat ≤ d.capacity.toNat) :
    exec (.erase addr len) s =
      settle (.erase addr len) [.setMode true, .eraseBegin addr len, .setMode false] s.accepted := by
  have hin : ¬(d.capacity.toNat < addr.toNat ∨ d.capacity.toNat < spanEnd addr len.toNat) := by
    unfold spanEnd
    omega
  show execErase addr len s = _
  rw [execErase, accept_idle hs, withProbed_yes (s := s.accepted) hp hd, if_neg (by simp [ha]), if_neg hin]

theorem exec_write_accepted (hr : addr.toNat + data.length ≤ d.capacity.toNat) :
    exec (.write addr data) s =
      settle (.write addr data) (if f.aai then writeAAI addr (BitVec.ofNat 32 data.length)
        else writePages addr (BitVec.ofNat 32 data.length)) s.accepted := by
  have hin : ¬d.capacity.toNat < spanEnd addr data.length := Nat.not_lt.mpr hr
  show execWrite addr data s = _
  rw [execWrite, accept_idle hs, withProbed_yes (s := s.accepted) hp hd, if_neg hin]

end

/-! ### The lines of an addressed request, written as lines to do -/

/-- The state with these working registers. -/
def State.withWork (s : State) (w : Work) : State := { s with work := w }

/-- The lines of the sector loop that come before the loop's end, or before its next round (R191, R193). -/
def sectorLines (c : Config) (f : FlashConfig) (a n total : Word) : List Task :=
  if n = 0 then [] else .send .wren :: .send (eraseFrame c f a) :: polled [.eraseNext total]

/-- The same of the chunk loop (R211, R212). -/
def chunkLines (c : Config) (data : List Byte) (a p n : Word) : List Task :=
  let m := pageChunk c.pageSize a n
  if n = 0 then [] else
    .send .wren :: .send (.pp a (dataSlice data p.toNat m.toNat)) :: polled [.pageNext m]

/-- The lines of the leading byte of an auto-increment sequence, if there is one (R216, R217). -/
def leadLines (data : List Byte) (addr len : Word) : List Task :=
  if len ≠ 0 ∧ addr.toNat % 2 = 1 then .send .wren :: .send (.pp addr [dataAt data 0]) :: polled [.aaiLead] else []

section
variable {req f : Instr} {u v : State} {t : Task} {us : List Task}

/-- A line that is done at once is followed by the next one. -/
theorem settle_of_fall (h : react req u t = .fall v) (ts : List Task) :
    settle req (t :: ts) u = settle req ts v := by
  rw [settle, h]

/-- A line that sends a frame puts the sending and the lines it adds before those still to do. -/
theorem settle_of_send (h : react req u t = .send v f us) (ts : List Task) :
    settle req (t :: ts) u = settle req (.send f :: us ++ ts) v := by
  rw [settle, h]
  rfl

end

section
variable {req : Instr} {u v : State} {t : Task} {f : FlashConfig} {d : Descriptor}

/-- The head of the sector loop: it is left, or a sector is erased. -/
theorem settle_of_eraseLoop {total : Word} (h : react req u t = eraseLoop v f total) (ts : List Task) :
    settle req (t :: ts) u = settle req (sectorLines v.config f v.work.a v.work.n total ++ ts) v := by
  by_cases hn : v.work.n = 0
  · rw [sectorLines, if_pos hn]
    exact settle_of_fall (h.trans (if_pos hn)) ts
  · rw [sectorLines, if_neg hn]
    exact settle_of_send (h.trans (if_neg hn)) ts

/-- The head of the chunk loop: it is left, or a chunk is programmed. -/
theorem settle_of_pageLoop {data : List Byte} (h : react req u t = pageLoop v data) (ts : List Task) :
    settle req (t :: ts) u = settle req (chunkLines v.config data v.work.a v.work.p v.work.n ++ ts) v := by
  by_cases hn : v.work.n = 0
  · rw [chunkLines, if_pos hn]
    exact settle_of_fall (h.trans (if_pos hn)) ts
  · rw [chunkLines, if_neg hn]
    exact settle_of_send (h.trans (if_neg hn)) ts

/-- The chunk loop is entered with the whole span to do. -/
theorem settle_pageBegin (addr len : Word) (ts : List Task) : settle req (.pageBegin addr len :: ts) u =
    settle req (chunkLines u.config (reqData req) addr 0 len ++ ts)
      (u.withWork { u.work with a := addr, p := 0, n := len }) :=
  settle_of_pageLoop (v := u.withWork { u.work with a := addr, p := 0, n := len }) rfl ts

/-- The auto-increment sequence is entered with the whole span to do. -/
theorem settle_aaiBegin (addr len : Word) (ts : List Task) : settle req (.aaiBegin addr len :: ts) u =
    settle req (leadLines (reqData req) addr len ++ ts)
      (u.withWork { u.work with a := addr, p := 0, n := len, q := 0 }) := by
  have h : react req u (.aaiBegin addr len) = aaiBegin u (reqData req) addr len := rfl
  by_cases hodd : len ≠ 0 ∧ addr.toNat % 2 = 1
  · rw [leadLines, if_pos hodd]
    exact settle_of_send (h.trans (if_pos hodd)) ts
  · rw [leadLines, if_neg hodd]
    exact settle_of_fall (h.trans (if_neg hodd)) ts

variable (hd : u.probedDevice = some (f, d))
include hd

theorem withCfg_some (k : FlashConfig → Descriptor → Reaction) : withCfg u k = k f d := by
  simp only [withCfg, hd]

/-- `SetAddressMode` is the sending of its frames (R171). -/
theorem settle_setMode (en : Bool) (ts : List Task) : settle req (.setMode en :: ts) u =
    settle req ((setModeFrames u.config f.addrWidth d.jedecId en).map .send ++ ts) u := by
  have h : react req u (.setMode en) = sendAll u (setModeFrames u.config f.addrWidth d.jedecId en) := by
    simp only [react, setModeLine, withCfg_some hd]
  cases hfs : setModeFrames u.config f.addrWidth d.jedecId en with
  | nil =>
    rw [hfs] at h
    exact settle_of_fall h ts
  | cons i is =>
    rw [hfs] at h
    exact settle_of_send h ts

/-- The sector loop is entered with all sectors to do. -/
theorem settle_eraseBegin (addr len : Word) (ts : List Task) : settle req (.eraseBegin addr len :: ts) u =
    settle req (sectorLines u.config f addr (len / f.eraseGran) (len / f.eraseGran) ++ ts)
      (u.withWork { u.work with a := addr, n := len / f.eraseGran }) :=
  settle_of_eraseLoop (v := u.withWork { u.work with a := addr, n := len / f.eraseGran })
    (by simp only [react, eraseBegin, withCfg_some hd]; rfl) ts

/-- After a sector it is gone on with one sector further on, after the report (R192, R247). -/
theorem settle_eraseNext {total a n : Word} (ha : u.work.a + f.eraseGran = a) (hn : u.work.n - 1 = n)
    (ts : List Task) : settle req (.eraseNext total :: ts) u =
      settle req (sectorLines u.config f a n total ++ ts)
        ((u.withWork { u.work with a := a, n := n }).progress (total - n).toNat total.toNat) := by
  subst ha hn
  exact settle_of_eraseLoop
    (v := (u.withWork { u.work with a := u.work.a + f.eraseGran, n := u.work.n - 1 }).progress _ _)
    (by simp only [react, eraseNext, withCfg_some hd]; rfl) ts

end

/-! ### The lines that a request begins with -/

/-- Done in `s`, the lines `ts` of the request `req` stand before the first of the frames `fs`, or end the request with
`Ok` where there is none; no call has been made, and nothing outside the working registers has changed. -/
def Begins (s : State) (req : Instr) (ts : List Task) (fs : List Instr) : Prop :=
  ∃ t, settle req ts s = .next t ∧ t.begun req fs ∧ s.sameSetup t ∧ callsOf t.trace = callsOf s.trace ∧
    t.host = s.host ∧ t.env.dev = s.env.dev

section
variable {s : State} {req f : Instr} {ts us : List Task} {fs gs : List Instr}

theorem Begins.nil (s : State) (req : Instr) : Begins s req [] [] :=
  ⟨s.returnOk req, rfl, ⟨rfl, rfl⟩, .refl s, by simp, rfl, rfl⟩

theorem Begins.send : Begins s req (.send f :: ts) (f :: fs) :=
  ⟨s.sending req f ts, rfl, ⟨ts, rfl⟩, .refl s, rfl, rfl, rfl⟩

theorem Begins.sends (h : Begins s req ts gs) : Begins s req (fs.map .send ++ ts) (fs ++ gs) := by
  cases fs with
  | nil => exact h
  | cons f fs => exact .send

/-- Lines that write working registers only may come first. -/
theorem Begins.of_settle_eq {w : Work} (he : settle req ts s = settle req us (s.withWork w))
    (h : Begins (s.withWork w) req us fs) : Begins s req ts fs := by
  rw [Begins, he]
  exact h

end

section
variable {s : State} {req : Instr} {f : FlashConfig} {d : Descriptor} {ts : List Task} {fs : List Instr}
  {addr len : Word} {data : List Byte}

/-- The lines that follow a loop begin with these frames, whatever the loop leaves in the working registers. -/
def AlwaysBegins (s : State) (req : Instr) (ts : List Task) (fs : List Instr) : Prop :=
  ∀ w, Begins (s.withWork w) req ts fs

theorem Begins.setMode (hd : s.probedDevice = some (f, d)) (en : Bool) (h : Begins s req ts fs) :
    Begins s req (.setMode en :: ts) (setModeFrames s.config f.addrWidth d.jedecId en ++ fs) := by
  rw [Begins, settle_setMode hd]
  exact h.sends

/-- An addressed request begins with its bracket, if its body and the end of the bracket begin as they should (R184). -/
theorem Begins.bracketed (hd : s.probedDevice = some (f, d)) {body : List Instr}
    (h : ∀ {fs}, AlwaysBegins s req [.setMode false] fs → Begins s req (ts ++ [.setMode false]) (body ++ fs)) :
    Begins s req (.setMode true :: (ts ++ [.setMode false])) (bracketed s.config f d body) := by
  rw [Machine.bracketed, List.append_assoc]
  refine .setMode hd true (h fun w => ?_)
  rw [← List.append_nil (setModeFrames _ _ _ _)]
  exact .setMode (s := s.withWork w) hd false (.nil _ _)

/-- The sector loop (R191). -/
theorem Begins.eraseBegin (hd : s.probedDevice = some (f, d)) (h : AlwaysBegins s req ts fs) :
    Begins s req (.eraseBegin addr len :: ts) (eraseFrames s.config f addr len ++ fs) := by
  refine .of_settle_eq (settle_eraseBegin hd addr len ts) ?_
  have hzero : len / f.eraseGran = 0 ↔ len.toNat / f.eraseGran.toNat = 0 := by
    simp [← BitVec.toNat_inj]
  by_cases hn : len / f.eraseGran = 0
  · simp only [sectorLines, hn, if_true, eraseFrames, hzero.mp hn, List.range_zero, List.flatMap_nil,
      List.nil_append]
    exact h _
  · obtain ⟨m, hm⟩ := Nat.exists_eq_succ_of_ne_zero (mt hzero.mpr hn)
    simp only [sectorLines, hn, if_false, eraseFrames, hm, List.range_succ_eq_map, List.flatMap_cons]
    exact .send

/-- The chunk loop (R211). -/
theorem Begins.pageBegin (hlen : data.length < 2 ^ 32) (h : AlwaysBegins s req ts fs) :
    Begins s req (.pageBegin addr (BitVec.ofNat 32 data.length) :: ts)
      (pageFrames s.config.pageSize data.length addr data ++ fs) := by
  refine .of_settle_eq (settle_pageBegin addr _ ts) ?_
  cases data with
  | nil => exact h _
  | cons v vs =>
    have hne : BitVec.ofNat 32 (v :: vs).length ≠ 0 := by
      rw [ne_eq, ← BitVec.toNat_inj, BitVec.toNat_ofNat, Nat.mod_eq_of_lt hlen]
      exact Nat.succ_ne_zero _
    rw [chunkLines, if_neg hne]
    exact .send

/-- The auto-increment sequence: with or without a leading byte its first frame is a `WREN` (R216). -/
theorem Begins.aaiBegin : Begins s req (.aaiBegin addr len :: .send .wren :: ts) (aaiFrames addr data ++ fs) := by
  obtain ⟨gs, hgs⟩ : ∃ gs, aaiFrames addr data = .wren :: gs := by
    unfold aaiFrames
    split
    · split <;> exact ⟨_, rfl⟩
    · exact ⟨_, rfl⟩
  rw [hgs]
  refine .of_settle_eq (settle_aaiBegin addr len _) ?_
  unfold leadLines
  split <;> exact .send

end

/-- Settles O42: the lines of each request, from the first one on (`Begins`). -/
theorem acceptedRequestsBegin : Obligations.AcceptedRequestsBegin := by
  intro s f d addr len data hs hp hd _
  refine ⟨fun hr => ?_, fun ha hr => ?_, ?_, fun hr => ?_⟩
  · rw [exec_read_accepted hs hp hd hr]
    exact Begins.bracketed (s := s.accepted) (ts := [.send (.readFrame addr len)]) (body := [.readFrame addr len]) hd
      fun _ => .send
  · rw [exec_erase_accepted hs hp hd ha hr]
    exact Begins.bracketed (s := s.accepted) (ts := [.eraseBegin addr len]) hd fun hexit => .eraseBegin hd hexit
  · rw [exec_chiperase_accepted hs hp]
    exact Begins.send (s := s.accepted)
  · have hlen : data.length < 2 ^ 32 := by have := d.capacity.isLt; omega
    rw [exec_write_accepted hs hp hd hr]
    cases f.aai with
    | true =>
      exact Begins.bracketed (s := s.accepted)
        (ts := .aaiBegin addr _ :: .send .wren :: .aaiLoop :: .send .wrdi :: polled [.aaiTail]) hd
        fun _ => .aaiBegin (data := data)
    | false =>
      exact Begins.bracketed (s := s.accepted) (ts := [.pageBegin addr _]) hd fun hexit => .pageBegin hlen hexit

end Sys2Proof.Machine

namespace Sys2Proof.Machine

/-! ### A whole frame, with what it leaves in the history

As O25 and O26 have it, for any successful answers. -/

/-- From `s` to `t` the frame `i` has been sent, to the end: its calls and no report stand in the history, the working
registers are `w`, the answers to come are `more`, and nothing else of the block has changed. -/
structure State.Sent (s : State) (i : Instr) (w : Work) (more : List Scripted) (t : State) : Prop where
  block : (s.withWork w).sameBlock t
  script : t.env.script = more
  calls : callsOf t.trace = callsOf s.trace ++ frameCalls s.config s.width i
  progress : progressOf t.trace = progressOf s.trace

section
variable {s : State} {req i : Instr} {rest : List Task} {g0 g1 g2 g3 : List Byte} {more : List Scripted}

/-- The three calls of a command frame. -/
theorem command_sent (hi : IsCommand i) (hat : s.atFrame req i rest)
    (hr : s.env.script = .reply g0 :: .reply g1 :: .reply g2 :: more) :
    ∃ t, run 3 s = settle req rest t ∧ s.Sent i s.work more t := by
  obtain ⟨hp, hc, hs, hhost, hcfg⟩ := hat
  have hrun : s.runs := ⟨hp, hc⟩
  obtain ⟨tx, hcalls⟩ := frameCalls_command s.config s.width hi
  have at0 : s.AtCall req i 0 rest (.chipSelect s.config.csLine.val true) :=
    ⟨hs, hhost, hcfg, by rw [hcalls]; rfl⟩
  obtain ⟨s1, hs1, m1, at1⟩ := command_more hi hrun at0 hr (by rw [hcalls]; rfl)
  have r1 : s1.env.script = .reply g1 :: .reply g2 :: more := by rw [m1.script, hr, List.tail_cons]
  obtain ⟨s2, hs2, m2, at2⟩ := command_more hi (m1.block.runs hrun) at1 r1
    (by rw [m1.block.frameCalls, hcalls]; rfl)
  have b2 : s.sameBlock s2 := m1.block.trans m2.block
  have r2 : s2.env.script = .reply g2 :: more := by rw [m2.script, r1, List.tail_cons]
  obtain ⟨s3, hs3, m3⟩ := command_last hi (b2.runs hrun) at2 r2 (by rw [b2.frameCalls, hcalls]; rfl)
  refine ⟨s3, ?_, b2.trans m3.block, by rw [m3.script, r2, List.tail_cons], ?_, ?_⟩
  · rw [run_succ_of_step 2 hs1, run_succ_of_step 1 hs2, run_one, hs3]
  · simp [m3.trace, m2.trace, m1.trace, hcalls]
  · simp [m3.trace, m2.trace, m1.trace]

/-- The four calls of a status read. -/
theorem rdsr_sent {b : Byte} (hrun : s.runs) (hs : s.seq = .running ⟨req, .rdsr, 0, rest⟩)
    (hr : s.env.script = .reply g0 :: .reply g1 :: .reply [b] :: .reply g3 :: more) :
    ∃ t, run 4 s = settle req rest t ∧ s.Sent .rdsr { s.work with sr := b, rx := [b] } more t := by
  obtain ⟨s1, hs1, (m1 : s.Made _ s1), q1⟩ :=
    regRead_more (exec_rdsr s) hrun hs hr (call := .chipSelect s.config.csLine.val true) rfl (by decide)
  have b1 : s.sameBlock s1 := m1.block
  have r1 : s1.env.script = .reply g1 :: .reply [b] :: .reply g3 :: more := by rw [m1.script, hr, List.tail_cons]
  obtain ⟨s2, hs2, (m2 : s1.Made _ s2), q2⟩ :=
    regRead_more (exec_rdsr s1) (b1.runs hrun) q1 r1 (call := .writeOnly [s1.config.op.rdsr]) rfl (by decide)
  have b2 : s.sameBlock s2 := b1.trans m2.block
  have r2 : s2.env.script = .reply [b] :: .reply g3 :: more := by rw [m2.script, r1, List.tail_cons]
  obtain ⟨s3, hs3, m3, q3⟩ :=
    regRead_more (exec_rdsr s2) (b2.runs hrun) q2 r2 (call := .readOnly [b].length) rfl (by decide)
  rw [Call.rxLen, keepRx_received] at m3
  have b3 : (s.received [b]).sameBlock s3 := (b2.received [b]).trans m3.block
  have r3 : s3.env.script = .reply g3 :: more := by rw [m3.script, State.received_env, r2, List.tail_cons]
  obtain ⟨s4, hs4, m4⟩ := regRead_last (exec_rdsr s3) (b3.runs hrun) q3 r3 rfl
  obtain ⟨hc, hp, hf, hw, hblock⟩ := b3.trans m4.block
  refine ⟨s4.takeSr, ?_, ⟨hc, hp, hf, by rw [State.takeSr, hw]; rfl, hblock⟩, ?_, ?_, ?_⟩
  · rw [run_succ_of_step 3 hs1, run_succ_of_step 2 hs2, run_succ_of_step 1 hs3, run_one, hs4]
  · show s4.env.script = more
    rw [m4.script, r3, List.tail_cons]
  · have hconf : s1.config = s.config ∧ s3.config = s.config := ⟨b1.1, b3.1⟩
    simp [State.takeSr, m4.trace, m3.trace, m2.trace, m1.trace, hconf, frameCalls, encode, rxCalls]
  · simp [State.takeSr, m4.trace, m3.trace, m2.trace, m1.trace]

end

/-! ### A request, frame by frame, with its reports -/

/-- `Stands`, for a request that has been taken off the port and has reported `reports`. -/
structure Reached (s : State) (n : Nat) (req : Instr) (sent : List Instr) (reports : List Nat)
    (answers : List Scripted) (ts : List Task) (u : State) : Prop extends Stands s n req sent answers ts u where
  host : u.host = s.host.tail
  progress : progressOf u.trace = progressOf s.trace ++ reports

section
variable {s u : State} {n : Nat} {req i : Instr} {sent : List Instr} {reports : List Nat} {answers more : List Scripted}
  {ts us : List Task} {g0 g1 g2 g3 : List Byte} {b : Byte}

/-- The step that takes the request off the port. -/
theorem Reached.start {q : HostRecord} {rest : List HostRecord} (hrun : s.runs) (hs : s.seq = .idle)
    (hh : s.host = q :: rest) (hd : decodeHost q = .ok req)
    (he : exec req { s with host := rest } = settle req ts ({ s with host := rest } : State).accepted)
    (hears : s.hears answers) :
    Reached s 1 req [] [] answers ts ({ s with host := rest } : State).accepted where
  steps := by rw [run_one, step_presented hrun hs hh hd, he]
  setup := .refl s
  calls := by simp [framesCalls]
  hears := hears
  host := by rw [hh]; rfl
  progress := by simp

/-- Lines that at most write working registers lead from one standpoint to another. -/
theorem Reached.lines {w : Work} (h : Reached s n req sent reports answers ts u)
    (he : settle req ts u = settle req us (u.withWork w)) :
    Reached s n req sent reports answers us (u.withWork w) where
  steps := h.steps.trans he
  setup := h.setup
  calls := h.calls
  hears := h.hears
  host := h.host
  progress := h.progress

/-- So do lines that make a report besides (R247). -/
theorem Reached.report {w : Work} {k l : Nat} (h : Reached s n req sent reports answers ts u)
    (he : settle req ts u = settle req us ((u.withWork w).progress k l)) :
    Reached s n req sent (reports ++ [percent k l]) answers us ((u.withWork w).progress k l) where
  steps := h.steps.trans he
  setup := h.setup
  calls := by
    rw [State.progress_trace, callsOf_append, callsOf_progress, callsOf_nil, List.append_nil]
    exact h.calls
  hears := h.hears
  host := h.host
  progress := by
    rw [State.progress_trace, progressOf_append, ← List.append_assoc, ← h.progress]
    rfl

/-- A whole frame, whichever it is. -/
theorem Reached.frame {v : State} {a : List Scripted} {w : Work}
    (h : Reached s n req sent reports (a ++ more) (.send i :: ts) u)
    (hv : run a.length (u.sending req i ts) = settle req ts v)
    (hsent : (u.sending req i ts).Sent i w (u.env.script.drop a.length) v) :
    Reached s (n + a.length) req (sent ++ [i]) reports more ts v ∧ v.work = w := by
  obtain ⟨hblock, hscript, hcalls, hprogress⟩ := hsent
  have hstands := h.toStands.frame hv (State.sameBlock.sameSetup (w := w) hblock) hscript hcalls
  obtain ⟨-, -, -, hwork, -, hhost, -⟩ := hblock
  exact ⟨⟨hstands, hhost.trans h.host, hprogress.trans h.progress⟩, hwork⟩

/-- The answers to come stand first in the script. -/
theorem State.hears.script {a : List Scripted} (h : s.hears (a ++ more)) :
    s.env.script = a ++ s.env.script.drop a.length := by
  have hfirst : s.env.script.take a.length = a := (State.hears_append h).1
  conv_lhs => rw [← List.take_append_drop a.length s.env.script, hfirst]

/-- A command frame keeps the working registers. -/
theorem Reached.command
    (h : Reached s n req sent reports (.reply g0 :: .reply g1 :: .reply g2 :: more) (.send i :: ts) u)
    (hrun : s.runs) (hi : IsCommand i) (hcfg : i.addressed = true → s.cfg.isSome = true) :
    ∃ v, Reached s (n + 3) req (sent ++ [i]) reports more ts v ∧ v.work = u.work := by
  obtain ⟨hp, hc⟩ := h.setup.runs hrun
  have hat : (u.sending req i ts).atFrame req i ts := ⟨hp, hc, rfl, hi.frame, fun ha => h.setup.cfg ▸ hcfg ha⟩
  obtain ⟨v, hv, hsent⟩ := command_sent hi hat (State.hears.script (a := [.reply g0, .reply g1, .reply g2]) h.hears)
  exact ⟨v, Reached.frame (a := [.reply g0, .reply g1, .reply g2]) h hv hsent⟩

/-- A status read brings its byte to `SR`. -/
theorem Reached.rdsr
    (h : Reached s n req sent reports (.reply g0 :: .reply g1 :: .reply [b] :: .reply g3 :: more)
      (.send .rdsr :: ts) u)
    (hrun : s.runs) :
    ∃ v, Reached s (n + 4) req (sent ++ [.rdsr]) reports more ts v ∧ v.work = { u.work with sr := b, rx := [b] } := by
  obtain ⟨v, hv, hsent⟩ := rdsr_sent (s := u.sending req .rdsr ts) (h.setup.runs hrun) rfl
    (State.hears.script (a := [.reply g0, .reply g1, .reply [b], .reply g3]) h.hears)
  exact ⟨v, Reached.frame (a := [.reply g0, .reply g1, .reply [b], .reply g3]) h hv hsent⟩

/-- The block under way has the source's fixed numbers. -/
theorem Stands.fixed (h : Stands s n req sent answers ts u) (hrun : s.runs) :
    u.config.fixed = FixedNumbers.source := by
  rw [h.setup.config, configRuns_fixed hrun.2]

/-- A ready answer ends the poll, whatever the limit (R155). -/
theorem Reached.ready {k : Nat}
    (h : Reached s n req sent reports (.reply g0 :: .reply g1 :: .reply [b] :: .reply g3 :: more)
      (.send .rdsr :: .pollTest k :: ts) u) (hrun : s.runs) (hb : b.toNat % 2 = 0) :
    ∃ v, Reached s (n + 4) req (sent ++ [.rdsr]) reports more ts v ∧ v.work = { u.work with sr := b, rx := [b] } := by
  obtain ⟨v, hv, hw⟩ := h.rdsr hrun
  exact ⟨v, hv.lines (w := v.work) (settle_pollTest_ready (hv.fixed hrun) (by rw [hw]) hb), hw⟩

/-- A poll with any number of busy answers below the limit and then a ready one (R155). -/
theorem Reached.poll {bs : List Byte} {k : Nat}
    (h : Reached s n req sent reports ((bs ++ [b]).flatMap (fun x => reading [x]) ++ more)
      (.send .rdsr :: .pollTest k :: ts) u)
    (hrun : s.runs) (hbs : ∀ x ∈ bs, x.toNat % 2 = 1) (hb : b.toNat % 2 = 0)
    (hl : ∀ l, s.config.pollLimit = some l → k + bs.length < l) :
    ∃ v, Reached s (n + 4 * (bs.length + 1)) req (sent ++ List.replicate (bs.length + 1) .rdsr) reports more ts v ∧
      v.work = { u.work with sr := b, rx := [b] } := by
  induction bs generalizing n k sent u with
  | nil => exact h.ready hrun hb
  | cons x bs ih =>
    rw [List.forall_mem_cons] at hbs
    have hk : k + (x :: bs).length = k + 1 + bs.length := by rw [List.length_cons]; omega
    rw [hk] at hl
    obtain ⟨v, hv, hw⟩ := h.rdsr hrun
    have hagain := settle_pollTest_again (req := req) (ts := ts) (k := k) (hv.fixed hrun) (by rw [hw]) hbs.1
      fun l hlim => (Nat.le_add_right ..).trans_lt (hl l (hv.setup.config ▸ hlim))
    obtain ⟨t, ht, hwt⟩ := ih (hv.lines (w := v.work) hagain) hbs.2 hl
    refine ⟨t, ?_, hwt.trans (congrArg (fun k : Work => { k with sr := b, rx := [b] }) hw)⟩
    have hn : n + 4 * ((x :: bs).length + 1) = n + 4 + 4 * (bs.length + 1) := by rw [List.length_cons]; omega
    rw [hn, List.length_cons, List.replicate_succ, List.append_cons]
    exact ht

/-- With no line left the request returns `Ok` (R240). -/
theorem Reached.returnOk (h : Reached s n req sent reports answers [] u) (hout : okOut u req = none) :
    ∃ t z, run n s = .next t ∧ t.seq = .idle ∧ t.resp = some ⟨.ok, z, none⟩ ∧ s.sameSetup t ∧
      t.host = s.host.tail ∧ callsOf t.trace = callsOf s.trace ++ framesCalls s.config s.width sent ∧
      progressOf t.trace = progressOf s.trace ++ reports ∧ t.work = u.work :=
  ⟨u.returnOk req, _, h.steps, rfl, by rw [State.returnOk_resp, hout], h.setup, h.host, by simpa using h.calls,
    by simpa using h.progress, rfl⟩

end

theorem isCommand_ce : IsCommand .ce := ⟨rfl, nofun, nofun, nofun⟩

/-- Settles O45: the two command frames, and the poll (`Reached.poll`). -/
theorem chipEraseRunsWhole : Obligations.ChipEraseRunsWhole := by
  intro s bs b ⟨hpin, hc, hs, q, rest, hh, hd⟩ hp hbs hb hl hears
  have hrun : s.runs := ⟨hpin, hc⟩
  have start := Reached.start hrun hs hh hd (exec_chiperase_accepted (s := { s with host := rest }) hs hp) hears
  rw [← List.append_nil (_ ++ _ ++ _), List.append_assoc, List.append_assoc] at start
  obtain ⟨u4, h4, w4⟩ := start.command hrun isCommand_wren nofun
  obtain ⟨u7, h7, w7⟩ := h4.command hrun isCommand_ce nofun
  obtain ⟨u, h, w⟩ := Reached.poll h7 hrun hbs hb (by simpa using hl)
  obtain ⟨t, z, ht, hidle, hresp, hsetup, hhost, hcalls, hprogress, hwork⟩ := h.returnOk rfl
  refine ⟨t, z, ht, hidle, hresp, hcalls, by simpa using hprogress, ?_, hsetup, hhost⟩
  rw [hwork, w, w7, w4]
  rfl

end Sys2Proof.Machine

namespace Sys2Proof.Machine

/-! ### A request whose calls all succeed and whose polls are all ready -/

/-- The answers to some frames when every call succeeds and each status byte is 0. -/
def quietAnswers (c : Config) (w : AddrWidth) (fs : List Instr) : List Scripted :=
  List.replicate (framesCalls c w fs).length (.reply [0])

theorem framesCalls_append (c : Config) (w : AddrWidth) (fs gs : List Instr) :
    framesCalls c w (fs ++ gs) = framesCalls c w fs ++ framesCalls c w gs := List.flatMap_append

theorem framesCalls_singleton (c : Config) (w : AddrWidth) (i : Instr) :
    framesCalls c w [i] = frameCalls c w i := List.flatMap_singleton ..

theorem quietAnswers_cons (c : Config) (w : AddrWidth) (i : Instr) (fs : List Instr) :
    quietAnswers c w (i :: fs) =
      List.replicate (frameCalls c w i).length (.reply [0]) ++ quietAnswers c w fs := by
  simp [quietAnswers, framesCalls]

theorem length_frameCalls_command {c : Config} {w : AddrWidth} {i : Instr} (hi : IsCommand i) :
    (frameCalls c w i).length = 3 := by
  obtain ⟨tx, h⟩ := frameCalls_command c w hi
  rw [h]
  rfl

/-- `Reached`, where the frames `todo` are still to be sent and will all be answered quietly: as many steps as calls,
and the one that took the request. -/
def QuietlyReached (s : State) (req : Instr) (sent todo : List Instr) (reports : List Nat) (ts : List Task)
    (u : State) : Prop :=
  Reached s ((framesCalls s.config s.width sent).length + 1) req sent reports
    (quietAnswers s.config s.width todo) ts u

section
variable {s u : State} {req i : Instr} {sent todo fs : List Instr} {reports : List Nat} {ts : List Task}

/-- One more frame has been sent. -/
theorem QuietlyReached.of_sent {m : Nat} (hm : (frameCalls s.config s.width i).length = m)
    (h : Reached s ((framesCalls s.config s.width sent).length + 1 + m) req (sent ++ [i]) reports
      (quietAnswers s.config s.width todo) ts u) :
    QuietlyReached s req (sent ++ [i]) todo reports ts u := by
  unfold QuietlyReached
  rw [framesCalls_append, framesCalls_singleton, List.length_append, hm, Nat.add_right_comm]
  exact h

/-- A command frame keeps the working registers. -/
theorem QuietlyReached.command (h : QuietlyReached s req sent (i :: todo) reports (.send i :: ts) u) (hrun : s.runs)
    (hi : IsCommand i) (hcfg : i.addressed = true → s.cfg.isSome = true) :
    ∃ v, QuietlyReached s req (sent ++ [i]) todo reports ts v ∧ v.work = u.work := by
  rw [QuietlyReached, quietAnswers_cons, length_frameCalls_command hi] at h
  obtain ⟨v, hv, hw⟩ := Reached.command h hrun hi hcfg
  exact ⟨v, .of_sent (length_frameCalls_command hi) hv, hw⟩

/-- A poll is one status read. -/
theorem QuietlyReached.ready {k : Nat}
    (h : QuietlyReached s req sent (.rdsr :: todo) reports (.send .rdsr :: .pollTest k :: ts) u) (hrun : s.runs) :
    ∃ v, QuietlyReached s req (sent ++ [.rdsr]) todo reports ts v ∧
      v.work = { u.work with sr := 0, rx := [0] } := by
  rw [QuietlyReached, quietAnswers_cons] at h
  obtain ⟨v, hv, hw⟩ := Reached.ready h hrun rfl
  exact ⟨v, .of_sent rfl hv, hw⟩

/-- So do any number of command frames, one after the other. -/
theorem QuietlyReached.commands (h : QuietlyReached s req sent (fs ++ todo) reports (fs.map .send ++ ts) u)
    (hrun : s.runs) (hfs : ∀ i ∈ fs, IsCommand i ∧ i.addressed = false) :
    ∃ v, QuietlyReached s req (sent ++ fs) todo reports ts v ∧ v.work = u.work := by
  induction fs generalizing sent u with
  | nil => exact ⟨u, by simpa using h, rfl⟩
  | cons i is ih =>
    rw [List.forall_mem_cons] at hfs
    obtain ⟨⟨hi, hno⟩, his⟩ := hfs
    obtain ⟨v, hv, hw⟩ := QuietlyReached.command h hrun hi (by simp [hno])
    obtain ⟨t, ht, hwt⟩ := ih hv his
    exact ⟨t, by rwa [List.append_cons], hwt.trans hw⟩

/-- The frames of `SetAddressMode` read no register. -/
theorem registerReads_not_mem_setModeFrames (c : Config) (w : AddrWidth) (j : JedecId) (en : Bool) :
    .rdid ∉ setModeFrames c w j en ∧ .rdsr ∉ setModeFrames c w j en := by
  have hswitch : ∀ k en, .rdid ∉ modeSwitch c k en ∧ .rdsr ∉ modeSwitch c k en := by
    intro k en
    cases k <;> cases en <;> simp [modeSwitch]
  have hexit : ∀ k, .rdid ∉ exitStep c k j ∧ .rdsr ∉ exitStep c k j := by
    intro k
    cases k with
    | wrear => by_cases hj : j = c.wrearSkipId <;> simp [exitStep, hj]
    | exhb | none => simp [exitStep]
  cases w with
  | three => simp [setModeFrames]
  | four => cases en <;> simp [setModeFrames, hswitch, hexit]

/-- So they receive nothing; and they carry no address. -/
theorem modeFrames_command (c : Config) (w : AddrWidth) (j : JedecId) (en : Bool) :
    ∀ i ∈ setModeFrames c w j en, IsCommand i ∧ i.addressed = false := by
  intro i hi
  obtain ⟨hrdid, hrdsr⟩ := registerReads_not_mem_setModeFrames c w j en
  obtain ⟨hframe, hplain⟩ : i.isHost = false ∧ i.addressed = false := by
    simpa [frameOk] using modeFrames_ok c w j en false i hi
  refine ⟨⟨hframe, ?_, ?_, ?_⟩, hplain⟩
  · rintro rfl
    exact hrdid hi
  · rintro rfl
    exact hrdsr hi
  · rintro a len rfl
    cases hplain

/-- `SetAddressMode` (R171). -/
theorem QuietlyReached.setMode {f : FlashConfig} {d : Descriptor} {en : Bool}
    (h : QuietlyReached s req sent (setModeFrames s.config f.addrWidth d.jedecId en ++ todo) reports
      (.setMode en :: ts) u) (hrun : s.runs) (hd : s.probedDevice = some (f, d)) :
    ∃ v, QuietlyReached s req (sent ++ setModeFrames s.config f.addrWidth d.jedecId en) todo reports ts v ∧
      v.work = u.work := by
  have he := settle_setMode (req := req) (h.setup.probedDevice.trans hd) en ts
  rw [h.setup.config] at he
  exact QuietlyReached.commands (h.lines (w := u.work) he) hrun (modeFrames_command _ _ _ _)

end

/-! ### The sector loop (R191, R192) -/

theorem isCommand_eraseFrame (c : Config) (f : FlashConfig) (a : Word) : IsCommand (eraseFrame c f a) := by
  unfold eraseFrame
  split_ifs <;> exact ⟨rfl, nofun, nofun, nofun⟩

/-- The address of sector number `k` of an `ERASE` from `addr` on. -/
def sectorAddr (f : FlashConfig) (addr : Word) (k : Nat) : Word := addr + BitVec.ofNat 32 (k * f.eraseGran.toNat)

theorem sectorAddr_zero (f : FlashConfig) (addr : Word) : sectorAddr f addr 0 = addr := by
  simp [sectorAddr]

theorem sectorAddr_succ (f : FlashConfig) (addr : Word) (k : Nat) :
    sectorAddr f addr k + f.eraseGran = sectorAddr f addr (k + 1) := by
  simp [sectorAddr, Nat.succ_mul, BitVec.ofNat_add, BitVec.add_assoc]

/-- The frames of one sector (R193). -/
def sectorFrames (c : Config) (f : FlashConfig) (addr : Word) (k : Nat) : List Instr :=
  [.wren, eraseFrame c f (sectorAddr f addr k), .rdsr]

/-- The frames of `m` sectors, from number `k` on. -/
def sectorsFrames (c : Config) (f : FlashConfig) (addr : Word) (k m : Nat) : List Instr :=
  (List.range' k m).flatMap (sectorFrames c f addr)

theorem sectorsFrames_succ (c : Config) (f : FlashConfig) (addr : Word) (k m : Nat) :
    sectorsFrames c f addr k (m + 1) = sectorFrames c f addr k ++ sectorsFrames c f addr (k + 1) m := rfl

theorem eraseFrames_eq_sectorsFrames (c : Config) (f : FlashConfig) (addr len : Word) :
    eraseFrames c f addr len = sectorsFrames c f addr 0 (len / f.eraseGran).toNat := by
  rw [eraseFrames, sectorsFrames, List.range_eq_range', BitVec.toNat_udiv]
  rfl

section
variable {s u : State} {req : Instr} {sent todo : List Instr} {reports : List Nat} {ts : List Task}
  {f : FlashConfig} {d : Descriptor} {addr total : Word} {k : Nat}
  (hrun : s.runs) (hd : s.probedDevice = some (f, d))
include hrun hd

/-- One sector: three frames, then the head of the loop again with the next sector's address, after a report (R247). -/
theorem QuietlyReached.sector {m : Nat} (hkm : k + 1 + m = total.toNat)
    (h : QuietlyReached s req sent (sectorFrames s.config f addr k ++ todo) reports
      (.send .wren :: .send (eraseFrame s.config f (sectorAddr f addr k)) :: polled [.eraseNext total] ++ ts) u)
    (ha : u.work.a = sectorAddr f addr k) (hn : u.work.n = BitVec.ofNat 32 (m + 1)) :
    ∃ v, QuietlyReached s req (sent ++ sectorFrames s.config f addr k) todo (reports ++ [percent (k + 1) total.toNat])
        (sectorLines s.config f (sectorAddr f addr (k + 1)) (BitVec.ofNat 32 m) total ++ ts) v ∧
      v.work.a = sectorAddr f addr (k + 1) ∧ v.work.n = BitVec.ofNat 32 m := by
  obtain ⟨u1, h1, w1⟩ := QuietlyReached.command h hrun isCommand_wren nofun
  obtain ⟨u2, h2, w2⟩ := h1.command hrun (isCommand_eraseFrame ..) fun _ => cfg_isSome_of_probedDevice hd
  obtain ⟨u3, h3, w3⟩ := h2.ready hrun
  have hw : u3.work = { u.work with sr := 0, rx := [0] } := by rw [w3, w2, w1]
  have ha' : u3.work.a + f.eraseGran = sectorAddr f addr (k + 1) := by
    rw [hw, ← sectorAddr_succ, ← ha]
  have hn' : u3.work.n - 1 = BitVec.ofNat 32 m := by
    rw [hw]
    show u.work.n - 1 = _
    rw [hn, BitVec.ofNat_add]
    exact BitVec.add_sub_cancel ..
  have hdone : (total - BitVec.ofNat 32 m).toNat = k + 1 := by
    have := total.isLt
    rw [BitVec.toNat_sub, BitVec.toNat_ofNat]
    omega
  have he := settle_eraseNext (req := req) (total := total) (h3.setup.probedDevice.trans hd) ha' hn' ts
  rw [hdone, h3.setup.config] at he
  have hsent : sent ++ sectorFrames s.config f addr k =
      sent ++ [.wren] ++ [eraseFrame s.config f (sectorAddr f addr k)] ++ [.rdsr] := by simp [sectorFrames]
  rw [hsent]
  exact ⟨_, h3.report he, rfl, rfl⟩

/-- All sectors that are left, from number `k` on. -/
theorem QuietlyReached.sectors {m : Nat} (hkm : k + m = total.toNat)
    (h : QuietlyReached s req sent (sectorsFrames s.config f addr k m ++ todo) reports
      (sectorLines s.config f (sectorAddr f addr k) (BitVec.ofNat 32 m) total ++ ts) u)
    (ha : u.work.a = sectorAddr f addr k) (hn : u.work.n = BitVec.ofNat 32 m) :
    ∃ v, QuietlyReached s req (sent ++ sectorsFrames s.config f addr k m) todo
      (reports ++ (List.range' k m).map fun j => percent (j + 1) total.toNat) ts v := by
  induction m generalizing k sent reports u with
  | zero => exact ⟨u, by simpa [sectorsFrames, sectorLines] using h⟩
  | succ m ih =>
    have hne : BitVec.ofNat 32 (m + 1) ≠ 0 := by
      have := total.isLt
      rw [ne_eq, ← BitVec.toNat_inj, BitVec.toNat_ofNat, Nat.mod_eq_of_lt (by omega)]
      exact Nat.succ_ne_zero m
    rw [sectorsFrames_succ, List.append_assoc, sectorLines, if_neg hne] at h
    obtain ⟨v, hv, hva, hvn⟩ := QuietlyReached.sector hrun hd (by omega) h ha hn
    obtain ⟨t, ht⟩ := ih (by omega) hv hva hvn
    refine ⟨t, ?_⟩
    simpa [sectorsFrames_succ, List.range'_succ] using ht

/-- The whole loop (R191). -/
theorem QuietlyReached.eraseBegin {len : Word}
    (h : QuietlyReached s req sent (eraseFrames s.config f addr len ++ todo) reports (.eraseBegin addr len :: ts) u) :
    ∃ v, QuietlyReached s req (sent ++ eraseFrames s.config f addr len) todo
      (reports ++ (List.range (len.toNat / f.eraseGran.toNat)).map
        fun k => percent (k + 1) (len.toNat / f.eraseGran.toNat)) ts v := by
  have he := settle_eraseBegin (req := req) (h.setup.probedDevice.trans hd) addr len ts
  rw [h.setup.config] at he
  have hnum : len.toNat / f.eraseGran.toNat = (len / f.eraseGran).toNat := BitVec.toNat_udiv.symm
  have hn : len / f.eraseGran = BitVec.ofNat 32 (len / f.eraseGran).toNat := by
    rw [BitVec.ofNat_toNat, BitVec.setWidth_eq]
  rw [eraseFrames_eq_sectorsFrames] at h ⊢
  rw [hnum, List.range_eq_range']
  refine QuietlyReached.sectors hrun hd (u := u.withWork { u.work with a := addr, n := len / f.eraseGran })
    (Nat.zero_add _) ?_ (sectorAddr_zero ..).symm hn
  rw [sectorAddr_zero, ← hn]
  exact h.lines he

end

/-- Settles O46: the bracket and the sector loop in it. -/
theorem eraseRunsWhole : Obligations.EraseRunsWhole := by
  intro s f d addr len ⟨hpin, hc, hs, q, rest, hh, hdec⟩ hp hd ha hr hquiet
  have hrun : s.runs := ⟨hpin, hc⟩
  have start : QuietlyReached s (.erase addr len) []
      (bracketed s.config f d (eraseFrames s.config f addr len)) [] _ _ :=
    Reached.start hrun hs hh hdec (exec_erase_accepted (s := { s with host := rest }) hs hp hd ha hr) hquiet
  have hframes : bracketed s.config f d (eraseFrames s.config f addr len) =
      [] ++ setModeFrames s.config f.addrWidth d.jedecId true ++ eraseFrames s.config f addr len ++
        setModeFrames s.config f.addrWidth d.jedecId false := rfl
  rw [bracketed, List.append_assoc] at start
  obtain ⟨u1, h1, -⟩ := start.setMode hrun hd
  obtain ⟨u2, h2⟩ := h1.eraseBegin hrun hd
  rw [← List.append_nil (setModeFrames s.config f.addrWidth d.jedecId false)] at h2
  obtain ⟨u3, h3, -⟩ := h2.setMode hrun hd
  rw [hframes]
  obtain ⟨t, z, ht, hidle, hresp, hsetup, hhost, hcalls, hprogress, -⟩ := Reached.returnOk h3 rfl
  exact ⟨t, z, ht, hidle, hresp, hsetup, hhost, hcalls, hprogress⟩

end Sys2Proof.Machine

namespace Sys2Proof.Machine

/-! ### The chunks of a page program (R211, R214) -/

/-- `min(N, PAGE_SIZE - (A mod PAGE_SIZE))` for `n` bytes from `a` on (R214). -/
def chunkLength (S : Nat) (a : Word) (n : Nat) : Nat := min n (S - a.toNat % S)

theorem chunkLength_le (S : Nat) (a : Word) (n : Nat) : chunkLength S a n ≤ n := Nat.min_le_left ..

theorem chunkLength_pos {S n : Nat} (hS : 1 ≤ S) (a : Word) (hn : 1 ≤ n) : 1 ≤ chunkLength S a n := by
  have := Nat.mod_lt a.toNat hS
  unfold chunkLength
  omega

theorem chunkLength_le_page (S : Nat) (a : Word) (n : Nat) : chunkLength S a n ≤ S - a.toNat % S :=
  Nat.min_le_right ..

theorem length_take_chunk (S : Nat) (a : Word) (data : List Byte) :
    (data.take (chunkLength S a data.length)).length = chunkLength S a data.length := by
  rw [List.length_take, Nat.min_eq_left (chunkLength_le ..)]

/-- An address below the top of the address space does not wrap. -/
theorem toNat_add_ofNat {a : Word} {n : Nat} (h : a.toNat + n < 2 ^ 32) :
    (a + BitVec.ofNat 32 n).toNat = a.toNat + n := by
  rw [BitVec.toNat_add, BitVec.toNat_ofNat]
  omega

/-- The address after a chunk. -/
def chunkEnd (S : Nat) (a : Word) (n : Nat) : Word := a + BitVec.ofNat 32 (chunkLength S a n)

/-- The frames of one chunk (R212). -/
def chunkFrames (a : Word) (d : List Byte) : List Instr := [.wren, .pp a d, .rdsr]

@[simp] theorem pageFrames_nil (S fuel : Nat) (a : Word) : pageFrames S fuel a [] = [] := by
  cases fuel <;> rfl

theorem pageFrames_succ (S fuel : Nat) (a : Word) {data : List Byte} (h : data ≠ []) :
    pageFrames S (fuel + 1) a data = chunkFrames a (data.take (chunkLength S a data.length)) ++
      pageFrames S fuel (chunkEnd S a data.length) (data.drop (chunkLength S a data.length)) := by
  obtain ⟨v, vs, rfl⟩ := List.exists_cons_of_ne_nil h
  rfl

/-- `l` is the list of chunks, address and bytes, that the law of R214 cuts the bytes `data` from `a` on into. -/
inductive PageChunks (S : Nat) : Word → List Byte → List (Word × List Byte) → Prop
  | done (a : Word) : PageChunks S a [] []
  | chunk {a : Word} {data : List Byte} {l : List (Word × List Byte)} (hne : data ≠ [])
      (more : PageChunks S (chunkEnd S a data.length) (data.drop (chunkLength S a data.length)) l) :
      PageChunks S a data ((a, data.take (chunkLength S a data.length)) :: l)

/-- The `PP` frames of the chunk loop are those chunks. -/
theorem programsOf_pageFrames {S fuel : Nat} (hS : 1 ≤ S) {a : Word} {data : List Byte} (hfuel : data.length ≤ fuel) :
    PageChunks S a data (programsOf (pageFrames S fuel a data)) := by
  induction fuel generalizing a data with
  | zero =>
    obtain rfl := List.eq_nil_of_length_eq_zero (Nat.le_zero.mp hfuel)
    exact .done a
  | succ fuel ih =>
    by_cases hne : data = []
    · subst hne
      exact .done a
    · have hpos := chunkLength_pos hS a (List.length_pos_iff.mpr hne)
      rw [pageFrames_succ S fuel a hne]
      exact .chunk hne (ih (by rw [List.length_drop]; omega))

section
variable {S : Nat} {a b : Word} {v data : List Byte} {l : List (Word × List Byte)} {k : Nat}

/-- There is a chunk exactly when there is a byte. -/
theorem PageChunks.eq_nil_iff (h : PageChunks S a data l) : l = [] ↔ data = [] := by
  cases h with
  | done => simp
  | chunk hne _ => simp [hne]

theorem PageChunks.flatMap_snd (h : PageChunks S a data l) : l.flatMap Prod.snd = data := by
  induction h with
  | done a => rfl
  | chunk hne _ ih => rw [List.flatMap_cons, ih, List.take_append_drop]

/-- A span below the top of the address space does not wrap. -/
theorem toNat_chunkEnd {n : Nat} (h : a.toNat + n < 2 ^ 32) : (chunkEnd S a n).toNat = a.toNat + chunkLength S a n := by
  have := chunkLength_le S a n
  exact toNat_add_ofNat (by omega)

/-- What is left after a chunk does not wrap either. -/
theorem span_drop_chunk (h : a.toNat + data.length < 2 ^ 32) :
    (chunkEnd S a data.length).toNat + (data.drop (chunkLength S a data.length)).length < 2 ^ 32 := by
  have := chunkLength_le S a data.length
  rw [toNat_chunkEnd h, List.length_drop]
  omega

/-- A chunk after which bytes are left goes to the end of its page. -/
theorem chunkLength_of_more (h : data.drop (chunkLength S a data.length) ≠ []) :
    chunkLength S a data.length = S - a.toNat % S := by
  rw [ne_eq, List.drop_eq_nil_iff] at h
  unfold chunkLength at h ⊢
  omega

/-- So the next one starts with a page. -/
theorem chunkEnd_aligned (hS : 1 ≤ S) (hspan : a.toNat + data.length < 2 ^ 32)
    (h : data.drop (chunkLength S a data.length) ≠ []) : (chunkEnd S a data.length).toNat % S = 0 := by
  have := Nat.mod_lt a.toNat hS
  have hdiv := Nat.div_add_mod a.toNat S
  have hend : a.toNat + (S - a.toNat % S) = S * (a.toNat / S + 1) := by rw [Nat.mul_succ]; omega
  rw [toNat_chunkEnd hspan, chunkLength_of_more h, hend, Nat.mul_mod_right]

/-- Chunk number `k` starts where the ones before it end. -/
theorem PageChunks.address (h : PageChunks S a data l) (hspan : a.toNat + data.length < 2 ^ 32)
    (hk : l[k]? = some (b, v)) : b.toNat = a.toNat + ((l.take k).map fun p => p.2.length).sum := by
  induction h generalizing k with
  | done a => cases hk
  | chunk hne _ ih =>
    cases k with
    | zero =>
      cases hk
      rfl
    | succ k =>
      rw [ih (span_drop_chunk hspan) hk, toNat_chunkEnd hspan, List.take_succ_cons, List.map_cons, List.sum_cons,
        length_take_chunk, Nat.add_assoc]

/-- The first chunk has the length of the law. -/
theorem PageChunks.length_first (h : PageChunks S a data l) (hk : l[0]? = some (b, v)) :
    v.length = chunkLength S a data.length := by
  cases h with
  | done => cases hk
  | chunk hne more =>
    cases hk
    exact length_take_chunk S a data

/-- A chunk has a byte, and stays in its page. -/
theorem PageChunks.inside (h : PageChunks S a data l) (hS : 1 ≤ S) (hmem : (b, v) ∈ l) :
    1 ≤ v.length ∧ b.toNat / S = (b.toNat + v.length - 1) / S := by
  induction h with
  | done a => cases hmem
  | @chunk a data l hne _ ih =>
    rcases List.mem_cons.mp hmem with heq | hmem
    · obtain ⟨rfl, rfl⟩ := Prod.mk.inj heq
      have hpos := chunkLength_pos hS b (List.length_pos_iff.mpr hne)
      have hpage := chunkLength_le_page S b data.length
      have hdiv := Nat.div_add_mod' b.toNat S
      rw [length_take_chunk]
      exact ⟨hpos, ((Nat.div_eq_iff hS).mpr (by omega)).symm⟩
    · exact ih hmem

/-- Every chunk that follows another one, or starts with a page, is a page, but for the last. -/
theorem PageChunks.length_inner (h : PageChunks S a data l) (hS : 1 ≤ S) (hspan : a.toNat + data.length < 2 ^ 32)
    (hstart : a.toNat % S = 0 ∨ 1 ≤ k) (hk : l[k]? = some (b, v)) (hlast : k + 1 < l.length) : v.length = S := by
  induction h generalizing k with
  | done a => cases hk
  | @chunk a data l hne more ih =>
    have hmore : data.drop (chunkLength S a data.length) ≠ [] := by
      rintro hnil
      rw [more.eq_nil_iff.mpr hnil] at hlast
      exact absurd hlast (by simp)
    cases k with
    | zero =>
      have ha : a.toNat % S = 0 := by simpa using hstart
      cases hk
      rw [length_take_chunk, chunkLength_of_more hmore, ha, Nat.sub_zero]
    | succ k =>
      exact ih (span_drop_chunk hspan) (.inl (chunkEnd_aligned hS hspan hmore)) hk (Nat.lt_of_succ_lt_succ hlast)

/-- The number of chunks: the bytes from the start of the first page on, in pages, rounded up. -/
theorem PageChunks.length_eq (h : PageChunks S a data l) (hS : 1 ≤ S) (hspan : a.toNat + data.length < 2 ^ 32)
    (hne : data ≠ []) : l.length = (a.toNat % S + data.length + S - 1) / S := by
  induction h with
  | done a => exact absurd rfl hne
  | @chunk a data l hne more ih =>
    have hmod := Nat.mod_lt a.toNat hS
    by_cases hmore : data.drop (chunkLength S a data.length) = []
    · have hlen : data.length ≤ chunkLength S a data.length := List.drop_eq_nil_iff.mp hmore
      have hpage := chunkLength_le_page S a data.length
      have hpos := List.length_pos_iff.mpr hne
      rw [more.eq_nil_iff.mpr hmore]
      exact ((Nat.div_eq_iff hS).mpr (by rw [List.length_singleton]; omega)).symm
    · have hlen := chunkLength_of_more hmore
      have hle := chunkLength_le S a data.length
      have htotal : a.toNat % S + data.length + S - 1 = (data.length - (S - a.toNat % S)) + S - 1 + S := by omega
      rw [List.length_cons, ih (span_drop_chunk hspan) hmore, chunkEnd_aligned hS hspan hmore, htotal,
        Nat.add_div_right _ hS, List.length_drop, hlen, Nat.zero_add]

end

/-- Settles O51: the `PP` frames are the chunks of the law (`programsOf_pageFrames`), and those have its properties. -/
theorem pageChunksPartitionTheSpan : Obligations.PageChunksPartitionTheSpan := by
  intro S addr data hS hspan hne
  have hchunks : PageChunks S addr data (programsOf (pageFrames S data.length addr data)) :=
    programsOf_pageFrames hS le_rfl
  refine ⟨_, rfl, hchunks.flatMap_snd, hchunks.length_eq hS hspan hne, fun k a v hk => ?_⟩
  obtain ⟨hpos, hpage⟩ := hchunks.inside hS (List.mem_of_getElem? hk)
  refine ⟨hchunks.address hspan hk, hpos, hpage, ?_, fun h1 => hchunks.length_inner hS hspan (.inr h1) hk⟩
  rintro rfl
  exact hchunks.length_first hk

end Sys2Proof.Machine

namespace Sys2Proof.Machine

/-! ### The frames of the auto-increment path (R216, R220, R221) -/

/-- The path with a leading byte, at an odd address, and without one (R216). -/
theorem aaiFrames_cases (addr : Word) (data : List Byte) :
    (min data.length (addr.toNat % 2) = 0 ∧ aaiFrames addr data = .wren :: burstFrames true addr data) ∨
    ∃ v vs, data = v :: vs ∧ addr.toNat % 2 = 1 ∧
      aaiFrames addr data = byteFrames addr v ++ .wren :: burstFrames true (addr + 1) vs := by
  cases data with
  | nil => exact .inl ⟨Nat.zero_min _, rfl⟩
  | cons v vs =>
    by_cases hodd : addr.toNat % 2 = 1
    · exact .inr ⟨v, vs, rfl, hodd, by simp [aaiFrames, hodd]⟩
    · have heven : addr.toNat % 2 = 0 := by omega
      exact .inl ⟨by rw [heven, Nat.min_zero], if_neg hodd⟩

/-- A burst, with the address or without (R218, R219). -/
def burstFrame (first : Bool) (a : Word) (d0 d1 : Byte) : Instr :=
  if first then .aaiFirst a d0 d1 else .aaiNext d0 d1

theorem burstFrames_cons (first : Bool) (a : Word) (d0 d1 : Byte) (ds : List Byte) :
    burstFrames first a (d0 :: d1 :: ds) = burstFrame first a d0 d1 :: .rdsr :: burstFrames false (a + 2) ds := rfl

theorem isBurst_burstFrame (first : Bool) (a : Word) (d0 d1 : Byte) : isBurst (burstFrame first a d0 d1) = true := by
  cases first <;> rfl

theorem dataOf_burst (first : Bool) (a : Word) (d0 d1 : Byte) (is : List Instr) :
    dataOf (burstFrame first a d0 d1 :: is) = d0 :: d1 :: dataOf is := by
  cases first <;> rfl

theorem programsOf_burst (first : Bool) (a : Word) (d0 d1 : Byte) (is : List Instr) :
    programsOf (burstFrame first a d0 d1 :: is) = programsOf is := by
  cases first <;> rfl

/-- The bursts and the trailing byte program all bytes, in order. -/
theorem dataOf_burstFrames : ∀ (first : Bool) (a : Word) (data : List Byte),
    dataOf (burstFrames first a data) = data
  | first, a, d0 :: d1 :: ds => by
    rw [burstFrames_cons, dataOf_burst]
    exact congrArg (d0 :: d1 :: ·) (dataOf_burstFrames false (a + 2) ds)
  | _, _, [_] => rfl
  | _, _, [] => rfl

/-- Only the first burst carries an address, that of the first byte. -/
theorem aaiFirst_mem_burstFrames {b : Word} {e0 e1 : Byte} : ∀ {first : Bool} {a : Word} {data : List Byte},
    .aaiFirst b e0 e1 ∈ burstFrames first a data → first = true ∧ b = a
  | first, a, d0 :: d1 :: ds, h => by
    rw [burstFrames_cons, List.mem_cons, List.mem_cons] at h
    obtain h | h | h := h
    · cases first with
      | true => cases h; exact ⟨rfl, rfl⟩
      | false => cases h
    · cases h
    · cases (aaiFirst_mem_burstFrames h).1
  | _, _, [_], h => by simp [burstFrames, byteFrames] at h
  | _, _, [], h => by simp [burstFrames] at h

/-- The single-byte program after the bursts carries the last byte. -/
theorem pp_mem_burstFrames {b : Word} {v : List Byte} : ∀ {first : Bool} {a : Word} {data : List Byte},
    a.toNat + data.length < 2 ^ 32 → .pp b v ∈ burstFrames first a data →
    b.toNat + 1 = a.toNat + data.length ∧ ∃ x, v = [x] ∧ data.getLast? = some x
  | first, a, d0 :: d1 :: ds, hspan, h => by
    rw [burstFrames_cons, List.mem_cons, List.mem_cons] at h
    rw [List.length_cons, List.length_cons] at hspan ⊢
    obtain h | h | h := h
    · cases first <;> cases h
    · cases h
    · have ha : (a + 2).toNat = a.toNat + 2 := toNat_add_ofNat (n := 2) (by omega)
      obtain ⟨hb, x, hv, hlast⟩ := pp_mem_burstFrames (by omega) h
      exact ⟨by omega, x, hv, by simp [List.getLast?_cons, hlast]⟩
  | _, _, [_], _, h => by
    obtain ⟨rfl, rfl⟩ : b = _ ∧ v = _ := by simpa [burstFrames, byteFrames] using h
    exact ⟨rfl, _, rfl, rfl⟩
  | _, _, [], _, h => by simp [burstFrames] at h

theorem drop_of_getLast? {l : List Byte} {x : Byte} (h : l.getLast? = some x) : l.drop (l.length - 1) = [x] := by
  obtain ⟨init, rfl⟩ := List.getLast?_eq_some_iff.mp h
  simp

/-- Settles O52: the leading byte, where there is one, and then the facts about the bursts. -/
theorem autoIncrementSendsEveryByteOnce : Obligations.AutoIncrementSendsEveryByteOnce := by
  intro addr data hspan
  obtain ⟨hlead, heq⟩ | ⟨v, vs, rfl, hodd, heq⟩ := aaiFrames_cases addr data
  · rw [heq]
    refine ⟨dataOf_burstFrames true addr data, fun a d0 d1 h => ?_, fun a v h => ?_⟩
    · have hmem : .aaiFirst a d0 d1 ∈ burstFrames true addr data := by simpa using h
      have hne : data ≠ [] := by
        rintro rfl
        simp [burstFrames] at hmem
      obtain ⟨-, rfl⟩ := aaiFirst_mem_burstFrames hmem
      have := List.length_pos_iff.mpr hne
      omega
    · obtain ⟨ha, x, rfl, hlast⟩ := pp_mem_burstFrames hspan (by simpa using h)
      exact ⟨rfl, .inr ⟨ha, (drop_of_getLast? hlast).symm⟩⟩
  · rw [List.length_cons] at hspan
    have haddr : (addr + 1).toNat = addr.toNat + 1 := toNat_add_ofNat (n := 1) (by omega)
    rw [heq]
    refine ⟨congrArg (v :: ·) (dataOf_burstFrames true (addr + 1) vs), fun a d0 d1 h => ?_, fun a w h => ?_⟩
    · have hmem : .aaiFirst a d0 d1 ∈ burstFrames true (addr + 1) vs := by simpa [byteFrames] using h
      obtain ⟨-, rfl⟩ := aaiFirst_mem_burstFrames hmem
      omega
    · have hmem : (a = addr ∧ w = [v]) ∨ .pp a w ∈ burstFrames true (addr + 1) vs := by simpa [byteFrames] using h
      obtain ⟨rfl, rfl⟩ | hmem := hmem
      · exact ⟨rfl, .inl ⟨rfl, rfl⟩⟩
      · obtain ⟨ha, x, rfl, hlast⟩ := pp_mem_burstFrames (by omega) hmem
        have hlast' : (v :: vs).getLast? = some x := by simp [List.getLast?_cons, hlast]
        exact ⟨rfl, .inr ⟨by rw [List.length_cons]; omega, (drop_of_getLast? hlast').symm⟩⟩

/-- The frames of the burst phase and the trailing byte, counted. -/
theorem burstFrames_counts : ∀ (first : Bool) (a : Word) (data : List Byte),
    (programsOf (burstFrames first a data)).length = data.length % 2 ∧
    (burstFrames first a data).countP isBurst = data.length / 2 ∧
    (burstFrames first a data).countP (fun i => i = .wren) = data.length % 2 ∧
    (burstFrames first a data).countP (fun i => i = .rdsr) = data.length / 2 + 1 + data.length % 2
  | first, a, d0 :: d1 :: ds => by
    obtain ⟨hpp, haai, hwren, hrdsr⟩ := burstFrames_counts false (a + 2) ds
    have hlen : (d0 :: d1 :: ds).length = ds.length + 2 := rfl
    rw [burstFrames_cons, programsOf_burst, hlen, Nat.add_mod_right, Nat.add_div_right _ two_pos]
    refine ⟨hpp, ?_, ?_, ?_⟩
    · rw [List.countP_cons_of_pos (isBurst_burstFrame ..), List.countP_cons_of_neg (by simp [isBurst]), haai]
    · rw [List.countP_cons_of_neg (by cases first <;> simp [burstFrame]), List.countP_cons_of_neg (by simp), hwren]
    · rw [List.countP_cons_of_neg (by cases first <;> simp [burstFrame]), List.countP_cons_of_pos (by simp), hrdsr]
      omega
  | _, _, [_] => by simp [burstFrames, byteFrames, programsOf, isBurst]
  | _, _, [] => by simp [burstFrames, programsOf, isBurst]

/-- Settles O53: the counts of the burst phase, and the leading byte's three frames where there is one. -/
theorem autoIncrementFrameCounts : Obligations.AutoIncrementFrameCounts := by
  intro addr data m pp aai wren rdsr h
  simp only [Prod.mk.injEq] at h
  obtain ⟨hlead, heq⟩ | ⟨v, vs, rfl, hodd, heq⟩ := aaiFrames_cases addr data
  · obtain ⟨hpp, haai, hwren, hrdsr⟩ := burstFrames_counts true addr data
    have : (programsOf (aaiFrames addr data)).length = data.length % 2 := by simpa [heq, programsOf] using hpp
    have : (aaiFrames addr data).countP isBurst = data.length / 2 := by simpa [heq, isBurst] using haai
    have : (aaiFrames addr data).countP (fun i => i = .wren) = data.length % 2 + 1 := by simpa [heq] using hwren
    have : (aaiFrames addr data).countP (fun i => i = .rdsr) = data.length / 2 + 1 + data.length % 2 := by
      simpa [heq] using hrdsr
    obtain h | h | h | h | h := h <;> omega
  · obtain ⟨hpp, haai, hwren, hrdsr⟩ := burstFrames_counts true (addr + 1) vs
    rw [List.length_cons] at h
    have : (programsOf (aaiFrames addr (v :: vs))).length = vs.length % 2 + 1 := by
      simpa [heq, byteFrames, programsOf] using hpp
    have : (aaiFrames addr (v :: vs)).countP isBurst = vs.length / 2 := by
      simpa [heq, byteFrames, isBurst] using haai
    have : (aaiFrames addr (v :: vs)).countP (fun i => i = .wren) = vs.length % 2 + 2 := by
      simpa [heq, byteFrames] using hwren
    have : (aaiFrames addr (v :: vs)).countP (fun i => i = .rdsr) = vs.length / 2 + 1 + vs.length % 2 + 1 := by
      simpa [heq, byteFrames] using hrdsr
    obtain h | h | h | h | h := h <;> omega

end Sys2Proof.Machine

namespace Sys2Proof.Machine

/-! ### `WRITE`: a program and its poll (R212, R217) -/

theorem isCommand_pp (a : Word) (d : List Byte) : IsCommand (.pp a d) := ⟨rfl, nofun, nofun, nofun⟩

/-- The working registers after a poll that finds the device ready. -/
def Work.polledReady (w : Work) : Work := { w with sr := 0, rx := [0] }

section
variable {s u : State} {req i : Instr} {sent todo : List Instr} {reports : List Nat} {ts after : List Task}

/-- A command frame and the poll after it. -/
theorem QuietlyReached.polled
    (h : QuietlyReached s req sent (i :: .rdsr :: todo) reports (.send i :: Machine.polled after ++ ts) u)
    (hrun : s.runs) (hi : IsCommand i) (hcfg : i.addressed = true → s.cfg.isSome = true) :
    ∃ v, QuietlyReached s req (sent ++ [i, .rdsr]) todo reports (after ++ ts) v ∧ v.work = u.work.polledReady := by
  obtain ⟨u1, h1, w1⟩ := QuietlyReached.command h hrun hi hcfg
  obtain ⟨u2, h2, w2⟩ := h1.ready hrun
  rw [List.append_cons, ← w1]
  exact ⟨u2, h2, w2⟩

/-- `ProgramChunk` (R212). -/
theorem QuietlyReached.program {a : Word} {d : List Byte}
    (h : QuietlyReached s req sent (chunkFrames a d ++ todo) reports
      (.send .wren :: .send (.pp a d) :: Machine.polled after ++ ts) u)
    (hrun : s.runs) (hcfg : s.cfg.isSome = true) :
    ∃ v, QuietlyReached s req (sent ++ chunkFrames a d) todo reports (after ++ ts) v ∧
      v.work = u.work.polledReady := by
  obtain ⟨u1, h1, w1⟩ := QuietlyReached.command h hrun isCommand_wren nofun
  obtain ⟨u2, h2, w2⟩ := QuietlyReached.polled h1 hrun (isCommand_pp a d) fun _ => hcfg
  rw [chunkFrames, List.append_cons, ← w1]
  exact ⟨u2, h2, w2⟩

end

/-- The working registers `A`, `P`, `N` of a `WRITE`: at the address `a`, with `p` bytes sent and `n` to send. -/
structure Work.At (w : Work) (a : Word) (p n : Nat) : Prop where
  a : w.a = a
  p : w.p = BitVec.ofNat 32 p
  n : w.n = BitVec.ofNat 32 n

/-- The working registers, moved there. -/
def Work.moveTo (w : Work) (a : Word) (p n : Nat) : Work :=
  { w with a := a, p := BitVec.ofNat 32 p, n := BitVec.ofNat 32 n }

theorem Work.at_moveTo (w : Work) (a : Word) (p n : Nat) : (w.moveTo a p n).At a p n := ⟨rfl, rfl, rfl⟩

theorem Work.At.polledReady {w : Work} {a : Word} {p n : Nat} (h : w.At a p n) : w.polledReady.At a p n :=
  ⟨h.a, h.p, h.n⟩

theorem ofNat_sub_ofNat {m n : Nat} (h : m ≤ n) :
    BitVec.ofNat 32 n - BitVec.ofNat 32 m = BitVec.ofNat 32 (n - m) := by
  obtain ⟨k, rfl⟩ := Nat.exists_eq_add_of_le' h
  rw [BitVec.ofNat_add, BitVec.add_sub_cancel, Nat.add_sub_cancel]

theorem toNat_ofNat_of_lt {n : Nat} (h : n < 2 ^ 32) : (BitVec.ofNat 32 n).toNat = n := by
  rw [BitVec.toNat_ofNat, Nat.mod_eq_of_lt h]

/-! ### The chunk loop (R211) -/

theorem chunkLines_zero (c : Config) (data : List Byte) (a p : Word) : chunkLines c data a p 0#32 = [] := by
  rw [chunkLines]
  exact if_pos rfl

/-- While bytes are left, the lines of the loop program the next chunk of them. -/
theorem chunkLines_of_left {c : Config} {data left : List Byte} {a : Word} {p : Nat} (hleft : data.drop p = left)
    (hne : left ≠ []) (hdata : data.length < 2 ^ 32) :
    chunkLines c data a (BitVec.ofNat 32 p) (BitVec.ofNat 32 left.length) =
      .send .wren :: .send (.pp a (left.take (chunkLength c.pageSize a left.length))) ::
        polled [.pageNext (BitVec.ofNat 32 (chunkLength c.pageSize a left.length))] := by
  have hlen : data.length - p = left.length := by rw [← hleft, List.length_drop]
  have hpos := List.length_pos_iff.mpr hne
  have hle := chunkLength_le c.pageSize a left.length
  have hn : (BitVec.ofNat 32 left.length).toNat = left.length := toNat_ofNat_of_lt (by omega)
  have hzero : BitVec.ofNat 32 left.length ≠ 0 := fun h => by
    rw [h] at hn
    exact hpos.ne hn
  have hchunk : pageChunk c.pageSize a (BitVec.ofNat 32 left.length) =
      BitVec.ofNat 32 (chunkLength c.pageSize a left.length) := by rw [pageChunk, hn, chunkLength]
  rw [chunkLines, if_neg hzero, hchunk, dataSlice, toNat_ofNat_of_lt (by omega), toNat_ofNat_of_lt (by omega), hleft]

/-- After a chunk of `c` bytes it is gone on that much further, after the report (R247). -/
theorem settle_pageNext {req : Instr} {u : State} {a : Word} {p n c : Nat} (hw : u.work.At a p n) (hc : c ≤ n)
    (hp : p + c < 2 ^ 32) (ts : List Task) : settle req (.pageNext (BitVec.ofNat 32 c) :: ts) u =
      settle req (chunkLines u.config (reqData req) (a + BitVec.ofNat 32 c) (BitVec.ofNat 32 (p + c))
          (BitVec.ofNat 32 (n - c)) ++ ts)
        ((u.withWork (u.work.moveTo (a + BitVec.ofNat 32 c) (p + c) (n - c))).progress (p + c)
          (reqData req).length) := by
  obtain ⟨ha, hwp, hwn⟩ := hw
  refine settle_of_pageLoop (v := (u.withWork (u.work.moveTo _ _ _)).progress _ _) ?_ ts
  show pageNext u (reqData req) (BitVec.ofNat 32 c) = _
  rw [pageNext, ha, hwp, hwn, ← BitVec.ofNat_add, ofNat_sub_ofNat hc, toNat_ofNat_of_lt hp]
  rfl

/-- The reports of the chunk loop over the bytes `left` from `a` on, after `p` of `total` bytes (R247). -/
def pageReports (S fuel : Nat) (a : Word) (p total : Nat) (left : List Byte) : List Nat :=
  (runningTotals p ((programsOf (pageFrames S fuel a left)).map fun q => q.2.length)).map fun n => percent n total

theorem pageReports_nil (S fuel : Nat) (a : Word) (p total : Nat) : pageReports S fuel a p total [] = [] := by
  rw [pageReports, pageFrames_nil]
  rfl

theorem pageReports_succ (S fuel : Nat) (a : Word) (p total : Nat) {left : List Byte} (h : left ≠ []) :
    pageReports S (fuel + 1) a p total left = percent (p + chunkLength S a left.length) total ::
      pageReports S fuel (chunkEnd S a left.length) (p + chunkLength S a left.length) total
        (left.drop (chunkLength S a left.length)) := by
  have hprograms : programsOf (pageFrames S (fuel + 1) a left) = (a, left.take (chunkLength S a left.length)) ::
      programsOf (pageFrames S fuel (chunkEnd S a left.length) (left.drop (chunkLength S a left.length))) := by
    rw [pageFrames_succ S fuel a h]
    rfl
  rw [pageReports, hprograms, List.map_cons, length_take_chunk]
  rfl

section
variable {s u : State} {req : Instr} {sent todo : List Instr} {reports : List Nat} {ts : List Task} {a : Word}
  {p : Nat} {left : List Byte} (hrun : s.runs) (hcfg : s.cfg.isSome = true) (hdata : (reqData req).length < 2 ^ 32)
include hrun hcfg hdata

/-- All chunks of the bytes that are left. -/
theorem QuietlyReached.chunks {fuel : Nat} (hfuel : left.length ≤ fuel) (hleft : (reqData req).drop p = left)
    (h : QuietlyReached s req sent (pageFrames s.config.pageSize fuel a left ++ todo) reports
      (chunkLines s.config (reqData req) a (BitVec.ofNat 32 p) (BitVec.ofNat 32 left.length) ++ ts) u)
    (hw : u.work.At a p left.length) :
    ∃ v, QuietlyReached s req (sent ++ pageFrames s.config.pageSize fuel a left) todo
      (reports ++ pageReports s.config.pageSize fuel a p (reqData req).length left) ts v := by
  induction fuel generalizing a p left sent reports u with
  | zero =>
    obtain rfl := List.eq_nil_of_length_eq_zero (Nat.le_zero.mp hfuel)
    exact ⟨u, by simpa [pageReports_nil, chunkLines_zero] using h⟩
  | succ fuel ih =>
    by_cases hne : left = []
    · subst hne
      exact ⟨u, by simpa [pageReports_nil, chunkLines_zero] using h⟩
    · have hpos := chunkLength_pos (configRuns_pageSize hrun.2) a (List.length_pos_iff.mpr hne)
      have hle := chunkLength_le s.config.pageSize a left.length
      have hlen : (reqData req).length - p = left.length := by rw [← hleft, List.length_drop]
      rw [pageFrames_succ _ fuel a hne, List.append_assoc, chunkLines_of_left hleft hne hdata] at h
      obtain ⟨u1, h1, w1⟩ := QuietlyReached.program h hrun hcfg
      have he := settle_pageNext (req := req) (w1 ▸ hw.polledReady) hle (by omega) ts
      rw [h1.setup.config, ← List.length_drop] at he
      obtain ⟨v, hv⟩ := ih (by rw [List.length_drop]; omega) (by rw [← hleft, List.drop_drop]) (Reached.report h1 he)
        (Work.at_moveTo ..)
      refine ⟨v, ?_⟩
      rw [pageFrames_succ _ fuel a hne, pageReports_succ _ fuel a p _ hne, ← List.append_assoc, List.append_cons]
      exact hv

/-- The whole loop. -/
theorem QuietlyReached.pageBegin
    (h : QuietlyReached s req sent (pageFrames s.config.pageSize (reqData req).length a (reqData req) ++ todo) reports
      (.pageBegin a (BitVec.ofNat 32 (reqData req).length) :: ts) u) :
    ∃ v, QuietlyReached s req (sent ++ pageFrames s.config.pageSize (reqData req).length a (reqData req)) todo
      (reports ++ pageReports s.config.pageSize (reqData req).length a 0 (reqData req).length (reqData req)) ts v := by
  have he := settle_pageBegin (req := req) (u := u) a (BitVec.ofNat 32 (reqData req).length) ts
  rw [h.setup.config] at he
  exact QuietlyReached.chunks hrun hcfg hdata (p := 0) le_rfl rfl (h.lines he) ⟨rfl, rfl, rfl⟩

end

/-- A `WRITE` whose checks pass runs to its end, if its body does between the two calls of `SetAddressMode` (R184). -/
theorem write_runs_whole {s : State} {f : FlashConfig} {d : Descriptor} {addr : Word} {data : List Byte}
    {body : List Instr} {reports : List Nat} {ts : List Task}
    (hpres : s.presents (.write addr data)) (hp : s.probed = true) (hd : s.probedDevice = some (f, d))
    (hr : addr.toNat + data.length ≤ d.capacity.toNat)
    (hts : (if f.aai then writeAAI addr (BitVec.ofNat 32 data.length)
      else writePages addr (BitVec.ofNat 32 data.length)) = .setMode true :: (ts ++ [.setMode false]))
    (hquiet : s.quiet (framesCalls s.config s.width (bracketed s.config f d body)).length)
    (hbody : ∀ {sent todo u}, QuietlyReached s (.write addr data) sent (body ++ todo) [] (ts ++ [.setMode false]) u →
      ∃ v, QuietlyReached s (.write addr data) (sent ++ body) todo reports [.setMode false] v) :
    ∃ t z, run ((framesCalls s.config s.width (bracketed s.config f d body)).length + 1) s = .next t ∧
      t.seq = .idle ∧ t.resp = some ⟨.ok, z, none⟩ ∧ s.sameSetup t ∧ t.host = s.host.tail ∧
      callsOf t.trace = callsOf s.trace ++ framesCalls s.config s.width (bracketed s.config f d body) ∧
      progressOf t.trace = progressOf s.trace ++ reports := by
  obtain ⟨hpin, hc, hs, q, rest, hh, hdec⟩ := hpres
  have hrun : s.runs := ⟨hpin, hc⟩
  have start : QuietlyReached s (.write addr data) [] (bracketed s.config f d body) [] _ _ :=
    Reached.start hrun hs hh hdec (exec_write_accepted (s := { s with host := rest }) hs hp hd hr) hquiet
  rw [hts, bracketed, List.append_assoc] at start
  obtain ⟨u1, h1, -⟩ := start.setMode hrun hd
  obtain ⟨u2, h2⟩ := hbody h1
  rw [← List.append_nil (setModeFrames s.config f.addrWidth d.jedecId false)] at h2
  obtain ⟨u3, h3, -⟩ := h2.setMode hrun hd
  obtain ⟨t, z, ht, hidle, hresp, hsetup, hhost, hcalls, hprogress, -⟩ := Reached.returnOk h3 rfl
  exact ⟨t, z, ht, hidle, hresp, hsetup, hhost, hcalls, hprogress⟩

/-- A span inside the capacity has a 32-bit length. -/
theorem length_lt_of_inside {addr : Word} {data : List Byte} {d : Descriptor}
    (h : addr.toNat + data.length ≤ d.capacity.toNat) : data.length < 2 ^ 32 := by
  have := d.capacity.isLt
  omega

/-- Settles O47: the bracket and the chunk loop in it. -/
theorem pageWriteRunsWhole : Obligations.PageWriteRunsWhole := by
  intro s f d addr data hpres hp hd haai hr hquiet
  have hrun : s.runs := ⟨hpres.1, hpres.2.1⟩
  exact write_runs_whole (ts := [.pageBegin addr _]) hpres hp hd hr (by rw [haai]; rfl) hquiet
    (QuietlyReached.pageBegin (req := .write addr data) hrun (cfg_isSome_of_probedDevice hd) (length_lt_of_inside hr))

end Sys2Proof.Machine

namespace Sys2Proof.Machine

/-! ### `WRITE` on the auto-increment path (R216) -/

theorem isCommand_wrdi : IsCommand .wrdi := ⟨rfl, nofun, nofun, nofun⟩

theorem isCommand_burstFrame (first : Bool) (a : Word) (d0 d1 : Byte) : IsCommand (burstFrame first a d0 d1) := by
  cases first <;> exact ⟨rfl, nofun, nofun, nofun⟩

theorem dataAt_of_drop {data ds : List Byte} {p : Nat} {x : Byte} (h : data.drop p = x :: ds) : dataAt data p = x := by
  rw [dataAt, List.getD_eq_getElem?_getD, ← List.head?_drop, h]
  rfl

/-- The working registers after `j` bursts, with `lead` bytes sent before them (R216). -/
structure Work.AtBurst (w : Work) (a : Word) (lead n j : Nat) : Prop extends w.At a (lead + 2 * j) n where
  q : w.q = BitVec.ofNat 32 (2 * j)

theorem Work.AtBurst.polledReady {w : Work} {a : Word} {lead n j : Nat} (h : w.AtBurst a lead n j) :
    w.polledReady.AtBurst a lead n j :=
  ⟨h.toAt.polledReady, h.q⟩

/-- The working registers one burst further. -/
def Work.nextBurst (w : Work) (a : Word) (lead n j : Nat) : Work :=
  { w.moveTo (a + 2) (lead + 2 * (j + 1)) n with q := BitVec.ofNat 32 (2 * (j + 1)) }

theorem Work.atBurst_nextBurst (w : Work) (a : Word) (lead n j : Nat) :
    (w.nextBurst a lead n j).AtBurst (a + 2) lead n (j + 1) := ⟨⟨rfl, rfl, rfl⟩, rfl⟩

/-- The lines of the burst loop that come before the loop's end, or before its next round (R216). -/
def burstLines (c : Config) (data : List Byte) (w : Work) : List Task :=
  if w.q.toNat < c.fixed.aaiUnit * (w.n.toNat / c.fixed.aaiUnit) then
    .send (burstFrame (w.q == 0) w.a (dataAt data w.p.toNat) (dataAt data (w.p.toNat + 1))) :: polled [.aaiNext]
  else []

/-- The lines of the trailing byte, if there is one (R216, R217). -/
def tailLines (data : List Byte) (w : Work) : List Task :=
  if w.n.toNat % 2 = 1 then .send .wren :: .send (.pp w.a [dataAt data w.p.toNat]) :: polled [] else []

section
variable {req : Instr} {u v : State} {t : Task} {a : Word} {lead n j : Nat}

/-- The head of the burst loop: it is left, or a burst is sent. -/
theorem settle_of_aaiLoop {data : List Byte} (h : react req u t = aaiLoop v data) (ts : List Task) :
    settle req (t :: ts) u = settle req (burstLines v.config data v.work ++ ts) v := by
  by_cases hq : v.work.q.toNat < v.config.fixed.aaiUnit * (v.work.n.toNat / v.config.fixed.aaiUnit)
  · rw [burstLines, if_pos hq]
    refine settle_of_send (h.trans ((if_pos hq).trans ?_)) ts
    simp only [burstFrame, beq_iff_eq]
  · rw [burstLines, if_neg hq]
    exact settle_of_fall (h.trans (if_neg hq)) ts

theorem settle_aaiLoop (ts : List Task) :
    settle req (.aaiLoop :: ts) u = settle req (burstLines u.config (reqData req) u.work ++ ts) u :=
  settle_of_aaiLoop rfl ts

/-- After the leading byte it is gone on one byte further. -/
theorem settle_aaiLead (hw : u.work.At a 0 n) (hn : 1 ≤ n) (ts : List Task) :
    settle req (.aaiLead :: ts) u = settle req ts (u.withWork (u.work.moveTo (a + 1) 1 (n - 1))) := by
  obtain ⟨ha, -, hwn⟩ := hw
  refine settle_of_fall ?_ ts
  show aaiLead u = _
  rw [aaiLead, ha, hwn, Work.moveTo, ← ofNat_sub_ofNat hn]
  rfl

/-- After a burst it is gone on two bytes further, after a report where 256 burst bytes are full (R247). -/
theorem settle_aaiNext (hc : u.config.fixed = FixedNumbers.source) (hw : u.work.AtBurst a lead n j)
    (hp : lead + 2 * (j + 1) < 2 ^ 32) (ts : List Task) :
    settle req (.aaiNext :: ts) u =
      settle req (burstLines u.config (reqData req) (u.work.nextBurst a lead n j) ++ ts)
        (if (j + 1) % 128 = 0 then
          (u.withWork (u.work.nextBurst a lead n j)).progress (lead + 2 * (j + 1)) (reqData req).length
        else u.withWork (u.work.nextBurst a lead n j)) := by
  obtain ⟨⟨ha, hwp, hwn⟩, hwq⟩ := hw
  have hwork : u.work.nextBurst a lead n j =
      { u.work with a := u.work.a + 2, p := u.work.p + 2, q := u.work.q + 2 } := by
    rw [Work.nextBurst, Work.moveTo, ha, hwp, hwq, ← hwn, Nat.mul_succ, ← Nat.add_assoc, BitVec.ofNat_add,
      BitVec.ofNat_add (2 * j)]
    rfl
  have hfull : (u.work.nextBurst a lead n j).q.toNat % 256 = 0 ↔ (j + 1) % 128 = 0 := by
    show (BitVec.ofNat 32 (2 * (j + 1))).toNat % 256 = 0 ↔ _
    rw [toNat_ofNat_of_lt (by omega)]
    omega
  have hsent : (u.work.nextBurst a lead n j).p.toNat = lead + 2 * (j + 1) := toNat_ofNat_of_lt hp
  have h : react req u .aaiNext = aaiLoop
      (if (u.work.nextBurst a lead n j).q.toNat % 256 = 0 then
        (u.withWork (u.work.nextBurst a lead n j)).progress (u.work.nextBurst a lead n j).p.toNat (reqData req).length
      else u.withWork (u.work.nextBurst a lead n j)) (reqData req) := by
    show aaiNext u (reqData req) = _
    rw [aaiNext, hc, hwork]
    rfl
  rw [hsent] at h
  by_cases hk : (j + 1) % 128 = 0
  · rw [if_pos (hfull.mpr hk)] at h
    rw [if_pos hk]
    exact settle_of_aaiLoop h ts
  · rw [if_neg (mt hfull.mp hk)] at h
    rw [if_neg hk]
    exact settle_of_aaiLoop h ts

/-- The trailing byte. -/
theorem settle_aaiTail (ts : List Task) :
    settle req (.aaiTail :: ts) u = settle req (tailLines (reqData req) u.work ++ ts) u := by
  have h : react req u .aaiTail = aaiTail u (reqData req) := rfl
  by_cases hn : u.work.n.toNat % 2 = 1
  · rw [tailLines, if_pos hn]
    exact settle_of_send (h.trans (if_pos hn)) ts
  · rw [tailLines, if_neg hn]
    exact settle_of_fall (h.trans (if_neg hn)) ts

end

section
variable {c : Config} {data ds : List Byte} {w : Work} {a : Word} {lead n j : Nat} {d0 d1 : Byte}
  (hc : c.fixed = FixedNumbers.source) (hw : w.AtBurst a lead n j) (hn : n < 2 ^ 32)
include hc hw hn

theorem burstLines_of_pair (hlen : 2 * j + 2 ≤ n) (hp : lead + 2 * j < 2 ^ 32)
    (hleft : data.drop (lead + 2 * j) = d0 :: d1 :: ds) :
    burstLines c data w = .send (burstFrame (j == 0) a d0 d1) :: polled [.aaiNext] := by
  obtain ⟨⟨ha, hwp, hwn⟩, hwq⟩ := hw
  have hq : (w.q == 0) = (j == 0) := by
    rw [Bool.eq_iff_iff, beq_iff_eq, beq_iff_eq, hwq, ← BitVec.toNat_inj, toNat_ofNat_of_lt (by omega)]
    exact Nat.mul_eq_zero.trans (or_iff_right two_ne_zero)
  have hnext : data.drop (lead + 2 * j + 1) = d1 :: ds := by
    rw [← List.drop_drop, hleft]
    rfl
  rw [burstLines, hc, hq, hwq, hwn, hwp, ha, toNat_ofNat_of_lt hp, toNat_ofNat_of_lt hn, toNat_ofNat_of_lt (by omega),
    dataAt_of_drop hleft, dataAt_of_drop hnext]
  refine if_pos ?_
  show 2 * j < 2 * (n / 2)
  omega

/-- With fewer than two bytes left the loop is left. -/
theorem burstLines_of_end (hlen : n < 2 * j + 2) (hj : 2 * j < 2 ^ 32) : burstLines c data w = [] := by
  rw [burstLines, hc, hw.q, hw.n, toNat_ofNat_of_lt hn, toNat_ofNat_of_lt hj]
  refine if_neg ?_
  show ¬2 * j < 2 * (n / 2)
  omega

end

/-! ### The leading byte and the trailing byte (R217) -/

theorem leadLines_of_none {data : List Byte} {a : Word} (h : min data.length (a.toNat % 2) = 0) :
    leadLines data a (BitVec.ofNat 32 data.length) = [] := by
  refine if_neg ?_
  rintro ⟨hlen, hodd⟩
  refine hlen ?_
  have : data.length = 0 := by omega
  rw [this]
  rfl

theorem leadLines_of_odd {data xs : List Byte} {x : Byte} {a : Word} (hx : data = x :: xs) (hodd : a.toNat % 2 = 1)
    (hdata : data.length < 2 ^ 32) : leadLines data a (BitVec.ofNat 32 data.length) =
      .send .wren :: .send (.pp a [x]) :: polled [.aaiLead] := by
  have hne : BitVec.ofNat 32 data.length ≠ 0 := by
    rw [ne_eq, ← BitVec.toNat_inj, toNat_ofNat_of_lt hdata, hx]
    exact Nat.succ_ne_zero _
  rw [leadLines, if_pos ⟨hne, hodd⟩, hx]
  rfl

section
variable {data : List Byte} {w : Work} {a : Word} {p n : Nat} {x : Byte} (hw : w.At a p n) (hn : n < 2 ^ 32)
include hw hn

theorem tailLines_of_byte (hodd : n % 2 = 1) (hp : p < 2 ^ 32) (hleft : data.drop p = [x]) :
    tailLines data w = .send .wren :: .send (.pp a [x]) :: polled [] := by
  rw [tailLines, hw.n, hw.p, hw.a, toNat_ofNat_of_lt hn, toNat_ofNat_of_lt hp, if_pos hodd, dataAt_of_drop hleft]

theorem tailLines_of_even (heven : n % 2 = 0) : tailLines data w = [] := by
  rw [tailLines, hw.n, toNat_ofNat_of_lt hn, if_neg (by omega)]

end

/-! ### The reports of the burst loop (R247) -/

/-- The report after burst number `k`, counted from 0, if there is one. -/
def burstReport (lead total k : Nat) : List Nat :=
  if (k + 1) % 128 = 0 then [percent (lead + 2 * (k + 1)) total] else []

/-- One report after each 128 bursts. -/
theorem flatMap_burstReport (lead total m : Nat) : (List.range m).flatMap (burstReport lead total) =
    (List.range (m / 128)).map fun k => percent (lead + 256 * (k + 1)) total := by
  induction m with
  | zero => rfl
  | succ m ih =>
    rw [List.range_succ, List.flatMap_append, ih, List.flatMap_singleton, burstReport]
    by_cases h : (m + 1) % 128 = 0
    · have hdiv : (m + 1) / 128 = m / 128 + 1 := by omega
      have hbytes : 2 * (m + 1) = 256 * (m / 128 + 1) := by omega
      rw [if_pos h, hdiv, List.range_succ, List.map_append, List.map_singleton, hbytes]
    · have hdiv : (m + 1) / 128 = m / 128 := by omega
      rw [if_neg h, hdiv, List.append_nil]

section
variable {s u : State} {req : Instr} {sent todo : List Instr} {reports : List Nat} {ts : List Task} {a : Word}
  {lead n : Nat} (hrun : s.runs) (hcfg : s.cfg.isSome = true) (hdata : (reqData req).length < 2 ^ 32)
  (hn : lead + n = (reqData req).length)
include hrun hdata hn

/-- The line after a burst. -/
theorem QuietlyReached.aaiNext {j : Nat} (h : QuietlyReached s req sent todo reports (.aaiNext :: ts) u)
    (hw : u.work.AtBurst a lead n j) (hj : 2 * (j + 1) ≤ n) :
    ∃ v, QuietlyReached s req sent todo (reports ++ burstReport lead (reqData req).length j)
        (burstLines s.config (reqData req) v.work ++ ts) v ∧ v.work.AtBurst (a + 2) lead n (j + 1) := by
  have he := settle_aaiNext (req := req) (h.fixed hrun) hw (by omega) ts
  rw [h.setup.config] at he
  have hat : (u.work.nextBurst a lead n j).AtBurst (a + 2) lead n (j + 1) := Work.atBurst_nextBurst ..
  by_cases hk : (j + 1) % 128 = 0
  · rw [if_pos hk] at he
    rw [burstReport, if_pos hk]
    exact ⟨_, Reached.report h he, hat⟩
  · rw [if_neg hk] at he
    rw [burstReport, if_neg hk, List.append_nil]
    exact ⟨_, Reached.lines h he, hat⟩

include hcfg

/-- The end of the burst phase, and the trailing byte if one is left. -/
theorem QuietlyReached.burstEnd {j : Nat} {left : List Byte} (hleft : (reqData req).drop (lead + 2 * j) = left)
    (hlen : n = 2 * j + left.length) (hone : left.length < 2)
    (h : QuietlyReached s req sent (burstFrames (j == 0) a left ++ todo) reports
      (burstLines s.config (reqData req) u.work ++ (.send .wrdi :: Machine.polled [.aaiTail] ++ ts)) u)
    (hw : u.work.AtBurst a lead n j) :
    ∃ v, QuietlyReached s req (sent ++ burstFrames (j == 0) a left) todo reports ts v := by
  rw [burstLines_of_end (configRuns_fixed hrun.2) hw (by omega) (by omega) (by omega)] at h
  match left with
  | [] =>
    obtain ⟨u1, h1, w1⟩ := QuietlyReached.polled (i := .wrdi) h hrun isCommand_wrdi nofun
    have he := settle_aaiTail (req := req) (u := u1) ts
    rw [tailLines_of_even (w1 ▸ hw.polledReady.toAt) (by omega) (by simp at hlen; omega)] at he
    exact ⟨_, h1.lines (w := u1.work) he⟩
  | [x] =>
    rw [List.length_singleton] at hlen
    obtain ⟨u1, h1, w1⟩ := QuietlyReached.polled (i := .wrdi) h hrun isCommand_wrdi nofun
    have he := settle_aaiTail (req := req) (u := u1) ts
    rw [tailLines_of_byte (w1 ▸ hw.polledReady.toAt) (by omega) (by omega) (by omega) hleft] at he
    obtain ⟨v, hv, -⟩ := QuietlyReached.program (h1.lines (w := u1.work) he) hrun hcfg
    refine ⟨v, ?_⟩
    have hframes : sent ++ burstFrames (j == 0) a [x] = sent ++ [.wrdi, .rdsr] ++ chunkFrames a [x] := by
      simp [burstFrames, byteFrames, chunkFrames]
    rw [hframes]
    exact hv

/-- All bursts of the bytes that are left, and the end. -/
theorem QuietlyReached.bursts : ∀ {left : List Byte} {j : Nat} {a : Word} {sent : List Instr} {reports : List Nat}
    {u : State}, (reqData req).drop (lead + 2 * j) = left → n = 2 * j + left.length →
    QuietlyReached s req sent (burstFrames (j == 0) a left ++ todo) reports
      (burstLines s.config (reqData req) u.work ++ (.send .wrdi :: Machine.polled [.aaiTail] ++ ts)) u →
    u.work.AtBurst a lead n j →
    ∃ v, QuietlyReached s req (sent ++ burstFrames (j == 0) a left) todo
      (reports ++ (List.range' j (left.length / 2)).flatMap (burstReport lead (reqData req).length)) ts v
  | d0 :: d1 :: ds, j, a, sent, reports, u, hleft, hlen, h, hw => by
    have hmore : (d0 :: d1 :: ds).length = ds.length + 2 := rfl
    rw [hmore] at hlen
    rw [burstLines_of_pair (configRuns_fixed hrun.2) hw (by omega) (by omega) (by omega) hleft, burstFrames_cons] at h
    obtain ⟨u1, h1, w1⟩ := QuietlyReached.polled h hrun (isCommand_burstFrame ..) fun _ => hcfg
    obtain ⟨u2, h2, w2⟩ := h1.aaiNext hrun hdata hn (w1 ▸ hw.polledReady) (by omega)
    obtain ⟨v, hv⟩ := QuietlyReached.bursts (left := ds) (j := j + 1)
      (by rw [Nat.mul_succ, ← Nat.add_assoc, ← List.drop_drop, hleft]; rfl) (by omega) h2 w2
    refine ⟨v, ?_⟩
    rw [burstFrames_cons, hmore, Nat.add_div_right _ two_pos, List.range'_succ, List.flatMap_cons,
      ← List.append_assoc]
    simpa using hv
  | [x], j, a, sent, reports, u, hleft, hlen, h, hw => by
    obtain ⟨v, hv⟩ := QuietlyReached.burstEnd hrun hcfg hdata hn hleft hlen (by simp) h hw
    exact ⟨v, by simpa using hv⟩
  | [], j, a, sent, reports, u, hleft, hlen, h, hw => by
    obtain ⟨v, hv⟩ := QuietlyReached.burstEnd hrun hcfg hdata hn hleft hlen (by simp) h hw
    exact ⟨v, by simpa using hv⟩

/-- The burst phase from its `WREN` on, and the trailing byte if one is left. -/
theorem QuietlyReached.burstPhase {left : List Byte} (hleft : (reqData req).drop lead = left) (hlen : n = left.length)
    (h : QuietlyReached s req sent (.wren :: burstFrames true a left ++ todo) reports
      (.send .wren :: .aaiLoop :: .send .wrdi :: Machine.polled [.aaiTail] ++ ts) u) (hw : u.work.AtBurst a lead n 0) :
    ∃ v, QuietlyReached s req (sent ++ .wren :: burstFrames true a left) todo
      (reports ++ (List.range (n / 2 / 128)).map fun k => percent (lead + 256 * (k + 1)) (reqData req).length) ts v := by
  obtain ⟨u1, h1, w1⟩ := QuietlyReached.command h hrun isCommand_wren nofun
  have he := settle_aaiLoop (req := req) (u := u1) (.send .wrdi :: Machine.polled [.aaiTail] ++ ts)
  rw [h1.setup.config] at he
  obtain ⟨v, hv⟩ := QuietlyReached.bursts hrun hcfg hdata hn (j := 0) hleft (hlen.trans (Nat.zero_add _).symm)
    (h1.lines (w := u1.work) he) (w1 ▸ hw)
  rw [← flatMap_burstReport, hlen, List.range_eq_range', List.append_cons]
  exact ⟨v, hv⟩

omit hn

/-- The whole of `WriteAAI` between the two calls of `SetAddressMode`. -/
theorem QuietlyReached.aaiBegin
    (h : QuietlyReached s req sent (aaiFrames a (reqData req) ++ todo) reports
      (.aaiBegin a (BitVec.ofNat 32 (reqData req).length) :: .send .wren :: .aaiLoop :: .send .wrdi ::
        Machine.polled [.aaiTail] ++ ts) u) :
    ∃ v, QuietlyReached s req (sent ++ aaiFrames a (reqData req)) todo
      (reports ++ (List.range (((reqData req).length - min (reqData req).length (a.toNat % 2)) / 2 / 128)).map
        fun k => percent (min (reqData req).length (a.toNat % 2) + 256 * (k + 1)) (reqData req).length) ts v := by
  have he := settle_aaiBegin (req := req) (u := u) a (BitVec.ofNat 32 (reqData req).length)
    (.send .wren :: .aaiLoop :: .send .wrdi :: Machine.polled [.aaiTail] ++ ts)
  obtain ⟨hlead, heq⟩ | ⟨x, xs, hx, hodd, heq⟩ := aaiFrames_cases a (reqData req)
  · rw [leadLines_of_none hlead] at he
    rw [heq] at h
    rw [hlead, heq]
    exact QuietlyReached.burstPhase hrun hcfg hdata (Nat.zero_add _) rfl rfl (h.lines he) ⟨⟨rfl, rfl, rfl⟩, rfl⟩
  · have hlen : (reqData req).length = xs.length + 1 := by rw [hx, List.length_cons]
    have hlead : min (reqData req).length (a.toNat % 2) = 1 := by omega
    rw [leadLines_of_odd hx hodd hdata] at he
    rw [heq, List.append_assoc] at h
    obtain ⟨u1, h1, w1⟩ := QuietlyReached.program (a := a) (d := [x]) (h.lines he) hrun hcfg
    have hat : u1.work.At a 0 (reqData req).length := w1 ▸ ⟨rfl, rfl, rfl⟩
    have he1 := settle_aaiLead (req := req) hat (by omega)
      (.send .wren :: .aaiLoop :: .send .wrdi :: Machine.polled [.aaiTail] ++ ts)
    rw [heq, hlead, ← List.append_assoc]
    exact QuietlyReached.burstPhase hrun hcfg hdata (by omega) (by rw [hx]; rfl) (by omega) (h1.lines he1)
      ⟨Work.at_moveTo .., w1 ▸ rfl⟩

end

/-- Settles O48: the bracket, and in it the leading byte, the bursts and the trailing byte. -/
theorem autoIncrementWriteRunsWhole : Obligations.AutoIncrementWriteRunsWhole := by
  intro s f d addr data hpres hp hd haai hr hquiet
  have hrun : s.runs := ⟨hpres.1, hpres.2.1⟩
  exact write_runs_whole
    (ts := .aaiBegin addr _ :: .send .wren :: .aaiLoop :: .send .wrdi :: polled [.aaiTail]) hpres hp hd hr
    (by rw [haai]; rfl) hquiet
    (QuietlyReached.aaiBegin (req := .write addr data) hrun (cfg_isSome_of_probedDevice hd) (length_lt_of_inside hr))

end Sys2Proof.Machine

namespace Sys2Proof.Machine

/-! ### The chunk law of `READ` (R244), for every chunk size -/

section
variable {chunk : Nat} (hc : 1 ≤ chunk)
include hc

/-- The calls are those of the loop that takes the smaller of a chunk and what is left. -/
theorem readChunks_eq_loop (len : Nat) :
    readChunks chunk len = if len = 0 then [] else min len chunk :: readChunks chunk (len - min len chunk) := by
  obtain rfl | hpos := Nat.eq_zero_or_pos len
  · simp [readChunks]
  · rw [if_neg hpos.ne']
    obtain hlt | hle := Nat.lt_or_ge len chunk
    · simp [readChunks, Nat.div_eq_of_lt hlt, Nat.mod_eq_of_lt hlt, hpos.ne', Nat.min_eq_left hlt.le]
    · obtain ⟨k, rfl⟩ := Nat.exists_eq_add_of_le' hle
      have hmin : min (k + chunk) chunk = chunk := Nat.min_eq_right hle
      rw [hmin, Nat.add_sub_cancel, readChunks, readChunks, Nat.add_div_right k hc, Nat.add_mod_right,
        List.replicate_succ, List.cons_append]

/-- No call is empty, and none takes more than a chunk. -/
theorem readChunks_bounds {len n : Nat} (hn : n ∈ readChunks chunk len) : 1 ≤ n ∧ n ≤ chunk := by
  have hrest : len % chunk < chunk := Nat.mod_lt len hc
  obtain hfull | hlast := List.mem_append.mp hn
  · obtain rfl := List.eq_of_mem_replicate hfull
    exact ⟨hc, le_rfl⟩
  · split at hlast
    · cases hlast
    · obtain rfl := List.mem_singleton.mp hlast
      exact ⟨Nat.pos_of_ne_zero ‹_›, hrest.le⟩

end

/-- Together the calls take every byte. -/
theorem sum_readChunks (chunk len : Nat) : (readChunks chunk len).sum = len := by
  have hsplit : chunk * (len / chunk) + len % chunk = len := Nat.div_add_mod len chunk
  have hlast : (if len % chunk = 0 then [] else [len % chunk]).sum = len % chunk := by
    split_ifs with h
    · exact h.symm
    · exact List.sum_singleton
  rw [readChunks, List.sum_append, List.sum_replicate, smul_eq_mul, Nat.mul_comm, hlast, hsplit]

/-- The calls of a `READ` frame (R92, R244), under one chip select. -/
theorem frameCalls_readFrame {c : Config} (hc : c.fixed = FixedNumbers.source) (w : AddrWidth) (a len : Word) :
    frameCalls c w (.readFrame a len) =
      [.chipSelect c.csLine.val true, .writeOnly (c.op.read :: addrBytes w a)] ++
      (readChunks 4096 len.toNat).map .readOnly ++ [.chipSelect c.csLine.val false] := by
  have hchunk : c.fixed.readChunk = 4096 := congrArg FixedNumbers.readChunk hc
  rw [← hchunk]
  rfl

/-- Settles O54: the frame's calls, and the chunk law at 4096. -/
theorem readChunksAreTheLoop : Obligations.ReadChunksAreTheLoop :=
  ⟨fun _ w a len hc => frameCalls_readFrame hc w a len, fun len =>
    ⟨rfl, readChunks_eq_loop (by decide) len, sum_readChunks 4096 len, fun _ => readChunks_bounds (by decide)⟩⟩

end Sys2Proof.Machine

namespace Sys2Proof.Machine

/-! ### Some calls of a request, with what they leave in the history -/

/-- From `s` to `t` the calls `calls` have been made and `reports` reported; the working registers are `w`, the answers
to come are `more`, and nothing else of the block has changed. (`State.Sent` is this for the calls of a frame that
reports nothing.) -/
structure State.Advanced (s : State) (calls : List Call) (reports : List Nat) (w : Work) (more : List Scripted)
    (t : State) : Prop where
  block : (s.withWork w).sameBlock t
  script : t.env.script = more
  calls : callsOf t.trace = callsOf s.trace ++ calls
  progress : progressOf t.trace = progressOf s.trace ++ reports

section
variable {s t u : State} {calls calls' : List Call} {reports reports' : List Nat} {w w' : Work}
  {more more' : List Scripted}

theorem State.Advanced.none (s : State) : s.Advanced [] [] s.work s.env.script s :=
  ⟨⟨rfl, rfl, rfl, rfl, rfl, rfl, rfl⟩, rfl, (List.append_nil _).symm, (List.append_nil _).symm⟩

theorem State.Advanced.trans (h : s.Advanced calls reports w more t) (k : t.Advanced calls' reports' w' more' u) :
    s.Advanced (calls ++ calls') (reports ++ reports') w' more' u := by
  obtain ⟨hconf, hprobed, hcfg, -, hresp, hhost, hpin⟩ := h.block
  obtain ⟨kconf, kprobed, kcfg, kwork, kresp, khost, kpin⟩ := k.block
  exact ⟨⟨kconf.trans hconf, kprobed.trans hprobed, kcfg.trans hcfg, kwork, kresp.trans hresp, khost.trans hhost,
      kpin.trans hpin⟩, k.script, by rw [k.calls, h.calls, List.append_assoc],
    by rw [k.progress, h.progress, List.append_assoc]⟩

theorem State.Advanced.work (h : s.Advanced calls reports w more t) : t.work = w := by
  obtain ⟨-, -, -, hwork, -⟩ := h.block
  exact hwork

theorem State.Advanced.sameSetup (h : s.Advanced calls reports w more t) : s.sameSetup t :=
  State.sameBlock.sameSetup (w := w) h.block

/-- A call that takes nothing from its answer. -/
theorem State.Made.advanced {call : Call} (h : s.Made call t) :
    s.Advanced [call] [] s.work s.env.script.tail t :=
  ⟨h.block, h.script, by simp [h.trace], by simp [h.trace]⟩

end

/-! ### The calls of a `READ` frame (R241, R242, R244) -/

/-- The request `req` is sending a `READ` frame, of which the calls `todo` are still to be made. -/
structure State.Reading (s : State) (req : Instr) (a len : Word) (rest : List Task) (todo : List Call) : Prop where
  cfg : s.cfg.isSome = true
  at_todo : ∃ beat, s.seq = .running ⟨req, .readFrame a len, beat, rest⟩ ∧
    (frameCalls s.config s.width (.readFrame a len)).drop beat = todo

/-- The working registers of a `READ` whose address has been sent. -/
def Work.readFrom (w : Work) (a len : Word) : Work := { w with a := a, p := 0, n := len, out := [] }

/-- The working registers after these bytes have come back. -/
def Work.readBytes (w : Work) (bytes : List Byte) : Work :=
  { w with
    out := w.out ++ bytes, a := w.a + BitVec.ofNat 32 bytes.length
    p := w.p + BitVec.ofNat 32 bytes.length, n := w.n - BitVec.ofNat 32 bytes.length }

theorem Work.readBytes_nil (w : Work) : w.readBytes [] = w := by
  simp [Work.readBytes]

theorem Work.readBytes_append (w : Work) (xs ys : List Byte) :
    w.readBytes (xs ++ ys) = (w.readBytes xs).readBytes ys := by
  simp [Work.readBytes, BitVec.ofNat_add, BitVec.add_assoc, BitVec.sub_sub]

/-- When the whole span has come back, `A` and `P` are at its end and `N` is 0. -/
theorem Work.readBytes_readFrom (w : Work) (a : Word) {len : Word} {data : List Byte}
    (hlen : data.length = len.toNat) :
    (w.readFrom a len).readBytes data = { w with a := a + len, n := 0, p := len, out := data } := by
  simp [Work.readBytes, Work.readFrom, hlen]

section
variable {s : State} {req : Instr} {a len : Word} {rest : List Task} {call : Call} {todo : List Call} {g : List Byte}
  {more : List Scripted}

/-- The first of the calls still to be made is the one the machine stands at. -/
theorem State.Reading.atCall (h : s.Reading req a len rest (call :: todo)) :
    ∃ beat, s.AtCall req (.readFrame a len) beat rest call ∧
      (frameCalls s.config s.width (.readFrame a len)).drop (beat + 1) = todo ∧
      (frameCalls s.config s.width (.readFrame a len)).length = beat + 1 + todo.length := by
  obtain ⟨hcfg, beat, hseq, htodo⟩ := h
  have hcall := congrArg (·[0]?) htodo
  have htail := congrArg List.tail htodo
  have hlen := congrArg List.length htodo
  rw [List.tail_drop] at htail
  rw [List.length_drop, List.length_cons] at hlen
  exact ⟨beat, ⟨hseq, rfl, fun _ => hcfg, by simpa using hcall⟩, htail, by omega⟩

variable (hrun : s.runs) (hr : s.env.script = .reply g :: more)
include hrun hr

/-- A call before the last one leads to the next one, and brings what `keepOut` takes. -/
theorem State.Reading.step_more (h : s.Reading req a len rest (call :: todo)) (hmore : todo ≠ []) :
    ∃ t, step s = .next t ∧ t.Reading req a len rest todo ∧ ∃ q,
      t = { keepOut a len call (completeBytes s.env.draws call.rxLen g) (s.called call) with seq := q } := by
  obtain ⟨beat, hat, htodo, hlen⟩ := h.atCall
  have hpos := List.length_pos_iff.mpr hmore
  have hkept := keepOut_kept a len call (completeBytes s.env.draws call.rxLen g) (s.called call)
  have hanswer := State.answer_reply hr (hat.badLine hrun)
  have hstep := (step_running hrun hat.seq).trans (hat.exec_readFrame_more hanswer (by omega))
  refine ⟨_, hstep, ⟨?_, beat + 1, rfl, ?_⟩, _, rfl⟩
  · exact (congrArg Option.isSome hkept.cfg).trans h.cfg
  · rw [← htodo]
    simp only [State.width, hkept.config, hkept.cfg]
    rfl

/-- The chip-select assert brings nothing. -/
theorem State.Reading.select {line : Nat} (h : s.Reading req a len rest (.chipSelect line true :: todo))
    (hmore : todo ≠ []) :
    ∃ t, step s = .next t ∧ t.Reading req a len rest todo ∧
      s.Advanced [.chipSelect line true] [] s.work more t := by
  obtain ⟨_, ht, hreading, q, rfl⟩ := h.step_more hrun hr hmore
  have hadv := (State.Made.called s (.chipSelect line true) q).advanced
  rw [hr, List.tail_cons] at hadv
  exact ⟨_, ht, hreading, hadv⟩

/-- After the address the whole span is still to come (R241). -/
theorem State.Reading.address {tx : List Byte} (h : s.Reading req a len rest (.writeOnly tx :: todo))
    (hmore : todo ≠ []) :
    ∃ t, step s = .next t ∧ t.Reading req a len rest todo ∧
      s.Advanced [.writeOnly tx] [] (s.work.readFrom a len) more t := by
  obtain ⟨_, ht, hreading, q, rfl⟩ := h.step_more hrun hr hmore
  exact ⟨_, ht, hreading, ⟨rfl, rfl, rfl, rfl, rfl, rfl, rfl⟩,
    by simp [keepOut, hr], by simp [keepOut], by simp [keepOut]⟩

/-- A `ReadOnly` call brings its bytes to the output vector, and is reported (R244, R247). -/
theorem State.Reading.chunk (h : s.Reading req a len rest (.readOnly g.length :: todo)) (hmore : todo ≠ []) :
    ∃ t, step s = .next t ∧ t.Reading req a len rest todo ∧
      s.Advanced [.readOnly g.length] [percent (s.work.readBytes g).p.toNat len.toNat] (s.work.readBytes g) more t := by
  obtain ⟨_, ht, hreading, q, rfl⟩ := h.step_more hrun hr hmore
  rw [Call.rxLen, completeBytes_length_self] at ht hreading
  exact ⟨_, ht, hreading, ⟨rfl, rfl, rfl, rfl, rfl, rfl, rfl⟩,
    by simp [keepOut, hr], by simp [keepOut], by simp [keepOut, Work.readBytes]⟩

/-- The last call is followed by the request's next lines. -/
theorem State.Reading.deselect (h : s.Reading req a len rest [call]) :
    ∃ t, step s = settle req rest t ∧ s.Advanced [call] [] s.work more t := by
  obtain ⟨beat, hat, -, hlen⟩ := h.atCall
  obtain ⟨-, u, hu, he⟩ := hat.exec_last (State.answer_reply hr (hat.badLine hrun)) hlen.symm
  obtain rfl := hu.other nofun nofun
  have hadv := (State.Made.called s call s.seq).advanced
  rw [hr, List.tail_cons] at hadv
  exact ⟨_, (step_running hrun hat.seq).trans he, hadv⟩

end

section
variable {s : State} {req : Instr} {a len : Word} {rest : List Task} {data : List Byte} {more : List Scripted}

/-- The reports of a `READ` in these calls, after `p` bytes of `len` (R247). -/
def readReports (len : Word) (p : Nat) (chunks : List Nat) : List Nat :=
  (runningTotals p chunks).map fun n => percent n len.toNat

/-- The `ReadOnly` calls bring the data piece by piece. -/
theorem State.Reading.chunks {line p : Nat} {chunks : List Nat} (hrun : s.runs)
    (h : s.Reading req a len rest (chunks.map .readOnly ++ [.chipSelect line false]))
    (hr : s.env.script = (pieces chunks data).map .reply ++ more) (hlen : data.length = chunks.sum)
    (hp : s.work.p = BitVec.ofNat 32 p) (hspan : p + data.length < 2 ^ 32) :
    ∃ t, run chunks.length s = .next t ∧ t.Reading req a len rest [.chipSelect line false] ∧
      s.Advanced (chunks.map .readOnly) (readReports len p chunks) (s.work.readBytes data) more t := by
  induction chunks generalizing s p data with
  | nil =>
    obtain rfl := List.eq_nil_of_length_eq_zero hlen
    rw [Work.readBytes_nil, ← show s.env.script = more from hr]
    exact ⟨s, rfl, h, .none s⟩
  | cons n ns ih =>
    rw [List.sum_cons] at hlen
    have hn : (data.take n).length = n := List.length_take_of_le (by omega)
    have htotal : (s.work.readBytes (data.take n)).p = BitVec.ofNat 32 (p + n) := by
      simp only [Work.readBytes, hp, hn, BitVec.ofNat_add]
    have h1 : s.Reading req a len rest (.readOnly (data.take n).length ::
        (ns.map .readOnly ++ [.chipSelect line false])) := by rwa [hn]
    obtain ⟨t, ht, hreading, hadv⟩ := h1.chunk hrun hr (by simp)
    rw [htotal, toNat_ofNat_of_lt (by omega), hn] at hadv
    obtain ⟨u, hu, hlast, hadv'⟩ := ih (p := p + n) (data := data.drop n) (hadv.sameSetup.runs hrun) hreading
      hadv.script (by rw [List.length_drop]; omega) (by rw [hadv.work, htotal]) (by rw [List.length_drop]; omega)
    rw [hadv.work, ← Work.readBytes_append, List.take_append_drop] at hadv'
    exact ⟨u, (run_succ_of_step _ ht).trans hu, hlast, hadv.trans hadv'⟩

/-- A whole `READ` frame. -/
theorem readFrame_runs {g0 g1 g2 : List Byte} (hrun : s.runs)
    (hs : s.seq = .running ⟨req, .readFrame a len, 0, rest⟩) (hcfg : s.cfg.isSome = true)
    (hlen : data.length = len.toNat)
    (hr : s.env.script = .reply g0 :: .reply g1 ::
      ((pieces (readChunks 4096 len.toNat) data).map .reply ++ .reply g2 :: more)) :
    ∃ t, run ((readChunks 4096 len.toNat).length + 3) s = settle req rest t ∧
      s.Advanced (frameCalls s.config s.width (.readFrame a len)) (readReports len 0 (readChunks 4096 len.toNat))
        { s.work with a := a + len, n := 0, p := len, out := data } more t := by
  have hcalls := frameCalls_readFrame (configRuns_fixed hrun.2) s.width a len
  have start : s.Reading req a len rest _ := ⟨hcfg, 0, hs, hcalls⟩
  rw [List.append_assoc] at start
  obtain ⟨s1, hs1, h1, m1⟩ := start.select hrun hr nofun
  have run1 := m1.sameSetup.runs hrun
  obtain ⟨s2, hs2, h2, m2⟩ := h1.address run1 m1.script (by simp)
  have run2 := m2.sameSetup.runs run1
  obtain ⟨s3, hs3, h3, m3⟩ := h2.chunks (p := 0) run2 m2.script (by rw [sum_readChunks, hlen])
    (by rw [m2.work]; rfl) (by rw [hlen, Nat.zero_add]; exact len.isLt)
  obtain ⟨t, ht, m4⟩ := h3.deselect (m3.sameSetup.runs run2) m3.script
  have hadv := ((m1.trans m2).trans m3).trans m4
  rw [m3.work, m2.work, m1.work, Work.readBytes_readFrom _ _ hlen, List.append_nil] at hadv
  rw [hcalls]
  refine ⟨t, ?_, hadv⟩
  rw [run_succ_of_step _ hs1, run_succ_of_step _ hs2, run_add_of_run 1 hs3, run_one, ht]

end

/-! ### The request -/

/-- The answers that bring the data of a `READ` frame. -/
def readAnswers (len : Word) (data : List Byte) : List Scripted :=
  [.reply [], .reply []] ++ (pieces (readChunks 4096 len.toNat) data).map .reply ++ [.reply []]

theorem length_pieces (chunks : List Nat) (data : List Byte) : (pieces chunks data).length = chunks.length := by
  induction chunks generalizing data with
  | nil => rfl
  | cons n ns ih => exact congrArg Nat.succ (ih _)

section
variable {s u : State} {n : Nat} {req : Instr} {sent fs : List Instr} {reports : List Nat} {more : List Scripted}
  {ts : List Task} (hrun : s.runs)
include hrun

/-- The `READ` frame of a request, with its reports. -/
theorem Reached.readFrame {a len : Word} {data : List Byte}
    (h : Reached s n req sent reports (readAnswers len data ++ more) (.send (.readFrame a len) :: ts) u)
    (hcfg : s.cfg.isSome = true) (hlen : data.length = len.toNat) :
    ∃ v, Reached s (n + (frameCalls s.config s.width (.readFrame a len)).length) req (sent ++ [.readFrame a len])
        (reports ++ readReports len 0 (readChunks 4096 len.toNat)) more ts v ∧
      v.work = { u.work with a := a + len, n := 0, p := len, out := data } := by
  have hcount : (readAnswers len data).length = (readChunks 4096 len.toNat).length + 3 := by
    simp [readAnswers, length_pieces]
  have hcalls : (frameCalls s.config s.width (.readFrame a len)).length = (readAnswers len data).length := by
    rw [frameCalls_readFrame (configRuns_fixed hrun.2), hcount]
    simp
  obtain ⟨v, hv, hadv⟩ := readFrame_runs (s := u.sending req (.readFrame a len) ts)
    (more := u.env.script.drop (readAnswers len data).length) (h.setup.runs hrun) rfl (h.setup.cfg ▸ hcfg) hlen
    ((State.hears.script h.hears).trans (by simp only [readAnswers, List.append_assoc]; rfl))
  rw [← hcount] at hv
  rw [hcalls]
  have hstands := h.toStands.frame hv hadv.sameSetup hadv.script hadv.calls
  obtain ⟨-, -, -, -, -, hhost, -⟩ := hadv.block
  exact ⟨v, ⟨hstands, hhost.trans h.host, by rw [hadv.progress, ← List.append_assoc, ← h.progress]; rfl⟩, hadv.work⟩

/-- Any number of command frames, each answered with nothing. -/
theorem Reached.commands
    (h : Reached s n req sent reports (fs.flatMap (fun _ => silent) ++ more) (fs.map .send ++ ts) u)
    (hfs : ∀ i ∈ fs, IsCommand i ∧ i.addressed = false) :
    ∃ v, Reached s (n + (framesCalls s.config s.width fs).length) req (sent ++ fs) reports more ts v ∧
      v.work = u.work := by
  induction fs generalizing n sent u with
  | nil => exact ⟨u, by simpa [framesCalls] using h, rfl⟩
  | cons i is ih =>
    rw [List.forall_mem_cons] at hfs
    obtain ⟨⟨hi, hno⟩, his⟩ := hfs
    rw [List.flatMap_cons, List.append_assoc] at h
    obtain ⟨v, hv, hw⟩ := Reached.command h hrun hi (by simp [hno])
    obtain ⟨t, ht, hwt⟩ := ih hv his
    have hn : n + (framesCalls s.config s.width (i :: is)).length =
        n + 3 + (framesCalls s.config s.width is).length := by
      rw [← List.singleton_append, framesCalls_append, framesCalls_singleton, List.length_append,
        length_frameCalls_command hi, Nat.add_assoc]
    rw [hn, List.append_cons]
    exact ⟨t, ht, hwt.trans hw⟩

/-- `SetAddressMode` (R171), its frames answered with nothing. -/
theorem Reached.setMode {f : FlashConfig} {d : Descriptor} {en : Bool}
    (h : Reached s n req sent reports
      ((setModeFrames s.config f.addrWidth d.jedecId en).flatMap (fun _ => silent) ++ more) (.setMode en :: ts) u)
    (hd : s.probedDevice = some (f, d)) :
    ∃ v, Reached s (n + (framesCalls s.config s.width (setModeFrames s.config f.addrWidth d.jedecId en)).length) req
      (sent ++ setModeFrames s.config f.addrWidth d.jedecId en) reports more ts v ∧ v.work = u.work := by
  have he := settle_setMode (req := req) (h.setup.probedDevice.trans hd) en ts
  rw [h.setup.config] at he
  exact Reached.commands hrun (h.lines (w := u.work) he) (modeFrames_command _ _ _ _)

end

/-- With no line left a `READ` returns `Ok` with what is in the output vector (R240). -/
theorem Reached.returnOk_read {s u : State} {n : Nat} {a len : Word} {sent : List Instr} {reports : List Nat}
    {answers : List Scripted} (h : Reached s n (.read a len) sent reports answers [] u) :
    ∃ t z, run n s = .next t ∧ t.seq = .idle ∧ t.resp = some ⟨.ok, z, some u.work.out⟩ ∧ s.sameSetup t ∧
      t.host = s.host.tail ∧ callsOf t.trace = callsOf s.trace ++ framesCalls s.config s.width sent ∧
      progressOf t.trace = progressOf s.trace ++ reports ∧ t.work = u.work :=
  ⟨u.returnOk (.read a len), _, h.steps, rfl, State.returnOk_resp .., h.setup, h.host, by simpa using h.calls,
    by simpa using h.progress, rfl⟩

/-- Settles O49: the bracket and the `READ` frame in it. -/
theorem readReturnsTheBytes : Obligations.ReadReturnsTheBytes := by
  intro s f d addr len data ⟨hpin, hc, hs, q, rest, hh, hdec⟩ hp hd hr hlen hears
  have hrun : s.runs := ⟨hpin, hc⟩
  have start := Reached.start
    (answers := (setModeFrames s.config f.addrWidth d.jedecId true).flatMap (fun _ => silent) ++ (readAnswers len data ++
      ((setModeFrames s.config f.addrWidth d.jedecId false).flatMap (fun _ => silent) ++ [])))
    hrun hs hh hdec (exec_read_accepted (s := { s with host := rest }) hs hp hd hr)
    (by simpa [readAnswers] using hears)
  obtain ⟨u1, h1, w1⟩ := start.setMode hrun hd
  obtain ⟨u2, h2, w2⟩ := h1.readFrame hrun (cfg_isSome_of_probedDevice hd) hlen
  obtain ⟨u3, h3, w3⟩ := h2.setMode hrun hd
  obtain ⟨t, z, ht, hidle, hresp, hsetup, hhost, hcalls, hprogress, hwork⟩ := h3.returnOk_read
  have hw : u3.work = { s.work with a := addr + len, n := 0, p := len, out := data } := by
    rw [w3, w2, w1]
    rfl
  have hsteps : (framesCalls s.config s.width (bracketed s.config f d [.readFrame addr len])).length + 1 =
      1 + (framesCalls s.config s.width (setModeFrames s.config f.addrWidth d.jedecId true)).length +
        (frameCalls s.config s.width (.readFrame addr len)).length +
        (framesCalls s.config s.width (setModeFrames s.config f.addrWidth d.jedecId false)).length := by
    rw [bracketed, framesCalls_append, framesCalls_append, framesCalls_singleton, List.length_append,
      List.length_append]
    omega
  rw [hw] at hresp hwork
  rw [hsteps]
  exact ⟨t, z, ht, hidle, hresp, hsetup, hhost, hcalls, hprogress, hwork⟩

end Sys2Proof.Machine

namespace Sys2Proof.Machine

/-! ### The responses of a step (R83, R265): at most one, produced last, and which statuses it can have

No invariant is assumed. `State.Silent` is work without a response, `State.Answered` is such work, ended by a response
or not; the results of the shared operations are put together with the rules for `NextAll`. -/

/-- From `s` to `t` no response was produced and none became pending; the parameters and the reset input stay. -/
structure State.Silent (s t : State) : Prop where
  config : t.config = s.config
  resetPin : t.resetPin = s.resetPin
  resp : ∀ r, t.resp = some r → s.resp = some r
  trace : s.AnswersNothing t

theorem State.Silent.refl (s : State) : s.Silent s := ⟨rfl, rfl, fun _ h => h, .refl s⟩

theorem State.Silent.trans {s t u : State} (h : s.Silent t) (k : t.Silent u) : s.Silent u :=
  ⟨k.config.trans h.config, k.resetPin.trans h.resetPin, fun r hr => h.resp r (k.resp r hr), h.trace.trans k.trace⟩

/-- A new event that is no response. -/
theorem State.Silent.emit (s : State) {e : Event} (he : ∀ r, e ≠ .response r) : s.Silent (s.emit e) :=
  ⟨rfl, rfl, fun _ h => h, [e], rfl, fun r hr => he r (List.mem_singleton.mp hr).symm⟩

theorem State.Silent.work (s : State) (w : Work) : s.Silent { s with work := w } :=
  ⟨rfl, rfl, fun _ h => h, .refl s⟩

theorem State.Silent.progress (s : State) (a b : Nat) : s.Silent (s.progress a b) := .emit s nofun

theorem State.Silent.commit (s : State) (i : Nat) (d : Descriptor) : s.Silent (s.commit i d) :=
  ⟨rfl, rfl, fun _ h => h, _, rfl, by simp⟩

theorem State.Silent.sending (s : State) (req f : Instr) (ts : List Task) : s.Silent (s.sending req f ts) :=
  ⟨rfl, rfl, fun _ h => h, .refl s⟩

theorem State.Silent.called (s : State) (call : Call) : s.Silent (s.called call) :=
  ⟨rfl, rfl, fun _ h => h, _, rfl, by simp⟩

theorem State.Silent.accepted (s : State) : s.Silent s.accepted := ⟨rfl, rfl, nofun, .refl s⟩

theorem State.Silent.keepRx (c : Call) (bytes : List Byte) (s : State) : s.Silent (keepRx c bytes s) := by
  cases c <;> exact .work s _

theorem State.Silent.keepOut (addr len : Word) (c : Call) (bytes : List Byte) (s : State) :
    s.Silent (keepOut addr len c bytes s) := by
  cases c with
  | chipSelect => exact .refl s
  | writeOnly => exact .work s _
  | readOnly => exact (State.Silent.work s _).trans (.progress ..)

/-- From `s` to `t` either no response was produced, or one, at the end, with a status of which `P` holds. -/
inductive State.Answered (s : State) (P : Status → Prop) : State → Prop
  | silent {t : State} : s.Silent t → s.Answered P t
  | respond {u : State} {e : Status} {z : Option Word} {o : Option (List Byte)} :
      s.Silent u → P e → s.Answered P (u.respond e z o)

section
variable {s t u : State} {P Q : Status → Prop} {r : Response}

theorem State.Silent.answered (h : s.Silent u) (k : u.Answered P t) : s.Answered P t := by
  cases k with
  | silent k => exact .silent (h.trans k)
  | respond k he => exact .respond (h.trans k) he

theorem State.Answered.mono (h : s.Answered P t) (hPQ : ∀ e, P e → Q e) : s.Answered Q t := by
  cases h with
  | silent h => exact .silent h
  | respond h he => exact .respond h (hPQ _ he)

/-- The response pending afterwards was pending before, or has one of these statuses. -/
theorem State.Answered.resp (h : s.Answered P t) (hr : t.resp = some r) : s.resp = some r ∨ P r.status := by
  cases h with
  | silent h => exact .inl (h.resp r hr)
  | respond h he =>
    cases hr
    exact .inr he

/-- Of the new events only the last can be a response: then it is the one pending, and the block is `IDLE`. -/
theorem State.Answered.trace (h : s.Answered P t) : ∃ more, t.trace = s.trace ++ more ∧
    ((∀ r, .response r ∉ more) ∨ ∃ init r, more = init ++ [.response r] ∧ (∀ r, .response r ∉ init) ∧
      P r.status ∧ t.resp = some r ∧ t.seq = .idle) := by
  cases h with
  | silent h =>
    obtain ⟨more, hm, hno⟩ := h.trace
    exact ⟨more, hm, .inl hno⟩
  | respond h he =>
    obtain ⟨init, hm, hno⟩ := h.trace
    exact ⟨init ++ [_], by rw [State.respond_trace, hm, List.append_assoc],
      .inr ⟨init, _, rfl, hno, he, rfl, rfl⟩⟩

theorem State.Answered.status (h : s.Answered P t) {more : List Event} (ht : t.trace = s.trace ++ more)
    (hr : .response r ∈ more) : P r.status := by
  obtain ⟨more', hm, hend⟩ := h.trace
  obtain rfl := List.append_cancel_left (ht.symm.trans hm)
  rcases hend with hno | ⟨init, r', rfl, hno, he, -⟩
  · exact absurd hr (hno r)
  · obtain rfl : r = r' := by simpa [hno] using hr
    exact he

/-- After a response the block is `IDLE` with that response pending. -/
theorem State.Answered.ended (h : s.Answered P t) {before : List Event}
    (ht : t.trace = s.trace ++ before ++ [.response r]) : t.seq = .idle ∧ t.resp = some r := by
  obtain ⟨more, hm, hend⟩ := h.trace
  have hmore := List.append_cancel_left ((hm.symm.trans ht).trans (List.append_assoc ..))
  rcases hend with hno | ⟨init, r', rfl, -, -, hresp, hseq⟩
  · exact absurd (hmore ▸ by simp : Event.response r ∈ more) (hno r)
  · obtain ⟨-, hr⟩ := List.append_inj' hmore rfl
    cases hr
    exact ⟨hseq, hresp⟩

theorem State.Answered.setup (h : s.Answered P t) : t.config = s.config ∧ t.resetPin = s.resetPin := by
  cases h with
  | silent h => exact ⟨h.config, h.resetPin⟩
  | respond h => exact ⟨h.config, h.resetPin⟩

end

/-! ### Results put together -/

/-- The result, if it is a next state, is one of which `R` holds. -/
def NextAll (R : State → Prop) (x : Result) : Prop := ∀ t, x = .next t → R t

section
variable {R : State → Prop}

theorem NextAll.next {t : State} (h : R t) : NextAll R (.next t) := by
  intro u hu
  cases hu
  exact h

theorem NextAll.fault (f : Fault) : NextAll R (.fault f) := by
  intro t ht
  cases ht

theorem NextAll.refused (f : Refusal) : NextAll R (.refused f) := by
  intro t ht
  cases ht

theorem NextAll.mono {R' : State → Prop} {x : Result} (h : NextAll R x) (hR : ∀ t, R t → R' t) : NextAll R' x :=
  fun t ht => hR t (h t ht)

theorem NextAll.ite {p : Prop} [Decidable p] {a b : Result} (ha : NextAll R a) (hb : NextAll R b) :
    NextAll R (if p then a else b) := by
  split
  · exact ha
  · exact hb

theorem NextAll.accept {s : State} {k : State → Result} (hk : NextAll R (k s.accepted)) :
    NextAll R (Machine.accept s k) := by
  cases hs : s.seq with
  | idle => rwa [accept_idle hs]
  | running r => rw [accept_running hs]; exact .refused _

theorem NextAll.withProbed {s : State} {req : Instr} {k : FlashConfig → Descriptor → Result}
    (hno : R (s.raise req .notProbed)) (hk : ∀ f d, NextAll R (k f d)) :
    NextAll R (Machine.withProbed req s k) := by
  unfold Machine.withProbed
  refine .ite ?_ (.next hno)
  split
  · exact hk _ _
  · exact .fault _

theorem NextAll.withWidth {s : State} {k : AddrWidth → Result} (hk : ∀ w, NextAll R (k w)) :
    NextAll R (Machine.withWidth s k) := by
  unfold Machine.withWidth
  split
  · exact hk _
  · exact .fault _

end

/-! ### The statuses of the lines of the pseudocode (R120, R155) -/

/-- The statuses with which the lines of a request end it, under the parameters `c`: `Timeout` only at a limit. -/
inductive LineStatus (c : Config) : Status → Prop
  | ok : LineStatus c .ok
  | noDevice : LineStatus c .noDevice
  | unrecognizedDevice : LineStatus c .unrecognizedDevice
  | timeout : c.pollLimit ≠ none → LineStatus c .timeout

/-- A line done in `s` produces no response; if it ends the request it does nothing else, and has a line's status. -/
inductive Reaction.Answers (s : State) : Reaction → Prop
  | raise {e : Status} : LineStatus s.config e → Reaction.Answers s (.raise e s)
  | fall {u : State} : s.Silent u → Reaction.Answers s (.fall u)
  | send {u : State} {f : Instr} {us : List Task} : s.Silent u → Reaction.Answers s (.send u f us)
  | fault (f : Fault) : Reaction.Answers s (.fault f)

section
variable {s u : State}

theorem Reaction.Answers.sendAll (fs : List Instr) : Reaction.Answers s (sendAll s fs) := by
  cases fs with
  | nil => exact .fall (.refl s)
  | cons f fs => exact .send (.refl s)

theorem Reaction.Answers.withCfg {k : FlashConfig → Descriptor → Reaction}
    (hk : ∀ f d, Reaction.Answers s (k f d)) : Reaction.Answers s (withCfg s k) := by
  unfold Machine.withCfg
  split
  · exact hk _ _
  · exact .fault _

theorem Reaction.Answers.eraseLoop (h : s.Silent u) (f : FlashConfig) (total : Word) :
    Reaction.Answers s (eraseLoop u f total) := by
  unfold Machine.eraseLoop
  split
  · exact .fall h
  · exact .send h

theorem Reaction.Answers.pageLoop (h : s.Silent u) (data : List Byte) : Reaction.Answers s (pageLoop u data) := by
  unfold Machine.pageLoop
  dsimp only
  split
  · exact .fall h
  · exact .send h

theorem Reaction.Answers.aaiLoop (h : s.Silent u) (data : List Byte) : Reaction.Answers s (aaiLoop u data) := by
  unfold Machine.aaiLoop
  dsimp only
  split
  · exact .send h
  · exact .fall h

end

/-- Each line of the pseudocode. -/
theorem react_answers (req : Instr) (s : State) (t : Task) : Reaction.Answers s (react req s t) := by
  cases t with
  | send f => exact .send (.refl s)
  | identify =>
    simp only [react, identify]
    split
    · exact .raise .noDevice
    · split
      · exact .raise .unrecognizedDevice
      · split
        · exact .send (.refl s)
        · split
          · exact .send (.refl s)
          · exact .fall (.commit ..)
  | clearBp mask =>
    simp only [react, clearBp]
    split
    · exact .fall (.refl s)
    · exact .send (.refl s)
  | commit i =>
    simp only [react, commitLine]
    split
    · exact .fall (.commit ..)
    · exact .fault _
  | pollTest k =>
    simp only [react, pollTest]
    split
    · split
      next hlim =>
        obtain ⟨l, hl, -⟩ := pollExhausted_iff.mp hlim
        exact .raise (.timeout (by simp [hl]))
      next => exact .send (.refl s)
    · exact .fall (.refl s)
  | setMode en =>
    simp only [react, setModeLine]
    exact .withCfg fun _ _ => .sendAll _
  | eraseBegin addr len =>
    simp only [react, eraseBegin]
    exact .withCfg fun f _ => .eraseLoop (.work s _) f _
  | eraseNext total =>
    simp only [react, eraseNext]
    exact .withCfg fun f _ => .eraseLoop ((State.Silent.work s _).trans (.progress ..)) f total
  | pageBegin addr len => exact .pageLoop (.work s _) _
  | pageNext c => exact .pageLoop ((State.Silent.work s _).trans (.progress ..)) _
  | aaiBegin addr len =>
    simp only [react, aaiBegin]
    split
    · exact .send (.work s _)
    · exact .fall (.work s _)
  | aaiLead => exact .fall (.work s _)
  | aaiLoop => exact .aaiLoop (.refl s) _
  | aaiNext =>
    refine .aaiLoop ?_ _
    split
    · exact (State.Silent.work s _).trans (.progress ..)
    · exact .work s _
  | aaiTail =>
    simp only [react, aaiTail]
    split
    · exact .send (.refl s)
    · exact .fall (.refl s)

/-- The run down to the next frame ends with a line's response, or with none. -/
theorem settle_answered (req : Instr) (ts : List Task) (s : State) :
    NextAll (s.Answered (LineStatus s.config)) (settle req ts s) := by
  induction ts generalizing s with
  | nil => exact .next (.respond (.refl s) .ok)
  | cons t ts ih =>
    simp only [settle]
    have hx := react_answers req s t
    generalize react req s t = x at hx
    cases hx with
    | raise he => exact .next (.respond (.refl s) he)
    | fault f => exact .fault f
    | send h => exact .next (.silent (h.trans (.sending ..)))
    | fall h =>
      refine (ih _).mono fun t ht => h.answered ?_
      rwa [h.config] at ht

/-! ### The statuses of a request's checks (R260 to R263) and of a frame (R270) -/

/-- The statuses with which a check ends the request `i`: only `ERASE` has an alignment check. -/
inductive CheckStatus : Instr → Status → Prop
  | notProbed {i : Instr} : CheckStatus i .notProbed
  | outOfRange {i : Instr} : CheckStatus i .outOfRange
  | unaligned {addr len : Word} : CheckStatus (.erase addr len) .unaligned

/-- What the request `i`, accepted in `s`, leads to: a check fails, which does nothing but raise, or its lines run. -/
inductive State.Requested (s : State) (i : Instr) : State → Prop
  | check {e : Status} : CheckStatus i e → s.Requested i (s.raise i e)
  | lines {t : State} : s.Answered (LineStatus s.config) t → s.Requested i t

/-- The lines of a request whose checks pass. -/
theorem State.Requested.settle {s : State} {i : Instr} (ts : List Task) :
    NextAll (s.Requested i) (settle i ts s) :=
  (settle_answered i ts s).mono fun _ => .lines

/-- A request that returns `Ok` at its acceptance. -/
theorem State.Requested.respondOk {s : State} {i : Instr} {z : Option Word} {o : Option (List Byte)} :
    s.Requested i (s.respond .ok z o) :=
  .lines (.respond (.refl s) .ok)

/-- The six requests: their checks, and then their lines. -/
theorem exec_host_requested {s : State} {i : Instr} (hi : i.isHost = true) (hres : ∀ b, i ≠ .reserved67 b) :
    NextAll (s.accepted.Requested i) (exec i s) := by
  unfold exec
  cases i with
  | probe => exact .accept (.ite (.next .respondOk) (.settle _))
  | getsize => exact .accept (.withProbed (.check .notProbed) fun _ _ => .next .respondOk)
  | read addr len =>
    exact .accept (.withProbed (.check .notProbed) fun _ _ => .ite (.next (.check .outOfRange)) (.settle _))
  | erase addr len =>
    exact .accept (.withProbed (.check .notProbed) fun _ _ => .ite (.next (.check .unaligned))
      (.ite (.next (.check .outOfRange)) (.settle _)))
  | chiperase => exact .accept (.ite (.settle _) (.next (.check .notProbed)))
  | write addr data =>
    exact .accept (.withProbed (.check .notProbed) fun _ _ => .ite (.next (.check .outOfRange)) (.settle _))
  | reserved67 b => exact absurd rfl (hres b)
  | _ => cases hi

/-- The statuses a response to an `exec` of `i` can have. -/
inductive MayEnd (c : Config) (i : Instr) : Status → Prop
  | line {e : Status} : LineStatus c e → MayEnd c i e
  | check {e : Status} : CheckStatus i e → MayEnd c i e
  | transportFailure : MayEnd c i .transportFailure

section
variable {s : State} {i : Instr}

/-- One call of a frame that takes what it receives without a response. -/
theorem playFrame_answered {tx : List Byte} {rxs : List Nat} {got : Call → List Byte → State → State}
    {done : State → State} (hgot : ∀ c b u, State.Silent u (got c b u)) (hdone : ∀ u, State.Silent u (done u)) :
    NextAll (s.Answered (MayEnd s.config i)) (playFrame tx rxs got done s) := by
  cases hs : s.seq with
  | idle => rw [playFrame_idle hs]; exact .refused _
  | running r =>
    have hcall := State.Silent.called s (frameCall s.config.csLine.val tx rxs r.beat)
    cases ha : s.answer (frameCall s.config.csLine.val tx rxs r.beat) with
    | fail =>
      rw [playFrame_fail hs ha]
      exact .next (.respond hcall .transportFailure)
    | ok bytes =>
      by_cases hb : r.beat < lastBeat rxs
      · rw [playFrame_more hs hb ha]
        obtain ⟨hc, hp, hr, htr⟩ := hcall.trans (hgot _ bytes _)
        exact .next (.silent ⟨hc, hp, hr, htr⟩)
      · rw [playFrame_last hs (Nat.not_lt.mp hb) ha]
        have hend := hcall.trans (hdone _)
        refine NextAll.mono (settle_answered _ _ _) fun t ht => hend.answered (ht.mono fun e he => .line ?_)
        rwa [hend.config] at he

/-- A frame that receives nothing. -/
theorem playFrame_command_answered (tx : List Byte) :
    NextAll (s.Answered (MayEnd s.config i)) (playFrame tx [] keepNothing id s) :=
  playFrame_answered (fun _ _ => .refl) .refl

theorem cmdRd_answered (op : Byte) (n : Nat) {done : State → State} (hdone : ∀ u, State.Silent u (done u)) :
    NextAll (s.Answered (MayEnd s.config i)) (cmdRd op n done s) :=
  playFrame_answered .keepRx hdone

theorem cmdA_answered (op : Byte) (a : Word) : NextAll (s.Answered (MayEnd s.config i)) (cmdA op a s) :=
  .withWidth fun _ => playFrame_command_answered _

theorem cmdAD_answered (op : Byte) (a : Word) (data : List Byte) :
    NextAll (s.Answered (MayEnd s.config i)) (cmdAD op a data s) :=
  .withWidth fun _ => playFrame_command_answered _

/-- The nineteen frames, wherever in the frame the request stands. -/
theorem exec_frame_answered (hi : i.isHost = false) : NextAll (s.Answered (MayEnd s.config i)) (exec i s) := by
  unfold exec
  cases i with
  | probe | getsize | read | erase | chiperase | write | reserved67 => cases hi
  | rdid | rdsr => exact cmdRd_answered _ _ fun u => .work u _
  | wren | wrdi | wrsr | en4b | ex4b | brwr | exhb | wrear | ce | aaiNext => exact playFrame_command_answered _
  | se4k | se4kPmc | be32k | be64k => exact cmdA_answered _ _
  | pp | aaiFirst => exact cmdAD_answered _ _ _
  | readFrame a len =>
    show NextAll _ (execReadFrame a len s)
    exact .withWidth fun _ => playFrame_answered (.keepOut a len) .refl

/-- Every instruction, in every state. -/
theorem exec_answered (s : State) (i : Instr) : NextAll (s.Answered (MayEnd s.config i)) (exec i s) := by
  cases hi : i.isHost with
  | false => exact exec_frame_answered hi
  | true =>
    by_cases hres : ∃ b, i = .reserved67 b
    · obtain ⟨b, rfl⟩ := hres
      exact .next (.silent (.refl s))
    · refine (exec_host_requested hi fun b hb => hres ⟨b, hb⟩).mono fun t ht => ?_
      cases ht with
      | check he => exact .respond (.accepted s) (.check he)
      | lines h => exact (State.Silent.accepted s).answered (h.mono fun _ => .line)

end

/-- A step other than the reset event ends with the response of one instruction, or with none. -/
theorem step_answered {s t : State} (hp : s.resetPin = false) (ht : step s = .next t) :
    ∃ i, s.Answered (MayEnd s.config i) t := by
  rcases step_cases s with ⟨hp', -⟩ | ⟨-, -, he⟩ | ⟨-, -, ⟨-, he⟩ | ⟨-, he⟩ | ⟨i, u, hf, he⟩⟩
  · cases hp.symm.trans hp'
  · cases he.symm.trans ht
  · cases he.symm.trans ht
    exact ⟨.probe, .silent (.refl s)⟩
  · cases he.symm.trans ht
  · have hsu : s.Silent u := by
      rcases fetch_run hf with ⟨-, -, -, rfl⟩ | ⟨-, q, more, -, -, rfl⟩
      · exact .refl u
      · exact ⟨rfl, rfl, fun _ h => h, .refl s⟩
    exact ⟨i, hsu.answered (hsu.config ▸ exec_answered u i t (he.symm.trans ht))⟩

/-! ### The obligations about errors -/

/-- Settles O23: the failing call raises, and that is the whole step (`exec_fail`). -/
theorem failedCallEndsTheRequest : Obligations.FailedCallEndsTheRequest := by
  intro s ⟨req, i, beat, rest⟩ call hinv hp hc hs hcall hfail
  have hstep := (step_running ⟨hp, hc⟩ hs).trans ((atCall_of_inv hinv hs hcall).exec_fail hfail)
  refine ⟨_, _, hstep, rfl, rfl, rfl, ?_, ⟨rfl, rfl, rfl, rfl⟩, rfl, rfl⟩
  simp [hfail]

/-- Settles O24: the response ends the step (`State.Answered.ended`), the step made at most one call (O14), and only a
`PROBE` that returns `Ok` sets `PROBED`. -/
theorem errorsAbortAtOnce : Obligations.ErrorsAbortAtOnce := by
  intro s t before r hinv hp ht htr hr
  obtain ⟨i, hans⟩ := step_answered hp ht
  obtain ⟨hidle, hresp⟩ := hans.ended htr
  obtain ⟨hconfig, hpin⟩ := hans.setup
  have hsame : State.SameProbe s t := by
    cases stepped_of_step hinv ht with
    | reset hp' => cases hp.symm.trans hp'
    | idle _ _ _ hsame => exact hsame
    | running _ _ _ _ hprobe =>
      refine hprobe.resolve_right fun ⟨_, _, _, _, z, hz⟩ => hr ?_
      obtain rfl := Option.some.inj (hresp.symm.trans hz)
      rfl
  obtain ⟨more, hm, hidleStep, hcallStep⟩ := oneTransportCallPerRunningStep s t hinv ht
  obtain rfl : before ++ [.response r] = more :=
    List.append_cancel_left ((List.append_assoc ..).symm.trans (htr.symm.trans hm))
  refine ⟨hidle, hresp, ⟨hconfig, hsame.probed, hsame.cfg, hpin⟩, ?_⟩
  cases hs : s.seq with
  | idle =>
    obtain ⟨hno, hcs, -, hdev⟩ := hidleStep (.inr hs)
    have hbefore : callsOf before = [] := by simpa using hno
    simp [hbefore, hcs, hdev]
  | running q =>
    obtain ⟨call, after, hcons, hno, -, -, hdev⟩ := hcallStep q hp hs
    have hbefore : callsOf before = [call] := by simpa [hno] using congrArg callsOf hcons
    simp [hbefore, hdev]

/-- Settles O44: a poll gives up only at a limit (`LineStatus.timeout`), and no check and no failing call answers
`Timeout`. -/
theorem statusCodesAndTimeout : Obligations.StatusCodesAndTimeout := by
  refine ⟨rfl, fun s t hlim ht => ?_⟩
  cases hp : s.resetPin with
  | true =>
    have hreset : step s = .next s.onReset := by simp [step, hp]
    cases hreset.symm.trans ht
    exact ⟨[], by simp, nofun⟩
  | false =>
    obtain ⟨i, hans⟩ := step_answered hp ht
    obtain ⟨more, hm⟩ := step_trace ht
    refine ⟨more, hm, fun r hr htimeout => ?_⟩
    have hend := hans.status hm hr
    rw [htimeout] at hend
    cases hend with
    | line hline =>
      cases hline with
      | timeout hset => exact hset hlim
    | check hcheck => cases hcheck

/-! ### The obligations about the checks -/

/-- Before a probe every request but `PROBE` raises `NotProbed` (R260). -/
theorem exec_notProbed {s : State} {i : Instr} (hs : s.seq = .idle) (hp : s.probed = false) (hi : i.isHost = true)
    (hprobe : i ≠ .probe) (hres : ∀ b, i ≠ .reserved67 b) : exec i s = .next (s.accepted.raise i .notProbed) := by
  have hp' : s.accepted.probed = false := hp
  cases i with
  | probe => exact absurd rfl hprobe
  | reserved67 b => exact absurd rfl (hres b)
  | getsize | read | erase | write =>
    simp only [exec, execGetsize, execRead, execErase, execWrite, accept_idle hs, withProbed_no hp']
  | chiperase => simp [exec, execChiperase, accept_idle hs, hp]
  | _ => cases hi

/-- Settles O38: the check of the probe comes first and does nothing but raise (`exec_notProbed`). -/
theorem requestsBeforeProbeEndNotProbed : Obligations.RequestsBeforeProbeEndNotProbed := by
  intro s i hs hp hi hprobe hres
  exact ⟨_, _, _, exec_notProbed hs hp hi hprobe hres, rfl, rfl, rfl, ⟨rfl, rfl, rfl, rfl⟩, rfl, rfl, rfl⟩

theorem misaligned_iff {g addr len : Word} :
    misaligned g addr len = true ↔ addr.toNat % g.toNat ≠ 0 ∨ (addr.toNat + len.toNat) % g.toNat ≠ 0 := by
  simp [misaligned, spanEnd]

section
variable {s : State} {f : FlashConfig} {d : Descriptor} {addr len : Word} {data : List Byte}
  (hs : s.seq = .idle) (hp : s.probed = true) (hd : s.probedDevice = some (f, d))
include hs hp hd

theorem exec_erase_unaligned (ha : misaligned f.eraseGran addr len = true) :
    exec (.erase addr len) s = .next (s.accepted.raise (.erase addr len) .unaligned) := by
  show execErase addr len s = _
  rw [execErase, accept_idle hs, withProbed_yes (s := s.accepted) hp hd, if_pos ha]

theorem exec_erase_outOfRange (ha : misaligned f.eraseGran addr len = false)
    (hr : d.capacity.toNat < addr.toNat ∨ d.capacity.toNat < addr.toNat + len.toNat) :
    exec (.erase addr len) s = .next (s.accepted.raise (.erase addr len) .outOfRange) := by
  show execErase addr len s = _
  rw [execErase, accept_idle hs, withProbed_yes (s := s.accepted) hp hd, if_neg (by simp [ha])]
  exact if_pos hr

theorem exec_read_outOfRange (hr : d.capacity.toNat < addr.toNat + len.toNat) :
    exec (.read addr len) s = .next (s.accepted.raise (.read addr len) .outOfRange) := by
  show execRead addr len s = _
  rw [execRead, accept_idle hs, withProbed_yes (s := s.accepted) hp hd]
  exact if_pos hr

theorem exec_write_outOfRange (hr : d.capacity.toNat < addr.toNat + data.length) :
    exec (.write addr data) s = .next (s.accepted.raise (.write addr data) .outOfRange) := by
  show execWrite addr data s = _
  rw [execWrite, accept_idle hs, withProbed_yes (s := s.accepted) hp hd]
  exact if_pos hr

end

/-- Settles O39: the alignment check comes before the range check, and only `ERASE` has it (`CheckStatus`). -/
theorem misalignedEraseEndsUnaligned : Obligations.MisalignedEraseEndsUnaligned := by
  refine ⟨fun s f d addr len hs hp hd ha => ?_, fun g addr len => ?_, fun s t i more r hi ht htr hr hun => ?_⟩
  · exact ⟨_, _, exec_erase_unaligned hs hp hd (misaligned_iff.mpr ha), rfl, rfl⟩
  · simp only [← Nat.dvd_iff_mod_eq_zero]
    exact and_congr_right Nat.dvd_add_right
  · have hend := (exec_answered s i t ht).status htr hr
    rw [hun] at hend
    cases hend with
    | line hline => cases hline
    | check hcheck =>
      cases hcheck
      exact hi _ _ rfl

/-- What the lines of an accepted request answer is not `OutOfRange`. -/
theorem settle_not_outOfRange {s t : State} {req : Instr} {ts : List Task} {r : Response}
    (ht : settle req ts s.accepted = .next t) (hr : t.resp = some r) : r.status ≠ .outOfRange := by
  intro hout
  have hline := ((settle_answered req ts s.accepted t ht).resp hr).resolve_left nofun
  rw [hout] at hline
  cases hline

/-- Settles O40: past the capacity the request raises; inside it, or without a range check, its lines run
(`settle_not_outOfRange`) or it returns `Ok`. -/
theorem spansPastTheCapacityEndOutOfRange : Obligations.SpansPastTheCapacityEndOutOfRange := by
  intro s f d addr len data hs hp hd
  refine ⟨fun hr => ?_, fun hr => ?_, fun ha hr => ?_, fun i t r ht hr hin => ?_⟩
  · exact ⟨_, _, _, exec_read_outOfRange hs hp hd hr, rfl, rfl⟩
  · exact ⟨_, _, exec_write_outOfRange hs hp hd hr, rfl, rfl⟩
  · exact ⟨_, _, exec_erase_outOfRange hs hp hd ha hr, rfl, rfl⟩
  · rcases hin with ⟨rfl, hin⟩ | ⟨rfl, hin⟩ | ⟨rfl, hin⟩ | rfl | rfl | rfl
    · exact settle_not_outOfRange ((exec_read_accepted hs hp hd hin).symm.trans ht) hr
    · exact settle_not_outOfRange ((exec_write_accepted hs hp hd hin).symm.trans ht) hr
    · cases ha : misaligned f.eraseGran addr len with
      | true =>
        cases (exec_erase_unaligned hs hp hd ha).symm.trans ht
        cases hr
        nofun
      | false => exact settle_not_outOfRange ((exec_erase_accepted hs hp hd ha hin).symm.trans ht) hr
    · exact settle_not_outOfRange ((exec_chiperase_accepted hs hp).symm.trans ht) hr
    · cases (exec_probe_probed hs hp).symm.trans ht
      cases hr
      nofun
    · obtain ⟨u, hu, hresp, -⟩ := (getsizeAnswersTheCapacity s hs).1 f d hp hd
      cases hu.symm.trans ht
      cases hresp.symm.trans hr
      nofun

/-- Settles O41: a response with one of the three statuses is that of a failed check, which does nothing but raise
(`State.Requested`); the lines of a request answer none of them (`LineStatus`). -/
theorem failedChecksHaveNoEffect : Obligations.FailedChecksHaveNoEffect := by
  intro s t i r _ ht hr hstatus hi hres
  cases exec_host_requested hi hres t ht with
  | check =>
    obtain rfl := Option.some.inj hr
    exact ⟨rfl, ⟨rfl, rfl, rfl, rfl⟩, rfl, rfl, rfl, rfl⟩
  | lines h =>
    have hline := (h.resp hr).resolve_left nofun
    rcases hstatus with hst | hst | hst <;> rw [hst] at hline <;> cases hline

end Sys2Proof.Machine

namespace Sys2Proof.Machine

/-! ### The reset event and the parameters (R300 to R303, R305) -/

/-- With the reset input asserted the step is the reset event. -/
theorem step_reset {s : State} (hp : s.resetPin = true) : step s = .next s.onReset :=
  stepRunsTheNextInstruction.1 s hp

/-- The reset event clears the reset input, so a configuration that is not refused runs after it. -/
theorem onReset_runs {s : State} (hc : configRuns s.config = true) : s.onReset.runs :=
  ⟨State.onReset_resetPin s, hc⟩

/-- Settles O11: the reset event keeps the parameters, and so does every other step (`State.Answered.setup`). -/
theorem parametersNeverChange : Obligations.ParametersNeverChange := by
  intro s t ht
  cases hp : s.resetPin with
  | true =>
    cases (step_reset hp).symm.trans ht
    exact State.onReset_config s
  | false =>
    obtain ⟨i, hans⟩ := step_answered hp ht
    exact hans.setup.1

/-- Settles O1: the step is the reset event, which leaves an `IDLE` block with its reset input cleared; with no request
presented that block waits. -/
theorem resetAbandonsAndForgetsEverything : Obligations.ResetAbandonsAndForgetsEverything := by
  refine ⟨⟨rfl, rfl, rfl, rfl⟩, fun s hp =>
    ⟨s.onReset, step_reset hp, rfl, rfl, rfl, rfl, rfl, rfl, rfl, rfl, fun hc hhost => ?_⟩⟩
  exact step_waits (onReset_runs hc) (State.onReset_seq s) hhost

end Sys2Proof.Machine
